-- ==== Sys2Proof/Word.lean ====
section
/-! DEFINITION. The widths of the engine: every register and entry is 32 bits (R10), bits numbered from 0 at the
least significant end (R11). -/

namespace Sys2Proof

/-- A register, RAM entry or buffer entry: 32 bits (R10). -/
abbrev Word := BitVec 32

/-- One byte of the aperture (R70, R76). -/
abbrev Byte := BitVec 8

end Sys2Proof
end

