-- ==== Sys2Proof/Syntax.lean ====
section
/-! DEFINITION. The syntax: the fourteen commands of spec/opcode_table.json (R101), the six metrics, and the actions
of the host on the aperture (R75, R78, R79, R106, R240). -/

namespace Sys2Proof

/-- The commands, one constructor per row of the opcode table (R101). No command carries an operand field (R104). -/
inductive Instr where
  /-- `NOP` (R196). -/
  | nop
  /-- `BV_BIT` (R121). -/
  | bvBit
  /-- `BV_PARITY` (R122). -/
  | bvParity
  /-- `BV_HAMMING` (R123). -/
  | bvHamming
  /-- `WHT` (R134). -/
  | wht
  /-- `WHT_RAW` (R135). -/
  | whtRaw
  /-- `WHT_COMP` (R136). -/
  | whtComp
  /-- `NL` (R160). -/
  | nl
  /-- `SAC` (R163). -/
  | sac
  /-- `LAP` (R166). -/
  | lap
  /-- `DAP` (R168). -/
  | dap
  /-- `BICNL` (R170). -/
  | bicNl
  /-- `BICSAC` (R172). -/
  | bicSac
  /-- `RUNSEL` (R175). -/
  | runSel
deriving DecidableEq, Repr

/-- The families of the opcode map (R101). -/
inductive Family where
  | control
  | bitVector
  | transform
  | analyzer
deriving DecidableEq, Repr

/-- The six metrics; metric k owns result slot k (R40): NL 0, SAC 1, LAP 2, DAP 3, BIC-NL 4, BIC-SAC 5. -/
inductive Metric where
  | nl
  | sac
  | lap
  | dap
  | bicNl
  | bicSac
deriving DecidableEq, Repr

/-- The named registers of the register block (R22). -/
inductive RegName where
  | id
  | cfg
  | ctrl
  | status
  | cmd
  | nLog
  | mBits
  | tblLen
  | mask
  | opa
  | opb
  | sel
  | irqEn
  | errExp
  | errAct
  | errIdx
  | bvResult
  | whtMaxAbs
deriving DecidableEq, Repr

/-- The four registers of a result slot (R40). -/
inductive SlotField where
  | num
  | den
  | aux
  | valid
deriving DecidableEq, Repr

/-- What an aperture offset selects (R71, R72, R39). -/
inductive Target where
  /-- A named register. -/
  | reg (r : RegName)
  /-- A field of the result slot of a metric. -/
  | slot (k : Metric) (f : SlotField)
  /-- Entry `x` of the S-box RAM. -/
  | sbox (x : Nat)
  /-- Entry `x` of the WHT buffer. -/
  | buf (x : Nat)
  /-- Reserved or unmapped: reads 0, writes ignored. -/
  | unmapped
deriving DecidableEq, Repr

/-- The width of a host access (R75). -/
inductive AccessSize where
  | byte
  | half
  | word
  | double
deriving DecidableEq, Repr

/-- One access by the host, at an absolute platform address (R70, R106). -/
inductive Access where
  | read (addr : Nat) (size : AccessSize)
  | write (addr : Nat) (size : AccessSize) (v : Word)
deriving DecidableEq, Repr

/-- One thing that happens at the engine: a host access (R83), the engine's turn to move (R192), or reset (R240). -/
inductive BusEvent where
  | access (a : Access)
  | engine
  | reset
deriving DecidableEq, Repr

end Sys2Proof
end

