-- ==== Sys2Proof/Decode.lean ====
section
/-! DEFINITION. The byte order (R76), the decoder of the command word (R100 to R103) and after it the encoder. -/

namespace Sys2Proof

/-- The four bytes of a word, lowest address first: byte j is bits 8j+7 : 8j (R76). -/
def bytesOfWord (w : Word) : List Byte :=
  [w.extractLsb' 0 8, w.extractLsb' 8 8, w.extractLsb' 16 8, w.extractLsb' 24 8]

/-- The word whose bytes, lowest address first, are `b0 b1 b2 b3` (R76). -/
def wordOfBytes (b0 b1 b2 b3 : Byte) : Word := b3 ++ b2 ++ b1 ++ b0

/-- Why a command word, or a list of bytes, is no command (R102). -/
inductive DecodeReject where
  /-- Fewer than the four bytes of a command word (R103). -/
  | truncated
  /-- CMD[31:8] is not zero (R100, R102). -/
  | reservedBits
  /-- CMD[7:0] is in no row of the opcode map (R101, R102). -/
  | unknownOpcode
deriving DecidableEq, Repr

/-- The row of the opcode map (R101) whose `op` is the given byte. -/
def decodeOpcode (op : Nat) : Option Instr :=
  match op with
  | 0x00 => some .nop
  | 0x01 => some .bvBit
  | 0x02 => some .bvParity
  | 0x03 => some .bvHamming
  | 0x10 => some .wht
  | 0x11 => some .whtRaw
  | 0x12 => some .whtComp
  | 0x20 => some .nl
  | 0x21 => some .sac
  | 0x22 => some .lap
  | 0x23 => some .dap
  | 0x24 => some .bicNl
  | 0x25 => some .bicSac
  | 0x2F => some .runSel
  | _ => none

/-- Decoding of a command word: all 32 bits are read (R100, R101, R102). -/
def decodeCommand (w : Word) : Except DecodeReject Instr :=
  if w.extractLsb' 8 24 = 0 then
    match decodeOpcode (w.extractLsb' 0 8).toNat with
    | some i => .ok i
    | none => .error .unknownOpcode
  else .error .reservedBits

/-- Decoding of the command at the front of a list of bytes, with the bytes left over (R76, R103). -/
def decodeBytes : List Byte → Except DecodeReject (Instr × List Byte)
  | b0 :: b1 :: b2 :: b3 :: rest =>
    match decodeCommand (wordOfBytes b0 b1 b2 b3) with
    | .ok i => .ok (i, rest)
    | .error r => .error r
  | _ => .error .truncated

/-- The opcode of a command (R101). -/
def opcode : Instr → BitVec 8
  | .nop => 0x00
  | .bvBit => 0x01
  | .bvParity => 0x02
  | .bvHamming => 0x03
  | .wht => 0x10
  | .whtRaw => 0x11
  | .whtComp => 0x12
  | .nl => 0x20
  | .sac => 0x21
  | .lap => 0x22
  | .dap => 0x23
  | .bicNl => 0x24
  | .bicSac => 0x25
  | .runSel => 0x2F

/-- The command word of a command: the reserved bits 31:8 zero, the opcode in 7:0 (R100). -/
def encode (i : Instr) : Word := (0#24) ++ opcode i

/-- The command word as the aperture's bytes (R76). -/
def encodeBytes (i : Instr) : List Byte := bytesOfWord (encode i)

/-- The command the decoder reads from a table word: the bits of `w` laid out as four bytes, the first at the lowest
address. A word of more than 32 bits is no command (R103). -/
def decodeTableWord (_nbits w : Nat) : Option Instr :=
  if w < 2 ^ 32 then
    match decodeBytes (bytesOfWord (BitVec.ofNat 32 w)) with
    | .ok (i, _) => some i
    | .error _ => none
  else none

end Sys2Proof
end

