-- ==== Sys2Proof/Machine/Bits.lean ====
section
/-! DEFINITION. The operators of R12 on non-negative integers, and the rounding of R173. -/

namespace Sys2Proof.Machine

/-- The number of 1 bits among the low `k` bits of `v`. -/
def countBits : Nat → Nat → Nat
  | 0, _ => 0
  | k + 1, v => v % 2 + countBits k (v / 2)

/-- `popcount(v)` (R12). Every operand of the engine is below 2^32 (R10, R124), so 32 bits are all there are. -/
def popcount (v : Nat) : Nat := countBits 32 v

/-- `parity(v) = popcount(v) mod 2` (R12). -/
def parity (v : Nat) : Nat := popcount v % 2

/-- `hamming(a, b) = popcount(a ^ b)` (R12). -/
def hamming (a b : Nat) : Nat := popcount (a ^^^ b)

/-- `bit(v, i) = (v >> i) & 1` (R12). -/
def bitOf (v i : Nat) : Nat := (v >>> i) &&& 1

/-- `RoundHalfEven(num / den)` (R173): the nearest integer, the even one when the quotient is halfway. -/
def roundHalfEven (num den : Nat) : Nat :=
  let q := num / den
  let r := num % den
  if 2 * r < den then q
  else if den < 2 * r then q + 1
  else if q % 2 = 0 then q
  else q + 1

/-- The largest element of a list of numbers, 0 for the empty list. -/
def maxOf (l : List Nat) : Nat := l.foldl max 0

end Sys2Proof.Machine
end

