-- ==== Sys2Proof/Config.lean ====
section
/-! DEFINITION. What an implementation fixes (the part's parameters, R8 and R70) and the free values (R16). -/

namespace Sys2Proof.Config

/-- The parameters of one part: NMAX and MMAX (R8, I1) and the platform's ENGINE_BASE (R70, I2). -/
structure Part where
  /-- `NMAX`, the largest input width n the engine accepts; legal 1 to 16 (R8). -/
  nmax : Nat
  /-- `MMAX`, the largest output width m the engine accepts; legal 1 to 32 (R8). -/
  mmax : Nat
  /-- `ENGINE_BASE`, where the platform puts the aperture; a multiple of 0x100000 (R70). -/
  base : Nat
deriving DecidableEq, Repr

/-- The reference configuration NMAX = MMAX = 8 (R8). DESIGN CHOICE (A1): the spec fixes no ENGINE_BASE; 0 here. -/
def reference : Part := { nmax := 8, mmax := 8, base := 0 }

/-- The free values: what an UNSPECIFIED 32-bit value is (R16, I9 to I13). It has no body, so nothing can be proved
of its values; each draw uses an argument of its own, the counter `State.draws` (A3). -/
opaque freeWord : Nat → Word

end Sys2Proof.Config
end

