-- ==== Sys2Proof/Machine/State.lean ====
section
/-! DEFINITION. The state of the machine as plain data: everything 10_state.md gives the engine, the part's
parameters, and the model's own draws counter, inbox and replies. -/

namespace Sys2Proof.Machine

/-- The engine's phase, with the copy `cur_cmd` of CMD taken at START while BUSY (R50). -/
inductive Phase where
  | idle
  | busy (curCmd : Word)
deriving DecidableEq, Repr

/-- The error codes STATUS.ERRCODE can hold (R201); codes 0x0A to 0xFF are never produced. -/
inductive ErrCode where
  | none
  | badOpcode
  | param
  | lenNotPow2
  | lenMismatch
  | domain
  | degenerate
  | notBoolean
  | overflow
  | aborted
deriving DecidableEq, Repr

/-- The stored bits of STATUS (R27). BUSY is not stored: it is the phase (R50). -/
structure StatusFlags where
  done : Bool
  err : Bool
  accErr : Bool
  errCode : ErrCode
deriving DecidableEq, Repr

/-- The registers the host writes and the commands read, locked while BUSY (R28 to R34). -/
structure OperandRegs where
  cmd : Word
  nLog : Word
  mBits : Word
  tblLen : Word
  mask : Word
  opa : Word
  opb : Word
  sel : Word
deriving DecidableEq, Repr

/-- The error context ERR_EXP, ERR_ACT, ERR_IDX (R36). -/
structure ErrContext where
  exp : Word
  act : Word
  idx : Word
deriving DecidableEq, Repr

/-- One result slot (R40). -/
structure Slot where
  num : Word
  den : Word
  aux : Word
  valid : Bool
deriving DecidableEq, Repr

/-- The six result slots, one per metric (R40). -/
structure Slots where
  nl : Slot
  sac : Slot
  lap : Slot
  dap : Slot
  bicNl : Slot
  bicSac : Slot
deriving DecidableEq, Repr

/-- The S-box RAM (R45) and the WHT buffer (R47) by aperture byte offset, addresses strictly rising (A6). An offset
that is not listed holds no value: the entry has not been written since reset (R46, A5). -/
abbrev Memory := List Host.Cell

/-- What one host read returned: the address read and the value (R106's `rd NAME -> t`; A16). -/
structure Reply where
  addr : Nat
  value : Word
deriving DecidableEq, Repr

/-- The whole machine. -/
structure State where
  /-- NMAX, MMAX and ENGINE_BASE (R8, R70); CFG shows the first two (R25). -/
  part : Config.Part
  /-- IDLE, or BUSY with `cur_cmd` (R50). -/
  phase : Phase
  /-- CMD, N_LOG, M_BITS, TBL_LEN, MASK, OPA, OPB, SEL. -/
  regs : OperandRegs
  /-- IRQ_EN[1:0] (R35). -/
  irqEn : BitVec 2
  /-- DONE, ERR, ACCERR, ERRCODE (R27). -/
  flags : StatusFlags
  /-- ERR_EXP, ERR_ACT, ERR_IDX (R36). -/
  errCtx : ErrContext
  /-- BV_RESULT (R37). -/
  bvResult : Word
  /-- WHT_MAXABS (R38). -/
  whtMaxAbs : Word
  /-- The result slots (R40). -/
  slots : Slots
  /-- S-box RAM and WHT buffer (R45, R47). -/
  mem : Memory
  /-- The model's own: how many free values have been drawn (A3). -/
  draws : Nat
  /-- The model's own: the pending host accesses, engine turns and resets, oldest first (A2). -/
  inbox : List BusEvent
  /-- The model's own: what host reads have returned, newest first (A16). -/
  replies : List Reply
deriving DecidableEq, Repr

/-- The reasons a step faults. -/
inductive Fault where
  /-- `Fault(UnwrittenRead)` (R46, R213): a host read, or a command's read, of an entry nothing has written since
  reset; `offset` is the entry's aperture offset. Raised by `busRead` and by the commands' entry scans. Safe: the
  hardware goes on with some value. -/
  | unwrittenRead (offset : Nat)
  /-- A host access outside `[ENGINE_BASE, ENGINE_BASE + 0xC0000)`, which is the platform's and not the engine's
  (R74, A8). Raised by `hostAccess`. Safe: the engine takes no part in it. -/
  | outsideAperture (addr : Nat)
deriving DecidableEq, Repr

/-- The reasons a step is refused. -/
inductive Refusal where
  /-- An instruction that has no meaning yet, by its mnemonic. Raised by `exec`'s arms only; none is left. Safe. -/
  | notModelled (mnemonic : String)
  /-- A narrow, wide or misaligned host access: "A model has no move for such an access" (R75, I4, A7). Raised by
  `hostAccess`. Safe: the hardware's response is UNSPECIFIED. -/
  | noMoveAccess (addr : Nat)
deriving DecidableEq, Repr

/-- A slot with every field 0 and VALID = 0 (R40, R41). -/
def Slot.zero : Slot := { num := 0, den := 0, aux := 0, valid := false }

/-- The state right after reset of a given part (R54, R240). -/
def State.resetFor (p : Config.Part) : State where
  part := p
  phase := .idle
  regs := { cmd := 0, nLog := 0, mBits := 0, tblLen := 0, mask := 0, opa := 0, opb := 0, sel := 0 }
  irqEn := 0
  flags := { done := false, err := false, accErr := false, errCode := .none }
  errCtx := { exp := 0, act := 0, idx := 0 }
  bvResult := 0
  whtMaxAbs := 0
  slots := { nl := .zero, sac := .zero, lap := .zero, dap := .zero, bicNl := .zero, bicSac := .zero }
  mem := []
  draws := 0
  inbox := []
  replies := []

/-- The state right after reset (R54, R240), in the reference configuration (A1). -/
def State.reset : State := State.resetFor Config.reference

end Sys2Proof.Machine
end

