-- ==== Sys2Proof/Machine/Flags.lean ====
section
/-! DEFINITION. The flags: STATUS (R27, R53), which steps write them (R191, R192, R193), and the IRQ line (R215). -/

namespace Sys2Proof.Machine

/-- The code of an error (R201). -/
def ErrCode.code : ErrCode → Byte
  | .none => 0x00
  | .badOpcode => 0x01
  | .param => 0x02
  | .lenNotPow2 => 0x03
  | .lenMismatch => 0x04
  | .domain => 0x05
  | .degenerate => 0x06
  | .notBoolean => 0x07
  | .overflow => 0x08
  | .aborted => 0x09

/-- STATUS.BUSY: 1 exactly when the phase is BUSY (R50). -/
def isBusy (s : State) : Bool :=
  match s.phase with
  | .idle => false
  | .busy _ => true

/-- STATUS as the host reads it (R27): ERRCODE in 15:8, ACCERR 3, ERR 2, DONE 1, BUSY 0, the other bits 0. -/
def statusWord (s : State) : Word :=
  (0#16) ++ s.flags.errCode.code ++ (0#4) ++ BitVec.ofBool s.flags.accErr ++ BitVec.ofBool s.flags.err ++
    BitVec.ofBool s.flags.done ++ BitVec.ofBool (isBusy s)

/-- A host write of `v` to STATUS (R27): clears DONE, ERR, ACCERR where bits 1, 2, 3 of `v` are 1, nothing else. -/
def clearStatus (v : Word) (s : State) : State :=
  { s with flags := { s.flags with
      done := s.flags.done && !v.getLsbD 1
      err := s.flags.err && !v.getLsbD 2
      accErr := s.flags.accErr && !v.getLsbD 3 } }

/-- A refused host access (R23, R80, R195): the sticky ACCERR, and nothing else. -/
def setAccErr (s : State) : State := { s with flags := { s.flags with accErr := true } }

/-- The flags, context and phase at an accepted START of the command word `w` (R191); ACCERR is not changed. -/
def beginCommand (w : Word) (s : State) : State :=
  { s with
    phase := .busy w
    flags := { s.flags with done := false, err := false, errCode := .none }
    errCtx := { exp := 0, act := 0, idx := 0 } }

/-- The flags and phase at the end of a command without error (R192). -/
def endOk (s : State) : State :=
  { s with phase := .idle, flags := { s.flags with done := true, errCode := .none } }

/-- The flags, context and phase at the end of a command with an error (R192, R210) or by ABORT (R193). -/
def endError (code : ErrCode) (exp act idx : Word) (s : State) : State :=
  { s with
    phase := .idle
    flags := { s.flags with done := true, err := true, errCode := code }
    errCtx := { exp := exp, act := act, idx := idx } }

/-- The interrupt output (R215): `(DONE and IRQ_EN[0]) or (ERR and IRQ_EN[1])`. -/
def irqLine (s : State) : Bool :=
  (s.flags.done && s.irqEn.getLsbD 0) || (s.flags.err && s.irqEn.getLsbD 1)

end Sys2Proof.Machine
end

