-- ==== Sys2Proof/Machine/Ops.lean ====
section
/-! DEFINITION. The named operations over memory, slots and free values, and the three ways a command's life changes:
an accepted START (R191), an error (R210), an ABORT (R193). -/

namespace Sys2Proof.Machine

/-! ### Memory: bytes, and the words made of them (R75, R76, R77) -/

/-- The canonical form: addresses strictly rising. An unlisted byte has no value, so no entry can equal it (A6). -/
abbrev Memory.wf (m : Memory) : Prop := m.Pairwise (fun c d => c.1 < d.1)

/-- The byte at an aperture offset; none when nothing has written it since reset (R46). -/
def Memory.readByte : Memory → Nat → Option Byte
  | [], _ => none
  | (b, v) :: rest, a => if b = a then some v else Memory.readByte rest a

/-- The cells of the bytes `bs` from offset `a` on. -/
def cellsAt : Nat → List Byte → Memory
  | _, [] => []
  | a, b :: bs => (a, b) :: cellsAt (a + 1) bs

/-- The bytes `bs` stored from offset `a` on, every other byte kept. -/
def Memory.writeBytes (m : Memory) (a : Nat) (bs : List Byte) : Memory :=
  m.filter (fun c => decide (c.1 < a)) ++ cellsAt a bs ++ m.filter (fun c => decide (a + bs.length ≤ c.1))

/-- The 32-bit entry at an offset (R77), its bytes little-endian (R76); none when it is unwritten (R46). -/
def Memory.readWord (m : Memory) (a : Nat) : Option Word :=
  match m.readByte a, m.readByte (a + 1), m.readByte (a + 2), m.readByte (a + 3) with
  | some b0, some b1, some b2, some b3 => some (wordOfBytes b0 b1 b2 b3)
  | _, _, _, _ => none

/-- The words `ws` stored as consecutive entries from offset `a` on. -/
def Memory.writeWords (m : Memory) (a : Nat) (ws : List Word) : Memory :=
  m.writeBytes a (ws.flatMap bytesOfWord)

/-- The offset of S-box RAM entry `x` (R72). -/
def sboxOff (x : Nat) : Nat := 0x40000 + 4 * x

/-- The offset of WHT buffer entry `x` (R72). -/
def bufOff (x : Nat) : Nat := 0x80000 + 4 * x

/-! ### Slots (R40) -/

/-- The slot of a metric. -/
def Slots.get (sl : Slots) : Metric → Slot
  | .nl => sl.nl
  | .sac => sl.sac
  | .lap => sl.lap
  | .dap => sl.dap
  | .bicNl => sl.bicNl
  | .bicSac => sl.bicSac

/-- The slots with that of one metric replaced. -/
def Slots.set (sl : Slots) (k : Metric) (v : Slot) : Slots :=
  match k with
  | .nl => { sl with nl := v }
  | .sac => { sl with sac := v }
  | .lap => { sl with lap := v }
  | .dap => { sl with dap := v }
  | .bicNl => { sl with bicNl := v }
  | .bicSac => { sl with bicSac := v }

/-- The metrics in the order of their slots (R40). -/
def allMetrics : List Metric := [.nl, .sac, .lap, .dap, .bicNl, .bicSac]

/-- The number of a metric's slot (R40). -/
def slotIndex : Metric → Nat
  | .nl => 0
  | .sac => 1
  | .lap => 2
  | .dap => 3
  | .bicNl => 4
  | .bicSac => 5

/-- The slots `sl` with the slot of every metric of `ks` replaced by `f` of it. -/
def Slots.setAll (sl : Slots) (f : Metric → Slot) : List Metric → Slots
  | [] => sl
  | k :: ks => (sl.set k (f k)).setAll f ks

/-! ### Commands and their outputs -/

/-- The family of a command (R101). -/
def familyOf : Instr → Family
  | .nop => .control
  | .bvBit => .bitVector
  | .bvParity => .bitVector
  | .bvHamming => .bitVector
  | .wht => .transform
  | .whtRaw => .transform
  | .whtComp => .transform
  | .nl => .analyzer
  | .sac => .analyzer
  | .lap => .analyzer
  | .dap => .analyzer
  | .bicNl => .analyzer
  | .bicSac => .analyzer
  | .runSel => .analyzer

/-- The metrics SEL selects, ascending (R34, R175). -/
def selectedMetrics (sel : Word) : List Metric :=
  allMetrics.filter (fun k => sel.getLsbD (slotIndex k))

/-- `Slots(c)` for a legal command word (R191). -/
def slotsOf (i : Instr) (sel : Word) : List Metric :=
  match i with
  | .nl => [.nl]
  | .sac => [.sac]
  | .lap => [.lap]
  | .dap => [.dap]
  | .bicNl => [.bicNl]
  | .bicSac => [.bicSac]
  | .runSel => selectedMetrics sel
  | .nop => []
  | .bvBit => []
  | .bvParity => []
  | .bvHamming => []
  | .wht => []
  | .whtRaw => []
  | .whtComp => []

/-- The command a command word selects, if any (R101). -/
def commandOf (w : Word) : Option Instr :=
  match decodeCommand w with
  | .ok i => some i
  | .error _ => none

/-- `Slots(c)` for any command word (R191): empty unless the word is an analyzer command. -/
def slotsOfWord (w sel : Word) : List Metric :=
  match commandOf w with
  | some i => slotsOf i sel
  | none => []

/-- The command that is running, if the phase is BUSY and its word is a command (R50). -/
def runningCommand (s : State) : Option Instr :=
  match s.phase with
  | .idle => none
  | .busy w => commandOf w

/-- The slots the running command will write. -/
def runningSlots (s : State) : List Metric :=
  match runningCommand s with
  | some i => slotsOf i s.regs.sel
  | none => []

/-! ### Free values (R16, A3) -/

/-- The next `k` free values. -/
def freeWords (k : Nat) (s : State) : List Word :=
  (List.range k).map (fun j => Config.freeWord (s.draws + j))

/-- BUF entries 0 .. `k`-1 become UNSPECIFIED and count as written (R152, I11 to I13). -/
def unspecifyBuf (k : Nat) (s : State) : State :=
  { s with mem := s.mem.writeWords (bufOff 0) (freeWords k s), draws := s.draws + k }

/-- WHT_MAXABS becomes UNSPECIFIED (R38, R152). -/
def unspecifyMaxAbs (s : State) : State :=
  { s with whtMaxAbs := Config.freeWord s.draws, draws := s.draws + 1 }

/-- R152, after any analyzer command: every BUF entry and WHT_MAXABS UNSPECIFIED. -/
def clobberBuffer (s : State) : State := unspecifyMaxAbs (unspecifyBuf (2 ^ s.part.nmax) s)

/-- Slots that START has just handed to a command: VALID 0, the other fields UNSPECIFIED (R41, R191). -/
def unspecifySlots : List Metric → State → State
  | [], s => s
  | k :: ks, s =>
    unspecifySlots ks
      { s with
        slots := s.slots.set k
          { num := Config.freeWord s.draws
            den := Config.freeWord (s.draws + 1)
            aux := Config.freeWord (s.draws + 2)
            valid := false }
        draws := s.draws + 3 }

/-- Every field of the given slots 0, VALID 0 (R41, R210). -/
def zeroSlots (ks : List Metric) (s : State) : State :=
  { s with slots := s.slots.setAll (fun _ => Slot.zero) ks }

/-- WHT_MAXABS written. -/
def setMaxAbs (v : Word) (s : State) : State := { s with whtMaxAbs := v }

/-- BV_RESULT written (R37). -/
def setBvResult (v : Word) (s : State) : State := { s with bvResult := v }

/-! ### START, errors, ABORT -/

/-- An accepted START (R191): CMD is copied, the phase is BUSY, DONE, ERR, ERRCODE and the error context are cleared,
and the command's slots become invalid and UNSPECIFIED. -/
def startCommand (s : State) : State :=
  unspecifySlots (slotsOfWord s.regs.cmd s.regs.sel) (beginCommand s.regs.cmd s)

/-- What `raise Error(code, exp, act, idx)` carries (R13, R210). -/
structure CmdError where
  code : ErrCode
  exp : Word
  act : Word
  idx : Word
deriving DecidableEq, Repr

/-- Why a command's rule stops before its result: an error, or the model's `Fault(UnwrittenRead)` (R192). -/
inductive CmdStop where
  | error (e : CmdError)
  | unwritten (offset : Nat)
deriving DecidableEq, Repr

/-- How many BUF entries belong to a transform of width `N_LOG`: N = 2^n, at most the whole buffer (R9, A13). -/
def bufSpan (s : State) : Nat :=
  if s.regs.nLog.toNat ≤ s.part.nmax then 2 ^ s.regs.nLog.toNat else 2 ^ s.part.nmax

/-- What an error does to the command's outputs (R210). -/
def errorOutputs (i : Instr) (code : ErrCode) (s : State) : State :=
  match familyOf i with
  | .control => s
  | .bitVector => s
  | .transform =>
    setMaxAbs 0 (match code with
      | .overflow => unspecifyBuf (bufSpan s) s
      | _ => s)
  | .analyzer => clobberBuffer (zeroSlots (slotsOf i s.regs.sel) s)

/-- The one way a command ends with an error (R192, R210): the context registers, ERR, ERRCODE, DONE, IDLE, and the
outputs of `errorOutputs`. -/
def raiseError (i : Instr) (e : CmdError) (s : State) : State :=
  endError e.code e.exp e.act e.idx (errorOutputs i e.code s)

/-- The end of a command word that is no command (R102): BAD_OPCODE with ERR_ACT = CMD; no output changes. -/
def raiseBadOpcode (w : Word) (s : State) : State := endError .badOpcode 0 w 0 s

/-- What an ABORT does to the outputs of the running command (R193, R152). -/
def abortOutputs (i : Instr) (s : State) : State :=
  match familyOf i with
  | .control => s
  | .bitVector => setBvResult 0 s
  | .transform => setMaxAbs 0 (unspecifyBuf (bufSpan s) s)
  | .analyzer => clobberBuffer (zeroSlots (slotsOf i s.regs.sel) s)

/-- ABORT of the command word `w` that is running (R193). -/
def abortCommand (w : Word) (s : State) : State :=
  endError .aborted 0 0 0 (match commandOf w with
    | some i => abortOutputs i s
    | none => s)

/-- The end of a command (R192): its rule's outcome becomes the step's outcome. `r` is the state with the command's
outputs written, or why the rule stopped. -/
def endCommand (i : Instr) (s : State) (r : Except CmdStop State) : Host.Outcome State Fault Refusal :=
  match r with
  | .ok t => .next (endOk t)
  | .error (.error e) => .next (raiseError i e s)
  | .error (.unwritten off) => .fault (.unwrittenRead off)

end Sys2Proof.Machine
end

