-- ==== Sys2Proof/WellFormed.lean ====
section
/-! DEFINITION. Well-formedness of the terms of the syntax and of the part's parameters, as Bools. -/

namespace Sys2Proof

/-- A command has no operand field, so every command is well formed (R100, R104). -/
def Instr.wf (_ : Instr) : Bool := true

/-- A legal part: NMAX in [1, 16] and MMAX in [1, 32] (R8), ENGINE_BASE a multiple of 0x100000 (R70). -/
def Config.Part.wf (p : Config.Part) : Bool :=
  decide (1 ≤ p.nmax) && decide (p.nmax ≤ 16) && decide (1 ≤ p.mmax) && decide (p.mmax ≤ 32) &&
    decide (p.base % 0x100000 = 0)

/-- An access the host may make (R75): 32 bits wide, inside the aperture, at an offset that is a multiple of 4. -/
def Access.wf (p : Config.Part) : Access → Bool
  | .read a sz => decide (sz = .word) && decide (p.base ≤ a) && decide (a < p.base + 0xC0000) &&
      decide ((a - p.base) % 4 = 0)
  | .write a sz _ => decide (sz = .word) && decide (p.base ≤ a) && decide (a < p.base + 0xC0000) &&
      decide ((a - p.base) % 4 = 0)

/-- An event is well formed when its access is. -/
def BusEvent.wf (p : Config.Part) : BusEvent → Bool
  | .access a => a.wf p
  | .engine => true
  | .reset => true

end Sys2Proof
end

