-- ==== Sys2Proof/Machine/Bus.lean ====
section
/-! DEFINITION. The host's side: the aperture's address decode (R22, R71, R72), its reads (R78) and writes (R79, R80),
CTRL (R26, R191 to R195), and reset (R240, R241). -/

namespace Sys2Proof.Machine

/-- The slot register at an offset of 0x080 to 0x0DC: slot number `k`, field at `f` bytes (R40). -/
def slotTarget (k f : Nat) : Target :=
  match allMetrics[k]?, f with
  | some m, 0x0 => .slot m .num
  | some m, 0x4 => .slot m .den
  | some m, 0x8 => .slot m .aux
  | some m, 0xC => .slot m .valid
  | _, _ => .unmapped

/-- The register block (R22, R39). -/
def registerTarget (off : Nat) : Target :=
  match off with
  | 0x000 => .reg .id
  | 0x004 => .reg .cfg
  | 0x008 => .reg .ctrl
  | 0x00C => .reg .status
  | 0x010 => .reg .cmd
  | 0x014 => .reg .nLog
  | 0x018 => .reg .mBits
  | 0x01C => .reg .tblLen
  | 0x020 => .reg .mask
  | 0x024 => .reg .opa
  | 0x028 => .reg .opb
  | 0x02C => .reg .sel
  | 0x030 => .reg .irqEn
  | 0x034 => .reg .errExp
  | 0x038 => .reg .errAct
  | 0x03C => .reg .errIdx
  | 0x040 => .reg .bvResult
  | 0x044 => .reg .whtMaxAbs
  | _ => if 0x080 ≤ off ∧ off < 0x0E0 then slotTarget ((off - 0x080) / 0x10) ((off - 0x080) % 0x10) else .unmapped

/-- What an aperture offset selects: the register block, the SBOX window, the BUF window (R70 to R72). -/
def targetOf (nmax off : Nat) : Target :=
  if off < 0x40000 then registerTarget off
  else if off < 0x80000 then
    (if (off - 0x40000) / 4 < 2 ^ nmax then .sbox ((off - 0x40000) / 4) else .unmapped)
  else if off < 0xC0000 then
    (if (off - 0x80000) / 4 < 2 ^ nmax then .buf ((off - 0x80000) / 4) else .unmapped)
  else .unmapped

/-- `ID` (R24): "WH", version 1.0. -/
def idWord : Word := 0x57480100

/-- `CFG` (R25): NMAX in 5:0, MMAX in 13:8, the other bits 0. -/
def cfgWord (p : Config.Part) : Word := (0#18) ++ BitVec.ofNat 6 p.mmax ++ (0#2) ++ BitVec.ofNat 6 p.nmax

/-- What a host read gives: a value, an UNSPECIFIED value (R16), or the model's fault at an unwritten entry (R46). -/
inductive ReadResult where
  | value (v : Word)
  | unspecified
  | unwritten (offset : Nat)
deriving DecidableEq, Repr

/-- A command of the given family is running. -/
def familyRunning (f : Family) (s : State) : Bool :=
  match runningCommand s with
  | some i => decide (familyOf i = f)
  | none => false

/-- A named register as the host reads it (R24 to R38, R78). BV_RESULT and WHT_MAXABS are UNSPECIFIED while a command
that writes them runs (R37, R38, I9, A9). -/
def readReg (s : State) : RegName → ReadResult
  | .id => .value idWord
  | .cfg => .value (cfgWord s.part)
  | .ctrl => .value 0
  | .status => .value (statusWord s)
  | .cmd => .value s.regs.cmd
  | .nLog => .value s.regs.nLog
  | .mBits => .value s.regs.mBits
  | .tblLen => .value s.regs.tblLen
  | .mask => .value s.regs.mask
  | .opa => .value s.regs.opa
  | .opb => .value s.regs.opb
  | .sel => .value s.regs.sel
  | .irqEn => .value (s.irqEn.setWidth 32)
  | .errExp => .value s.errCtx.exp
  | .errAct => .value s.errCtx.act
  | .errIdx => .value s.errCtx.idx
  | .bvResult => if familyRunning .bitVector s then .unspecified else .value s.bvResult
  | .whtMaxAbs =>
    if familyRunning .transform s || familyRunning .analyzer s then .unspecified else .value s.whtMaxAbs

/-- A slot register as the host reads it (R40). While the command that writes the slot runs, NUM, DEN and AUX are
UNSPECIFIED (R41, I10, A10); VALID is bit 0; AUX reads 0 in slots 0 to 4. -/
def readSlot (s : State) (k : Metric) (f : SlotField) : ReadResult :=
  match f with
  | .valid => .value (if (s.slots.get k).valid then 1 else 0)
  | .num => if k ∈ runningSlots s then .unspecified else .value (s.slots.get k).num
  | .den => if k ∈ runningSlots s then .unspecified else .value (s.slots.get k).den
  | .aux =>
    if k ∈ runningSlots s then .unspecified
    else if k = .bicSac then .value (s.slots.get k).aux
    else .value 0

/-- An entry of the S-box RAM or the WHT buffer as memory holds it. -/
def readEntry (s : State) (off : Nat) : ReadResult :=
  match s.mem.readWord off with
  | some w => .value w
  | none => .unwritten off

/-- A BUF entry (R78): the fault at an unwritten entry, and else UNSPECIFIED while a WHT-family or analyzer command
runs (A11). -/
def readBuf (s : State) (x : Nat) : ReadResult :=
  match readEntry s (bufOff x) with
  | .unwritten off => .unwritten off
  | r => if familyRunning .transform s || familyRunning .analyzer s then .unspecified else r

/-- What a host read of an aperture offset gives (R78). -/
def readTarget (s : State) : Target → ReadResult
  | .reg r => readReg s r
  | .slot k f => readSlot s k f
  | .sbox x => readEntry s (sboxOff x)
  | .buf x => readBuf s x
  | .unmapped => .value 0

/-- The host receives a value (A16). -/
def addReply (addr : Nat) (v : Word) (s : State) : State :=
  { s with replies := { addr := addr, value := v } :: s.replies }

/-- `MemRead(off, 4)` by the host (R78): the engine's state does not change; an UNSPECIFIED value is a free draw. -/
def busRead (addr off : Nat) (s : State) : Host.Outcome State Fault Refusal :=
  match readTarget s (targetOf s.part.nmax off) with
  | .value v => .next (addReply addr v s)
  | .unspecified => .next (addReply addr (Config.freeWord s.draws) { s with draws := s.draws + 1 })
  | .unwritten o => .fault (.unwrittenRead o)

/-- The registers that are locked while BUSY (R22, R23). -/
def isLocked : RegName → Bool
  | .cmd => true
  | .nLog => true
  | .mBits => true
  | .tblLen => true
  | .mask => true
  | .opa => true
  | .opb => true
  | .sel => true
  | .id => false
  | .cfg => false
  | .ctrl => false
  | .status => false
  | .irqEn => false
  | .errExp => false
  | .errAct => false
  | .errIdx => false
  | .bvResult => false
  | .whtMaxAbs => false

/-- The operand registers with the named one replaced, all 32 bits stored (R23, R28 to R34). A register that is not
an operand register leaves them as they are. -/
def OperandRegs.put (g : OperandRegs) (v : Word) : RegName → OperandRegs
  | .cmd => { g with cmd := v }
  | .nLog => { g with nLog := v }
  | .mBits => { g with mBits := v }
  | .tblLen => { g with tblLen := v }
  | .mask => { g with mask := v }
  | .opa => { g with opa := v }
  | .opb => { g with opb := v }
  | .sel => { g with sel := v }
  | .id => g
  | .cfg => g
  | .ctrl => g
  | .status => g
  | .irqEn => g
  | .errExp => g
  | .errAct => g
  | .errIdx => g
  | .bvResult => g
  | .whtMaxAbs => g

/-- An operand register written (R79). -/
def writeOperand (r : RegName) (v : Word) (s : State) : State := { s with regs := s.regs.put v r }

/-- IRQ_EN written: bits 1:0 stored, the others ignored (R35, R79). -/
def writeIrqEn (v : Word) (s : State) : State := { s with irqEn := v.extractLsb' 0 2 }

/-- CTRL written (R26, R191 to R195): ABORT (bit 1) before START (bit 0). -/
def writeCtrl (v : Word) (s : State) : State :=
  match s.phase with
  | .idle => if v.getLsbD 1 then s else if v.getLsbD 0 then startCommand s else s
  | .busy w => if v.getLsbD 1 then abortCommand w s else if v.getLsbD 0 then setAccErr s else s

/-- A write that is refused with ACCERR while BUSY (R80), and does `f` while IDLE. -/
def lockedWrite (f : State → State) (s : State) : State := if isBusy s then setAccErr s else f s

/-- A named register written (R79, R80). Read-only registers ignore the write. -/
def writeReg (r : RegName) (v : Word) (s : State) : State :=
  match r with
  | .ctrl => writeCtrl v s
  | .status => clearStatus v s
  | .irqEn => writeIrqEn v s
  | _ => if isLocked r then lockedWrite (writeOperand r v) s else s

/-- An entry of the S-box RAM or the WHT buffer written, and so marked written (R79, R46). -/
def writeEntry (off : Nat) (v : Word) (s : State) : State := { s with mem := s.mem.writeWords off [v] }

/-- `MemWrite(off, 4, v)` by the host (R79, R80). -/
def writeTarget (v : Word) (s : State) : Target → State
  | .reg r => writeReg r v s
  | .slot _ _ => s
  | .sbox x => lockedWrite (writeEntry (sboxOff x) v) s
  | .buf x => lockedWrite (writeEntry (bufOff x) v) s
  | .unmapped => s

/-- The write of an aperture offset. -/
def busWrite (off : Nat) (v : Word) (s : State) : State := writeTarget v s (targetOf s.part.nmax off)

/-- A host access (R70, R74, R75): outside the aperture it is the platform's (A8); a narrow, wide or misaligned one has
no move (A7); else the read or write of its offset. -/
def hostAccess (a : Access) (s : State) : Host.Outcome State Fault Refusal :=
  match a with
  | .read addr sz =>
    if ¬(s.part.base ≤ addr ∧ addr < s.part.base + 0xC0000) then .fault (.outsideAperture addr)
    else if ¬(sz = .word ∧ (addr - s.part.base) % 4 = 0) then .refused (.noMoveAccess addr)
    else busRead addr (addr - s.part.base) s
  | .write addr sz v =>
    if ¬(s.part.base ≤ addr ∧ addr < s.part.base + 0xC0000) then .fault (.outsideAperture addr)
    else if ¬(sz = .word ∧ (addr - s.part.base) % 4 = 0) then .refused (.noMoveAccess addr)
    else .next (busWrite (addr - s.part.base) v s)

/-- Reset (R240, R241): every piece of the engine's state at its reset value, a running command discarded. The part
stays the part, the host's pending events and replies are the host's, and the draws go on (A15). -/
def resetMachine (s : State) : State :=
  { State.resetFor s.part with draws := s.draws, inbox := s.inbox, replies := s.replies }

/-- The two host writes that run a command word, `wr CMD, w` and `wr CTRL, 1` (R107's `run`), and the next turn given
to the engine (A4). A running command is overridden. -/
def loadCommand (w : Word) (s : State) : State :=
  startCommand { s with regs := { s.regs with cmd := w }, inbox := .engine :: s.inbox }

end Sys2Proof.Machine
end

