-- ==== Sys2Proof/Machine/Operands.lean ====
section
/-! DEFINITION. The operand forms: the checked width n, the entry scans of the two memories, and the validation
procedure `CheckTable` (R104, R151, R211). -/

namespace Sys2Proof.Machine

/-- n = N_LOG (R29). -/
def opN (s : State) : Nat := s.regs.nLog.toNat

/-- m = M_BITS (R30). -/
def opM (s : State) : Nat := s.regs.mBits.toNat

/-- `raise Error(code, exp, act, idx)` (R13), the context narrowed to 32 bits (R210). -/
def stopWith {α : Type} (code : ErrCode) (exp act idx : Nat) : Except CmdStop α :=
  .error (.error { code := code, exp := BitVec.ofNat 32 exp, act := BitVec.ofNat 32 act, idx := BitVec.ofNat 32 idx })

/-- The check of n that every command using n makes (R29, R202), all 32 bits of N_LOG read. -/
def checkWidth (s : State) : Except CmdStop Unit :=
  if 1 ≤ opN s ∧ opN s ≤ s.part.nmax then .ok () else stopWith .param s.part.nmax (opN s) 0

/-- `L` is `2^j` for some j >= 0; L is a 32-bit value (R31, R203). -/
def isPowerOfTwo (l : Nat) : Bool := (List.range 32).any (fun j => decide (l = 2 ^ j))

/-- The entries at `off x`, `off (x+1)`, ..., `k` of them, scanned in ascending order (R151, R134, R211): an unwritten
entry or the first one that `bad` objects to stops the scan. -/
def scanEntries (m : Memory) (off : Nat → Nat) (bad : Nat → Word → Option CmdError) :
    Nat → Nat → Except CmdStop (List Word)
  | _, 0 => .ok []
  | x, k + 1 =>
    match m.readWord (off x) with
    | none => .error (.unwritten (off x))
    | some w =>
      match bad x w with
      | some e => .error (.error e)
      | none =>
        match scanEntries m off bad (x + 1) k with
        | .ok ws => .ok (w :: ws)
        | .error e => .error e

/-- The DOMAIN check of entry x against m (R151, R205). -/
def domainError (m x : Nat) (w : Word) : Option CmdError :=
  if 2 ^ m ≤ w.toNat then
    some { code := .domain, exp := BitVec.ofNat 32 (2 ^ m - 1), act := w, idx := BitVec.ofNat 32 x }
  else none

/-- The NOT_BOOLEAN check of entry x (R134, R207). -/
def booleanError (x : Nat) (w : Word) : Option CmdError :=
  if w = 0 ∨ w = 1 then none
  else some { code := .notBoolean, exp := 1, act := w, idx := BitVec.ofNat 32 x }

/-- `CheckTable(K)` (R151): the checks in their order, and the table `SBOX[0 .. 2^n - 1]` when all pass. -/
def checkTable (ks : List Metric) (s : State) : Except CmdStop (List Nat) :=
  let n := opN s
  let m := opM s
  let len := s.regs.tblLen.toNat
  match checkWidth s with
  | .error e => .error e
  | .ok () =>
    if ¬(1 ≤ m ∧ m ≤ s.part.mmax) then stopWith .param s.part.mmax m 1
    else if isPowerOfTwo len = false then stopWith .lenNotPow2 (2 ^ n) len 0
    else if len ≠ 2 ^ n then stopWith .lenMismatch (2 ^ n) len 0
    else if Metric.bicNl ∈ ks ∧ n < 2 then stopWith .degenerate 2 n 4
    else if Metric.bicSac ∈ ks ∧ 2 ^ n < 256 then stopWith .degenerate 256 (2 ^ n) 5
    else
      match scanEntries s.mem sboxOff (domainError m) 0 (2 ^ n) with
      | .ok ws => .ok (ws.map BitVec.toNat)
      | .error e => .error e

end Sys2Proof.Machine
end

