-- ==== Sys2Proof/Machine/Wht.lean ====
section
/-! DEFINITION. The Walsh-Hadamard transform: the butterfly (R130) and the three commands of 41_wht.md. -/

namespace Sys2Proof.Machine

/-- One stage of R130 on `blocks` blocks of size 2h: in each block the pair (a, b) at offsets k and k+h, k < h,
becomes (a+b, a-b). Entries past the blocks are kept. -/
def butterflyBlocks (h : Nat) : Nat → List Int → List Int
  | 0, l => l
  | blocks + 1, l =>
    let lower := l.take h
    let upper := (l.drop h).take h
    List.zipWith (· + ·) lower upper ++ List.zipWith (· - ·) lower upper ++
      butterflyBlocks h blocks (l.drop (2 * h))

/-- Stage i of a transform of width n: 2^(n-1-i) blocks of size 2^(i+1) (R130). -/
def butterflyStage (n i : Nat) (l : List Int) : List Int := butterflyBlocks (2 ^ i) (2 ^ (n - 1 - i)) l

/-- `Butterfly(n)` (R130): the stages 0 .. n-1 in increasing order. -/
def butterfly (n : Nat) (l : List Int) : List Int :=
  (List.range n).foldl (fun l i => butterflyStage n i l) l

/-- A value of the signed 32-bit range (R11, R135). -/
def fitsSigned (v : Int) : Bool := decide (-(2 ^ 31) ≤ v) && decide (v ≤ 2 ^ 31 - 1)

/-- The stages i, i+1, ..., `k` of them, each checked: the answer is the result, or the lowest stage that wrote a
value outside the signed range (R135). -/
def checkedStages (n : Nat) : Nat → Nat → List Int → Except Nat (List Int)
  | _, 0, l => .ok l
  | i, k + 1, l =>
    let l' := butterflyStage n i l
    if l'.all fitsSigned then checkedStages n (i + 1) k l' else .error i

/-- `max over u of |W[u]|` (R139). -/
def maxAbs (l : List Int) : Nat := maxOf (l.map Int.natAbs)

/-- The ±1 encoding 0 → -1, 1 → +1 (R137). -/
def encodeSign (t : Nat) : Int := 2 * (t : Int) - 1

/-- A buffer entry as the 32-bit pattern of its signed value (R47, R72). -/
def patternOf (v : Int) : Word := BitVec.ofInt 32 v

/-- The spectrum `l` written to BUF[0 .. N-1] and its WHT_MAXABS (R134, R135, R136). -/
def writeSpectrum (l : List Int) (s : State) : State :=
  setMaxAbs (BitVec.ofNat 32 (maxAbs l)) { s with mem := s.mem.writeWords (bufOff 0) (l.map patternOf) }

/-- The rule of `WHT` (R134). -/
def whtRule (s : State) : Except CmdStop State :=
  match checkWidth s with
  | .error e => .error e
  | .ok () =>
    match scanEntries s.mem bufOff booleanError 0 (2 ^ opN s) with
    | .error e => .error e
    | .ok ws => .ok (writeSpectrum (butterfly (opN s) (ws.map (fun w => encodeSign w.toNat))) s)

/-- `WHT` (R134): the spectrum of the 0/1 table in the buffer. -/
def execWht (s : State) : Host.Outcome State Fault Refusal := endCommand .wht s (whtRule s)

/-- The rule of `WHT_RAW` (R135). -/
def whtRawRule (s : State) : Except CmdStop State :=
  match checkWidth s with
  | .error e => .error e
  | .ok () =>
    match scanEntries s.mem bufOff (fun _ _ => none) 0 (2 ^ opN s) with
    | .error e => .error e
    | .ok ws =>
      match checkedStages (opN s) 0 (opN s) (ws.map BitVec.toInt) with
      | .error i => stopWith .overflow 0 0 i
      | .ok l => .ok (writeSpectrum l s)

/-- `WHT_RAW` (R135): the butterfly alone, with the overflow check. -/
def execWhtRaw (s : State) : Host.Outcome State Fault Refusal := endCommand .whtRaw s (whtRawRule s)

/-- The component function `parity(S[x] & c)` of a table (R15, R136). -/
def component (c : Nat) (table : List Nat) : List Nat := table.map (fun v => parity (v &&& c))

/-- The spectrum of a 0/1 table (R134, R153). -/
def spectrum (n : Nat) (t : List Nat) : List Int := butterfly n (t.map encodeSign)

/-- The rule of `WHT_COMP` (R136). -/
def whtCompRule (s : State) : Except CmdStop State :=
  match checkTable [] s with
  | .error e => .error e
  | .ok table => .ok (writeSpectrum (spectrum (opN s) (component s.regs.mask.toNat table)) s)

/-- `WHT_COMP` (R136): the spectrum of an S-box component function. -/
def execWhtComp (s : State) : Host.Outcome State Fault Refusal := endCommand .whtComp s (whtCompRule s)

end Sys2Proof.Machine
end

