-- ==== Sys2Proof/Machine/Analyzers.lean ====
section
/-! DEFINITION. The six metrics by PK's brute-force definitions (R153 to R173, R178) and the analyzer commands of
42_analyzers.md. Tables are lists of N = 2^n numbers; S[x] is the entry x. -/

namespace Sys2Proof.Machine

/-- `Dist(t)` (R153): 2^(n-1) - max/2, index 0 included in the maximum. -/
def nlDistance (n : Nat) (t : List Nat) : Nat := 2 ^ (n - 1) - maxAbs (spectrum n t) / 2

/-- The NL value (R160): the least distance over the output bits b < m, starting from 2^(n-1). -/
def nlValue (n m : Nat) (table : List Nat) : Nat :=
  (List.range m).foldl (fun best b => min best (nlDistance n (table.map (fun v => bitOf v b)))) (2 ^ (n - 1))

/-- The SAC total (R163): popcount(S[x] ^ S[x ^ (1 << i)]) over all x and all i < n. -/
def sacTotal (n : Nat) (table : List Nat) : Nat :=
  ((List.range (2 ^ n)).map (fun x =>
    ((List.range n).map (fun i => popcount (table.getD x 0 ^^^ table.getD (x ^^^ 2 ^ i) 0))).sum)).sum

/-- The masks or differences 1 .. N-1 (R166, R168). -/
def nonzeroBelow (n : Nat) : List Nat := (List.range (2 ^ n)).tail

/-- How many x < N have parity(x & a) = parity(S[x] & b) (R166). -/
def agreements (n : Nat) (table : List Nat) (a b : Nat) : Nat :=
  (List.range (2 ^ n)).countP (fun x => decide (parity (x &&& a) = parity (table.getD x 0 &&& b)))

/-- |agr - 2^(n-1)| (R166). -/
def absDiff (a b : Nat) : Nat := (a - b) + (b - a)

/-- The LAP value (R166): the largest |agr - 2^(n-1)| over nonzero masks a, b < N. -/
def lapBest (n : Nat) (table : List Nat) : Nat :=
  maxOf ((nonzeroBelow n).map (fun a =>
    maxOf ((nonzeroBelow n).map (fun b => absDiff (agreements n table a b) (2 ^ (n - 1))))))

/-- How many x < N have S[x ^ dx] ^ S[x] = dy (R168). -/
def diffCount (n : Nat) (table : List Nat) (dx dy : Nat) : Nat :=
  (List.range (2 ^ n)).countP (fun x => decide (table.getD (x ^^^ dx) 0 ^^^ table.getD x 0 = dy))

/-- The DAP value (R168): the largest count over nonzero differences dx, dy < N. -/
def dapBest (n : Nat) (table : List Nat) : Nat :=
  maxOf ((nonzeroBelow n).map (fun dx => maxOf ((nonzeroBelow n).map (fun dy => diffCount n table dx dy))))

/-- The pairs (b1, b2) with b1 < b2 < k, in order (R170, R172). -/
def pairsBelow (k : Nat) : List (Nat × Nat) :=
  (List.range k).flatMap (fun b1 => ((List.range k).filter (fun b2 => decide (b1 < b2))).map (fun b2 => (b1, b2)))

/-- The BIC-NL sum (R170): Dist of bit b1 xor bit b2 over the pairs of positions below n. -/
def bicNlSum (n : Nat) (table : List Nat) : Nat :=
  ((pairsBelow n).map (fun p => nlDistance n (table.map (fun v => bitOf v p.1 ^^^ bitOf v p.2)))).sum

/-- One term of the BIC-SAC total (R172). -/
def bicSacTerm (y1 y2 i j : Nat) : Nat := (bitOf y1 i ^^^ bitOf y2 i) ^^^ (bitOf y1 j ^^^ bitOf y2 j)

/-- The BIC-SAC total (R172): 28 pairs of output bits, all x < N, 8 flip positions, whatever the S-box's width. -/
def bicSacTotal (n : Nat) (table : List Nat) : Nat :=
  ((pairsBelow 8).map (fun p =>
    ((List.range (2 ^ n)).map (fun x =>
      ((List.range 8).map (fun f =>
        bicSacTerm (table.getD x 0) (table.getD (x ^^^ 2 ^ f) 0) p.1 p.2)).sum)).sum)).sum

/-- A result slot with its three numbers and VALID = 1 (R40, R41). -/
def resultSlot (num den aux : Nat) : Slot :=
  { num := BitVec.ofNat 32 num, den := BitVec.ofNat 32 den, aux := BitVec.ofNat 32 aux, valid := true }

/-- The contents of a metric's slot (R154), for a table of width n and output width m. -/
def metricSlot (n m : Nat) (table : List Nat) : Metric → Slot
  | .nl => resultSlot (nlValue n m table) 1 0
  | .sac => resultSlot (sacTotal n table) (n * 2 ^ n * n) 0
  | .lap => resultSlot (lapBest n table) (2 ^ n) 0
  | .dap => resultSlot (dapBest n table) (2 ^ n) 0
  | .bicNl => resultSlot (bicNlSum n table) (n * (n - 1) / 2) 0
  | .bicSac =>
    resultSlot (bicSacTotal n table) (224 * 2 ^ n) (roundHalfEven (bicSacTotal n table * 100000) (224 * 2 ^ n))

/-- The results of the metrics `ks` written to their slots, and R152. -/
def writeResults (ks : List Metric) (table : List Nat) (s : State) : State :=
  clobberBuffer { s with slots := s.slots.setAll (metricSlot (opN s) (opM s) table) ks }

/-- The rule shared by the analyzers (R150): validate, compute, write the slots. -/
def analyzerRule (ks : List Metric) (s : State) : Except CmdStop State :=
  match checkTable ks s with
  | .error e => .error e
  | .ok table => .ok (writeResults ks table s)

/-- `NL` (R160). -/
def execNl (s : State) : Host.Outcome State Fault Refusal := endCommand .nl s (analyzerRule [.nl] s)

/-- `SAC` (R163). -/
def execSac (s : State) : Host.Outcome State Fault Refusal := endCommand .sac s (analyzerRule [.sac] s)

/-- `LAP` (R166). -/
def execLap (s : State) : Host.Outcome State Fault Refusal := endCommand .lap s (analyzerRule [.lap] s)

/-- `DAP` (R168). -/
def execDap (s : State) : Host.Outcome State Fault Refusal := endCommand .dap s (analyzerRule [.dap] s)

/-- `BICNL` (R170). -/
def execBicNl (s : State) : Host.Outcome State Fault Refusal := endCommand .bicNl s (analyzerRule [.bicNl] s)

/-- `BICSAC` (R172). -/
def execBicSac (s : State) : Host.Outcome State Fault Refusal := endCommand .bicSac s (analyzerRule [.bicSac] s)

/-- The rule of `RUNSEL` (R175): the reserved bits of SEL first; an empty selection ends at once with no check
(R152 holds of it too, A12); else all checks for all selected metrics before any computation. -/
def runSelRule (s : State) : Except CmdStop State :=
  if s.regs.sel.extractLsb' 6 26 ≠ 0 then stopWith .param 0x3F s.regs.sel.toNat 2
  else
    match selectedMetrics s.regs.sel with
    | [] => .ok (clobberBuffer s)
    | k :: ks => analyzerRule (k :: ks) s

/-- `RUNSEL` (R175). -/
def execRunSel (s : State) : Host.Outcome State Fault Refusal := endCommand .runSel s (runSelRule s)

end Sys2Proof.Machine
end

