-- ==== Sys2Proof/Machine/BitVector.lean ====
section
/-! DEFINITION. The bit-vector commands (40_bitvector.md). -/

namespace Sys2Proof.Machine

/-- The value of `BV_BIT` (R121): bit i of v, 0 when i >= 32. -/
def bvBitValue (v i : Nat) : Nat := if 32 ≤ i then 0 else bitOf v i

/-- `BV_BIT` (R121). -/
def execBvBit (s : State) : Host.Outcome State Fault Refusal :=
  endCommand .bvBit s (.ok (setBvResult (BitVec.ofNat 32 (bvBitValue s.regs.opa.toNat s.regs.opb.toNat)) s))

/-- `BV_PARITY` (R122); OPB is not read. -/
def execBvParity (s : State) : Host.Outcome State Fault Refusal :=
  endCommand .bvParity s (.ok (setBvResult (BitVec.ofNat 32 (parity s.regs.opa.toNat)) s))

/-- `BV_HAMMING` (R123). -/
def execBvHamming (s : State) : Host.Outcome State Fault Refusal :=
  endCommand .bvHamming s (.ok (setBvResult (BitVec.ofNat 32 (hamming s.regs.opa.toNat s.regs.opb.toNat)) s))

end Sys2Proof.Machine
end

