-- ==== Sys2Proof/Machine/Control.lean ====
section
/-! DEFINITION. The control command (43_control.md). -/

namespace Sys2Proof.Machine

/-- `NOP` (R196): nothing is read or written; the end step runs with no error. -/
def execNop (s : State) : Host.Outcome State Fault Refusal := endCommand .nop s (.ok s)

end Sys2Proof.Machine
end

