-- ==== Sys2Proof/Machine/Dispatch.lean ====
section
/-! DEFINITION. exec: the end-of-command step (R192) of each command, one arm per constructor. -/

namespace Sys2Proof.Machine

def exec (i : Instr) (s : State) : Host.Outcome State Fault Refusal :=
  match i with
  | .nop => Sys2Proof.Machine.execNop s
  | .bvBit => Sys2Proof.Machine.execBvBit s
  | .bvParity => Sys2Proof.Machine.execBvParity s
  | .bvHamming => Sys2Proof.Machine.execBvHamming s
  | .wht => Sys2Proof.Machine.execWht s
  | .whtRaw => Sys2Proof.Machine.execWhtRaw s
  | .whtComp => Sys2Proof.Machine.execWhtComp s
  | .nl => Sys2Proof.Machine.execNl s
  | .sac => Sys2Proof.Machine.execSac s
  | .lap => Sys2Proof.Machine.execLap s
  | .dap => Sys2Proof.Machine.execDap s
  | .bicNl => Sys2Proof.Machine.execBicNl s
  | .bicSac => Sys2Proof.Machine.execBicSac s
  | .runSel => Sys2Proof.Machine.execRunSel s

end Sys2Proof.Machine
end

