-- ==== Sys2Proof/Machine/Engine.lean ====
section
/-! DEFINITION. The engine's turn (R192, R102). -/

namespace Sys2Proof.Machine

/-- The engine's turn: while IDLE it waits (R242); while BUSY it ends the running command in one step (R192), as its
rule says, or with BAD_OPCODE when the command word is no command (R102). -/
def engineTurn (s : State) : Host.Outcome State Fault Refusal :=
  match s.phase with
  | .idle => .next s
  | .busy w =>
    match decodeCommand w with
    | .ok i => exec i s
    | .error _ => .next (raiseBadOpcode w s)

end Sys2Proof.Machine
end

