-- ==== Sys2Proof/Machine/Step.lean ====
section
/-! DEFINITION. One step: the oldest event of the inbox, or the engine's turn when there is none (A2). -/

namespace Sys2Proof.Machine

/-- One step of the machine (R83, R192, R198, R240). -/
def step (s : State) : Host.Outcome State Fault Refusal :=
  match s.inbox with
  | [] => engineTurn s
  | .engine :: rest => engineTurn { s with inbox := rest }
  | .access a :: rest => hostAccess a { s with inbox := rest }
  | .reset :: rest => .next (resetMachine { s with inbox := rest })

/-- `s` with the command word `w` loaded so that the very next step ends that command (A4). -/
def State.withFetchWord (s : State) (_nbits w : Nat) : State := loadCommand (BitVec.ofNat 32 w) s

end Sys2Proof.Machine
end

