-- ==== Sys2Proof/Machine/HostProgram.lean ====
section
/-! DEFINITION. Host programs (30_encoding.md section 4): the lines of R106 and the pseudo-instructions of R107 as
events of the inbox, for a part at ENGINE_BASE. -/

namespace Sys2Proof.Machine

/-- The offset of a named register (R22). -/
def regOffset : RegName → Nat
  | .id => 0x000
  | .cfg => 0x004
  | .ctrl => 0x008
  | .status => 0x00C
  | .cmd => 0x010
  | .nLog => 0x014
  | .mBits => 0x018
  | .tblLen => 0x01C
  | .mask => 0x020
  | .opa => 0x024
  | .opb => 0x028
  | .sel => 0x02C
  | .irqEn => 0x030
  | .errExp => 0x034
  | .errAct => 0x038
  | .errIdx => 0x03C
  | .bvResult => 0x040
  | .whtMaxAbs => 0x044

/-- The place of a field in its slot (R40). -/
def fieldOffset : SlotField → Nat
  | .num => 0x0
  | .den => 0x4
  | .aux => 0x8
  | .valid => 0xC

/-- The offset of a slot register (R40). -/
def slotOff (k : Metric) (f : SlotField) : Nat := 0x080 + 0x10 * slotIndex k + fieldOffset f

/-- A 32-bit write at an aperture offset. -/
def wrAt (p : Config.Part) (off : Nat) (v : Word) : BusEvent := .access (.write (p.base + off) .word v)

/-- A 32-bit read at an aperture offset. -/
def rdAt (p : Config.Part) (off : Nat) : BusEvent := .access (.read (p.base + off) .word)

/-- `wr NAME, v` (R106). -/
def wr (p : Config.Part) (r : RegName) (v : Word) : BusEvent := wrAt p (regOffset r) v

/-- `rd NAME -> t` (R106). -/
def rd (p : Config.Part) (r : RegName) : BusEvent := rdAt p (regOffset r)

/-- `run OP` (R107). -/
def hostRun (p : Config.Part) (i : Instr) : List BusEvent := [wr p .cmd (encode i), wr p .ctrl 1]

/-- `wait` (R107) as it happens when `polls` reads of STATUS come before the command ends: they read BUSY, the engine
takes its turn, and the last read sees the end. Every `polls` is possible (R198). -/
def hostWait (p : Config.Part) (polls : Nat) : List BusEvent :=
  List.replicate polls (rd p .status) ++ [.engine, rd p .status]

/-- `runw OP` (R107). -/
def hostRunw (p : Config.Part) (i : Instr) (polls : Nat) : List BusEvent := hostRun p i ++ hostWait p polls

/-- `clr` (R107): clears DONE, ERR, ACCERR. -/
def hostClr (p : Config.Part) : List BusEvent := [wr p .status 0xE]

/-- `abort` (R107). -/
def hostAbort (p : Config.Part) : List BusEvent := [wr p .ctrl 2]

/-- `load v0, ..., v(k-1)` (R107): the entries in order, then TBL_LEN. -/
def hostLoad (p : Config.Part) (vs : List Word) : List BusEvent :=
  (vs.mapIdx (fun x v => wrAt p (sboxOff x) v)) ++ [wr p .tblLen (BitVec.ofNat 32 vs.length)]

/-- `params n, m` (R107). -/
def hostParams (p : Config.Part) (n m : Word) : List BusEvent := [wr p .nLog n, wr p .mBits m]

end Sys2Proof.Machine
end

