-- ==== Sys2Proof/Safety.lean ====
section
/-! DEFINITION. The terms the claims use: legal operands, what a command's end leaves, the mathematics of the
spectrum and the metrics, and the invariant of the machine. -/

namespace Sys2Proof.Machine

/-! ### Legal operands (R29, R30, R31, R151, R243) -/

/-- N_LOG is a width this part accepts (R29, R202). -/
def LegalWidth (s : State) : Prop := 1 ≤ opN s ∧ opN s ≤ s.part.nmax

/-- M_BITS is a width this part accepts (R30, R202). -/
def LegalOutputWidth (s : State) : Prop := 1 ≤ opM s ∧ opM s ≤ s.part.mmax

/-- The scalar operands of a command that reads the S-box are legal: n, m and TBL_LEN = 2^n (R151). -/
def LegalScalars (s : State) : Prop :=
  LegalWidth s ∧ LegalOutputWidth s ∧ s.regs.tblLen.toNat = 2 ^ opN s

/-- The S-box RAM holds the table `S` at 0 .. N-1, every entry below 2^m (R243 step 2). -/
def SboxHolds (s : State) (S : Nat → Nat) : Prop :=
  ∀ x < 2 ^ opN s, s.mem.readWord (sboxOff x) = some (BitVec.ofNat 32 (S x)) ∧ S x < 2 ^ opM s

/-- The WHT buffer holds the signed values `F` at 0 .. N-1 (R243 step 3). -/
def BufHolds (s : State) (F : Nat → Int) : Prop :=
  ∀ x < 2 ^ opN s, ∃ w, s.mem.readWord (bufOff x) = some w ∧ w.toInt = F x

/-- The WHT buffer holds the 0/1 table `t` at 0 .. N-1 (R134). -/
def BufHoldsBits (s : State) (t : Nat → Nat) : Prop :=
  ∀ x < 2 ^ opN s, s.mem.readWord (bufOff x) = some (BitVec.ofNat 32 (t x)) ∧ t x ≤ 1

/-- A command that runs `CheckTable` (R151): WHT_COMP, a single analyzer, or RUNSEL with a legal, non-empty SEL. -/
def ChecksTable (i : Instr) (sel : Word) : Prop :=
  match i with
  | .whtComp => True
  | .nl => True
  | .sac => True
  | .lap => True
  | .dap => True
  | .bicNl => True
  | .bicSac => True
  | .runSel => sel.extractLsb' 6 26 = 0 ∧ sel ≠ 0
  | .nop => False
  | .bvBit => False
  | .bvParity => False
  | .bvHamming => False
  | .wht => False
  | .whtRaw => False

/-- A command that checks N_LOG (R29). -/
def ChecksWidth (i : Instr) (sel : Word) : Prop := i = .wht ∨ i = .whtRaw ∨ ChecksTable i sel

/-- No metric of the list is degenerate at width n (R206). -/
def NotDegenerate (ks : List Metric) (n : Nat) : Prop :=
  (Metric.bicNl ∈ ks → 2 ≤ n) ∧ (Metric.bicSac ∈ ks → 256 ≤ 2 ^ n)

/-- The opcodes of the map (R101). -/
def legalOpcodes : List (BitVec 8) :=
  [0x00, 0x01, 0x02, 0x03, 0x10, 0x11, 0x12, 0x20, 0x21, 0x22, 0x23, 0x24, 0x25, 0x2F]

/-- The opcode of the single command of a metric (R101). -/
def metricOpcode : Metric → BitVec 8
  | .nl => 0x20
  | .sac => 0x21
  | .lap => 0x22
  | .dap => 0x23
  | .bicNl => 0x24
  | .bicSac => 0x25

/-- `k` is in `Slots(c)` of R191: the reserved bits are zero and the opcode is that of metric k, or RUNSEL with SEL[k]. -/
def InSlotsOf (c sel : Word) (k : Metric) : Prop :=
  c.extractLsb' 8 24 = 0 ∧
    (c.extractLsb' 0 8 = metricOpcode k ∨ (c.extractLsb' 0 8 = 0x2F ∧ sel.getLsbD (slotIndex k) = true))

/-- The registers that are locked while busy, CMD to SEL: each with its offset (R22), its value and its update. -/
def operandRegisters : List (Nat × (OperandRegs → Word) × (OperandRegs → Word → OperandRegs)) :=
  [(0x010, fun g => g.cmd, fun g v => { g with cmd := v }),
    (0x014, fun g => g.nLog, fun g v => { g with nLog := v }),
    (0x018, fun g => g.mBits, fun g v => { g with mBits := v }),
    (0x01C, fun g => g.tblLen, fun g v => { g with tblLen := v }),
    (0x020, fun g => g.mask, fun g v => { g with mask := v }),
    (0x024, fun g => g.opa, fun g v => { g with opa := v }),
    (0x028, fun g => g.opb, fun g v => { g with opb := v }),
    (0x02C, fun g => g.sel, fun g v => { g with sel := v })]

/-- The offset of a metric's slot: slot k is at 0x080 + 0x10 k (R40). -/
def slotBase : Metric → Nat
  | .nl => 0x080
  | .sac => 0x090
  | .lap => 0x0A0
  | .dap => 0x0B0
  | .bicNl => 0x0C0
  | .bicSac => 0x0D0

/-! ### What is running -/

/-- A command of family `f` is running. A word that is no command counts as none (A14). -/
def FamilyRuns (s : State) (f : Family) : Prop :=
  ∃ w i, s.phase = .busy w ∧ decodeCommand w = .ok i ∧ familyOf i = f

/-- The running command writes slot k (R191). -/
def SlotRuns (s : State) (k : Metric) : Prop := ∃ w, s.phase = .busy w ∧ InSlotsOf w s.regs.sel k

/-- The next step is the engine's, at the state `t`: `s` with an engine event, if one is first, taken off the inbox. -/
def EngineIsNext (s t : State) : Prop :=
  s.inbox = [] ∧ t = s ∨ ∃ rest, s.inbox = .engine :: rest ∧ t = { s with inbox := rest }

/-! ### What a step leaves -/

/-- Every byte of memory reads as before. -/
def SameMemory (s t : State) : Prop := ∀ a, t.mem.readByte a = s.mem.readByte a

/-- Every byte of memory outside BUF[0 .. k-1] reads as before. -/
def SameMemoryButBuf (k : Nat) (s t : State) : Prop :=
  ∀ a, ¬(bufOff 0 ≤ a ∧ a < bufOff k) → t.mem.readByte a = s.mem.readByte a

/-- Every slot but those of `ks` is as before. -/
def SameSlotsBut (ks : List Metric) (s t : State) : Prop := ∀ k, k ∉ ks → t.slots.get k = s.slots.get k

/-- What no command touches: the part, the operand registers, IRQ_EN, ACCERR, and the host's side. -/
def CommandFrame (s t : State) : Prop :=
  t.part = s.part ∧ t.regs = s.regs ∧ t.irqEn = s.irqEn ∧ t.flags.accErr = s.flags.accErr ∧
    t.inbox = s.inbox ∧ t.replies = s.replies

/-- The end of a command without error (R192): IDLE, DONE, ERRCODE 0, the rest of STATUS and ERR_* as they were. -/
def EndedWithoutError (s t : State) : Prop :=
  t.phase = .idle ∧ t.flags.done = true ∧ t.flags.errCode = .none ∧ t.flags.err = s.flags.err ∧ t.errCtx = s.errCtx

/-- The end of a command with an error (R192, R210): IDLE, DONE, ERR, its code and its context. -/
def EndedWithError (code : ErrCode) (exp act idx : Nat) (t : State) : Prop :=
  t.phase = .idle ∧ t.flags.done = true ∧ t.flags.err = true ∧ t.flags.errCode = code ∧
    t.errCtx = { exp := BitVec.ofNat 32 exp, act := BitVec.ofNat 32 act, idx := BitVec.ofNat 32 idx }

/-- BUF[0 .. k-1] holds some values: UNSPECIFIED and counted as written (R152, I11 to I13). -/
def BufWritten (k : Nat) (t : State) : Prop := ∀ x < k, ∃ w, t.mem.readWord (bufOff x) = some w

/-- The outputs of a command after an error other than OVERFLOW (R210): its slots are zero and invalid, the other slots
as before; a WHT-family command leaves WHT_MAXABS 0 and the buffer as it was; an analyzer leaves the buffer UNSPECIFIED
and every other byte as it was; every other command changes no output. -/
def ErrorOutputs (i : Instr) (s t : State) : Prop :=
  (∀ k ∈ slotsOf i s.regs.sel, t.slots.get k = Slot.zero) ∧
  SameSlotsBut (slotsOf i s.regs.sel) s t ∧
  t.bvResult = s.bvResult ∧
  (familyOf i = .transform → t.whtMaxAbs = 0 ∧ SameMemory s t) ∧
  (familyOf i = .analyzer → SameMemoryButBuf (2 ^ s.part.nmax) s t ∧ BufWritten (2 ^ s.part.nmax) t) ∧
  (familyOf i = .control ∨ familyOf i = .bitVector → t.whtMaxAbs = s.whtMaxAbs ∧ SameMemory s t)

/-- Command `i` at `s` ended with an error other than OVERFLOW, and `t` is what that leaves (R192, R210). -/
def ErrorEnd (i : Instr) (code : ErrCode) (exp act idx : Nat) (s t : State) : Prop :=
  CommandFrame s t ∧ EndedWithError code exp act idx t ∧ ErrorOutputs i s t

/-- The end of a bit-vector command or a NOP apart from BV_RESULT: nothing but STATUS and the phase changes. -/
def NoOtherOutput (s t : State) : Prop :=
  CommandFrame s t ∧ EndedWithoutError s t ∧ t.slots = s.slots ∧ t.whtMaxAbs = s.whtMaxAbs ∧ SameMemory s t

/-- The end of a WHT-family command without error, apart from what BUF[0 .. N-1] and WHT_MAXABS hold. -/
def TransformEnd (s t : State) : Prop :=
  CommandFrame s t ∧ EndedWithoutError s t ∧ t.slots = s.slots ∧ t.bvResult = s.bvResult ∧
    SameMemoryButBuf (2 ^ opN s) s t

/-- The end of an analyzer command without error, apart from what the slots of `ks` hold: the S-box RAM as before,
every BUF entry UNSPECIFIED and written (R152). -/
def AnalyzerEnd (ks : List Metric) (s t : State) : Prop :=
  CommandFrame s t ∧ EndedWithoutError s t ∧ SameSlotsBut ks s t ∧ t.bvResult = s.bvResult ∧
    SameMemoryButBuf (2 ^ s.part.nmax) s t ∧ BufWritten (2 ^ s.part.nmax) t

/-- The slot holds NUM, DEN and AUX as numbers, and is valid (R40). -/
def SlotHolds (sl : Slot) (num den aux : Nat) : Prop :=
  sl.num.toNat = num ∧ sl.den.toNat = den ∧ sl.aux.toNat = aux ∧ sl.valid = true

/-! ### The mathematics of 41_wht.md and 42_analyzers.md -/

/-- The closed form of the spectrum (R131): the sum over x < 2^n of F(x) (-1)^popcount(u & x). -/
def walshSum (n : Nat) (F : Nat → Int) (u : Nat) : Int :=
  ∑ x ∈ Finset.range (2 ^ n), F x * (-1) ^ popcount (u &&& x)

/-- The value at x after the stages 0 .. k-1 of R130: the closed form inside x's block of size 2^k. -/
def walshPartial (k : Nat) (F : Nat → Int) (x : Nat) : Int :=
  ∑ z ∈ Finset.range (2 ^ k), F (2 ^ k * (x / 2 ^ k) + z) * (-1) ^ popcount ((x % 2 ^ k) &&& z)

/-- PK's ±1 encoding of a 0/1 function: 0 → -1, 1 → +1 (R137). -/
def plusMinus (t : Nat → Nat) (x : Nat) : Int := 2 * (t x : Int) - 1

/-- The largest |W(u)| over u < 2^n, index 0 included (R139). -/
def spectrumMax (n : Nat) (F : Nat → Int) : Nat := (Finset.range (2 ^ n)).sup (fun u => (walshSum n F u).natAbs)

/-- `Dist` of a 0/1 function (R153). -/
def distanceOf (n : Nat) (t : Nat → Nat) : Nat := 2 ^ (n - 1) - spectrumMax n (plusMinus t) / 2

/-- How many x < 2^n satisfy p. -/
def countBelow (n : Nat) (p : Nat → Prop) [DecidablePred p] : Nat := ((Finset.range (2 ^ n)).filter p).card

/-- `r` is the best value of `f` over the pairs of nonzero masks or differences below 2^n (R166, R168). -/
def IsBestOverPairs (n : Nat) (f : Nat → Nat → Nat) (r : Nat) : Prop :=
  (∀ a b, 1 ≤ a → a < 2 ^ n → 1 ≤ b → b < 2 ^ n → f a b ≤ r) ∧
    ∃ a b, 1 ≤ a ∧ a < 2 ^ n ∧ 1 ≤ b ∧ b < 2 ^ n ∧ f a b = r

/-- `RoundHalfEven(q)` is r (R173): |q - r| < 1/2, or q halfway and r even. -/
def IsRoundHalfEven (q : ℚ) (r : Nat) : Prop := |q - r| < 1 / 2 ∨ (|q - r| = 1 / 2 ∧ Even r)

/-- Signed 32-bit range (R11). -/
def InSignedRange (v : Int) : Prop := -(2 ^ 31) ≤ v ∧ v ≤ 2 ^ 31 - 1

/-! ### Host accesses -/

/-- The oldest event of the inbox is a 32-bit read of the aperture offset `off`, then `rest`. -/
def NextIsRead (s : State) (off : Nat) (rest : List BusEvent) : Prop :=
  s.inbox = .access (.read (s.part.base + off) .word) :: rest

/-- The oldest event of the inbox is a 32-bit write of `v` at the aperture offset `off`, then `rest`. -/
def NextIsWrite (s : State) (off : Nat) (v : Word) (rest : List BusEvent) : Prop :=
  s.inbox = .access (.write (s.part.base + off) .word v) :: rest

/-- `step` performed the access and only took its event off the inbox (a write that changes nothing). -/
def OnlyConsumed (s : State) (rest : List BusEvent) : Prop := step s = .next { s with inbox := rest }

/-- `step` performed the read of offset `off`: it only took the event off and delivered `v`. -/
def Delivers (s : State) (off : Nat) (v : Word) (rest : List BusEvent) : Prop :=
  step s = .next { s with inbox := rest, replies := { addr := s.part.base + off, value := v } :: s.replies }

/-! ### The invariant -/

/-- What holds of the machine in every state a run can reach (R23, R27, R40, R41, R46, R191, R253). -/
structure Inv (s : State) : Prop where
  /-- The part is legal (R8, R70). -/
  part_wf : s.part.wf = true
  /-- Memory is in canonical form. -/
  mem_wf : s.mem.wf
  /-- Every listed byte belongs to an entry of a window (R72). -/
  mem_mapped : ∀ c ∈ s.mem, (sboxOff 0 ≤ c.1 ∧ c.1 < sboxOff (2 ^ s.part.nmax)) ∨
    (bufOff 0 ≤ c.1 ∧ c.1 < bufOff (2 ^ s.part.nmax))
  /-- Entries are written whole (R75, R77): a listed byte's word is readable. -/
  mem_whole : ∀ c ∈ s.mem, (s.mem.readWord (c.1 - c.1 % 4)).isSome = true
  /-- A valid slot has a nonzero DEN (R40). -/
  slot_den : ∀ k, (s.slots.get k).valid = true → (s.slots.get k).den ≠ 0
  /-- A slot the running command will write is not valid (R41). -/
  slot_running : ∀ k ∈ runningSlots s, (s.slots.get k).valid = false
  /-- AUX is 0 in slots 0 to 4, but for a slot whose command is running (R40, R41). -/
  slot_aux : ∀ k, k ≠ .bicSac → k ∉ runningSlots s → (s.slots.get k).aux = 0
  /-- While BUSY, DONE, ERR and ERRCODE are clear: no stale completion (R191, R253). -/
  busy_clear : isBusy s = true → s.flags.done = false ∧ s.flags.err = false ∧ s.flags.errCode = .none
  /-- With ERRCODE 0 there is no ERR and no error context (R36, R192). -/
  no_error : s.flags.errCode = .none → s.flags.err = false ∧ s.errCtx = { exp := 0, act := 0, idx := 0 }

end Sys2Proof.Machine
end

