-- ==== Sys2Proof/Certificates/Slice0/Obligations.lean ====
section
/-! DEFINITION. The statements for the provers. Each docstring names the rule or section of spec/ it formalises. -/

open Sys2Proof Sys2Proof.Machine

/-! ### Encoding (30_encoding.md) -/

/-- Command words and bytes written out from R100, R101 and R76 decode to the commands they stand for. -/
def Obligations.DecodedWords : Prop :=
  decodeCommand 0b00000000000000000000000000000000#32 = .ok .nop ∧
  decodeCommand 0b00000000000000000000000000000011#32 = .ok .bvHamming ∧
  decodeCommand 0b00000000000000000000000000010001#32 = .ok .whtRaw ∧
  decodeCommand 0b00000000000000000000000000100011#32 = .ok .dap ∧
  decodeCommand 0b00000000000000000000000000101111#32 = .ok .runSel ∧
  decodeBytes [0x12#8, 0x00#8, 0x00#8, 0x00#8] = .ok (.whtComp, [])

/-- R101: a command word selects the row whose op equals CMD[7:0], provided CMD[31:8] = 0, and is of that row's family. -/
def Obligations.OpcodeMap : Prop :=
  ∀ (w : Word) (i : Instr), decodeCommand w = .ok i ↔
    w.extractLsb' 8 24 = 0 ∧
      (w.extractLsb' 0 8, i, familyOf i) ∈
        ([(0x00#8, .nop, .control), (0x01#8, .bvBit, .bitVector), (0x02#8, .bvParity, .bitVector),
          (0x03#8, .bvHamming, .bitVector), (0x10#8, .wht, .transform), (0x11#8, .whtRaw, .transform),
          (0x12#8, .whtComp, .transform), (0x20#8, .nl, .analyzer), (0x21#8, .sac, .analyzer), (0x22#8, .lap, .analyzer),
          (0x23#8, .dap, .analyzer), (0x24#8, .bicNl, .analyzer), (0x25#8, .bicSac, .analyzer),
          (0x2F#8, .runSel, .analyzer)] : List (BitVec 8 × Instr × Family))

/-- Decode and encode agree on bytes (R76, R100, R103): a list of bytes decodes to a command and a rest exactly when it
is that command's four bytes followed by the rest. -/
def Obligations.DecodeIsInverseOfEncode : Prop :=
  ∀ (bytes rest : List Byte) (i : Instr), i.wf = true →
    (decodeBytes bytes = .ok (i, rest) ↔ bytes = encodeBytes i ++ rest)

/-- R102: every word is a row with zero reserved bits or illegal, and a START with an illegal word is accepted and
ends with BAD_OPCODE, ERR_ACT = CMD, changing no slot, RAM, BV_RESULT or WHT_MAXABS. -/
def Obligations.IllegalCommandWord : Prop :=
  (∀ w : Word, (∃ i, decodeCommand w = .ok i) ↔ w.extractLsb' 8 24 = 0 ∧ w.extractLsb' 0 8 ∈ legalOpcodes) ∧
  ∀ (s : State) (v : Word) (rest : List BusEvent),
    s.phase = .idle → NextIsWrite s 0x008 v rest → v.getLsbD 0 = true → v.getLsbD 1 = false →
    (s.regs.cmd.extractLsb' 8 24 ≠ 0 ∨ s.regs.cmd.extractLsb' 0 8 ∉ legalOpcodes) →
    ∃ t u, step s = .next t ∧ t.phase = .busy s.regs.cmd ∧ t.inbox = rest ∧
      engineTurn t = .next u ∧ EndedWithError .badOpcode 0 s.regs.cmd.toNat 0 u ∧
      u.slots = s.slots ∧ SameMemory s u ∧ u.bvResult = s.bvResult ∧ u.whtMaxAbs = s.whtMaxAbs ∧
      CommandFrame t u

/-! ### The step (43_control.md section 1) -/

/-- A step runs the decoded command (R192): at the engine's turn, when cur_cmd decodes to `i`, the step is exec of `i`. When
cur_cmd is no command the step ends it with BAD_OPCODE and changes nothing else (R102); while IDLE the engine waits and
nothing changes (R242). An engine event that stands at the front of the inbox is taken off it first (log entry 2). -/
def Obligations.StepRunsDecodedCommand : Prop :=
  ∀ s t : State, EngineIsNext s t →
    (∀ (w : Word) (i : Instr), s.phase = .busy w → decodeCommand w = .ok i → i.wf = true → step s = exec i t) ∧
    (∀ w : Word, s.phase = .busy w → (∀ i, decodeCommand w ≠ .ok i) →
      step s = .next { t with
        phase := .idle
        flags := { s.flags with done := true, err := true, errCode := .badOpcode }
        errCtx := { exp := 0, act := w, idx := 0 } }) ∧
    (s.phase = .idle → step s = .next t)

/-- The end-of-command step (R192) is enabled whenever the phase is BUSY: the command ends, IDLE and DONE, or the
model faults at an entry that is unwritten. It is never refused. -/
def Obligations.EndStepEndsTheCommand : Prop :=
  ∀ (s : State) (w : Word), s.phase = .busy w →
    (∃ t, engineTurn s = .next t ∧ t.phase = .idle ∧ t.flags.done = true) ∨
    ∃ off, engineTurn s = .fault (.unwrittenRead off) ∧ s.mem.readWord off = none

/-- R198 as the model has it (log entry 2): once the host's events are used up the running command ends, so every
finite script of the host reaches IDLE, unless it stops at a fault or at an access that has no move. -/
def Obligations.EveryScriptEndsIdle : Prop :=
  ∀ s : State,
    (∃ t, Host.Core.run core (s.inbox.length + 1) s = .next t ∧ t.phase = .idle ∧ t.inbox = []) ∨
    (∃ f, Host.Core.run core (s.inbox.length + 1) s = .fault f) ∨
    ∃ r, Host.Core.run core (s.inbox.length + 1) s = .refused r

/-- R196: NOP reads and writes nothing but DONE and ERRCODE; START with CMD = 0 after reset is a NOP; 0x100 is not. -/
def Obligations.NopOnlySetsDone : Prop :=
  (∀ s : State, exec .nop s =
    .next { s with phase := .idle, flags := { s.flags with done := true, errCode := .none } }) ∧
  (∀ p : Config.Part, ∃ t,
    Host.Core.run core 2 { State.resetFor p with inbox := [wr p .ctrl 1] } = .next t ∧ statusWord t = 0x00000002) ∧
  (∀ s : State, s.phase = .busy 0x00000100#32 →
    ∃ t, engineTurn s = .next t ∧ EndedWithError .badOpcode 0 0x100 0 t) ∧
  (∀ s : State, s.phase = .idle → s.flags.accErr = false → s.inbox = hostRun s.part .nop →
    ∃ t, Host.Core.run core 3 s = .next t ∧ statusWord t = 0x00000002)

/-! ### Bit-vector commands (40_bitvector.md) -/

/-- R121: BV_BIT always completes; BV_RESULT is bit OPB of OPA, 0 when OPB >= 32; nothing else but STATUS changes. -/
def Obligations.BvBitResult : Prop :=
  ∀ s : State, ∃ t, exec .bvBit s = .next t ∧ NoOtherOutput s t ∧
    t.bvResult.toNat = if 32 ≤ s.regs.opb.toNat then 0 else (s.regs.opa.getLsbD s.regs.opb.toNat).toNat

/-- R122: BV_PARITY always completes; BV_RESULT is the number of 1 bits of OPA modulo 2. -/
def Obligations.BvParityResult : Prop :=
  ∀ s : State, ∃ t, exec .bvParity s = .next t ∧ NoOtherOutput s t ∧
    t.bvResult.toNat = ((Finset.range 32).filter (fun j => s.regs.opa.getLsbD j = true)).card % 2

/-- R123: BV_HAMMING always completes; BV_RESULT is the number of bits in which OPA and OPB differ. -/
def Obligations.BvHammingResult : Prop :=
  ∀ s : State, ∃ t, exec .bvHamming s = .next t ∧ NoOtherOutput s t ∧
    t.bvResult.toNat = ((Finset.range 32).filter (fun j => s.regs.opa.getLsbD j ≠ s.regs.opb.getLsbD j)).card

/-! ### Walsh-Hadamard transform (41_wht.md) -/

/-- R131: the closed form of Butterfly(n), in natural order, for every legal n (and n = 0). -/
def Obligations.ButterflyClosedForm : Prop :=
  ∀ (n : Nat) (buf : List Int), n ≤ 16 → buf.length = 2 ^ n →
    (butterfly n buf).length = 2 ^ n ∧
    ∀ u < 2 ^ n, (butterfly n buf).getD u 0 = walshSum n (fun x => buf.getD x 0) u

/-- WHT completes on every 0/1 table of a legal width: BUF[0 .. N-1] is its spectrum, WHT_MAXABS the largest absolute
value; nothing outside those entries and STATUS changes (R134, R139). -/
def Obligations.WhtResult : Prop :=
  ∀ (s : State) (b : Nat → Nat), s.part.wf = true → LegalWidth s → BufHoldsBits s b →
    ∃ t, exec .wht s = .next t ∧ TransformEnd s t ∧
      BufHolds t (walshSum (opN s) (plusMinus b)) ∧ t.whtMaxAbs.toNat = spectrumMax (opN s) (plusMinus b)

/-- WHT_RAW completes on every written buffer of a legal width whose stages all stay in the signed range: BUF[0 .. N-1]
is the transform, WHT_MAXABS the largest absolute value, nothing else changes (R135). -/
def Obligations.WhtRawResult : Prop :=
  ∀ (s : State) (F : Nat → Int), s.part.wf = true → LegalWidth s → BufHolds s F →
    (∀ k, 1 ≤ k → k ≤ opN s → ∀ x < 2 ^ opN s, InSignedRange (walshPartial k F x)) →
    ∃ t, exec .whtRaw s = .next t ∧ TransformEnd s t ∧
      BufHolds t (walshSum (opN s) F) ∧ t.whtMaxAbs.toNat = spectrumMax (opN s) F

/-- R208: a value outside the signed range in stage i, the lowest such stage, ends WHT_RAW with OVERFLOW and ERR_IDX = i,
leaving BUF[0 .. N-1] UNSPECIFIED and WHT_MAXABS 0; no other command ends with OVERFLOW. -/
def Obligations.WhtRawOverflow : Prop :=
  (∀ (s : State) (F : Nat → Int) (i x : Nat), s.part.wf = true → LegalWidth s → BufHolds s F →
    i < opN s → x < 2 ^ opN s →
    (∀ k, 1 ≤ k → k ≤ i → ∀ y < 2 ^ opN s, InSignedRange (walshPartial k F y)) →
    ¬InSignedRange (walshPartial (i + 1) F x) →
    ∃ t, exec .whtRaw s = .next t ∧ CommandFrame s t ∧ EndedWithError .overflow 0 0 i t ∧ t.whtMaxAbs = 0 ∧
      t.slots = s.slots ∧ t.bvResult = s.bvResult ∧ BufWritten (2 ^ opN s) t ∧ SameMemoryButBuf (2 ^ opN s) s t) ∧
  ∀ (i : Instr) (s t : State), i ≠ .whtRaw → exec i s = .next t → t.flags.errCode ≠ .overflow

/-- WHT_COMP completes on every legal table: BUF[0 .. N-1] is the spectrum of parity(SBOX[x] & MASK) (R136). -/
def Obligations.WhtCompResult : Prop :=
  ∀ (s : State) (S : Nat → Nat), s.part.wf = true → LegalScalars s → SboxHolds s S →
    ∃ t, exec .whtComp s = .next t ∧ TransformEnd s t ∧
      BufHolds t (walshSum (opN s) (plusMinus (fun x => popcount (S x &&& s.regs.mask.toNat) % 2))) ∧
      t.whtMaxAbs.toNat =
        spectrumMax (opN s) (plusMinus (fun x => popcount (S x &&& s.regs.mask.toNat) % 2))

/-- R138: after WHT or WHT_COMP ends without error every BUF[u], u < N, lies in [-N, N] and is congruent to N modulo 2,
so even for n >= 1, and BUF[0] = 2w - N with w the number of x with t(x) = 1. -/
def Obligations.SpectrumBounds : Prop :=
  ∀ (s t : State) (b : Nat → Nat), s.part.wf = true →
    (exec .wht s = .next t ∧ BufHoldsBits s b ∨
      exec .whtComp s = .next t ∧ ∃ S, SboxHolds s S ∧
        ∀ x < 2 ^ opN s, b x = popcount (S x &&& s.regs.mask.toNat) % 2) →
    t.flags.errCode = .none →
    ∃ W, BufHolds t W ∧
      (∀ u < 2 ^ opN s, -(2 ^ opN s : Int) ≤ W u ∧ W u ≤ 2 ^ opN s ∧
        W u % 2 = (2 ^ opN s : Int) % 2 ∧ (1 ≤ opN s → W u % 2 = 0)) ∧
      W 0 = 2 * (countBelow (opN s) (fun x => b x = 1) : Int) - 2 ^ opN s

/-- R140: Butterfly(n) twice multiplies every entry by N, and WHT followed by WHT_RAW leaves N (2 t(x) - 1). -/
def Obligations.ButterflyInvolution : Prop :=
  (∀ (n : Nat) (buf : List Int), n ≤ 16 → buf.length = 2 ^ n →
    butterfly n (butterfly n buf) = buf.map (fun v => 2 ^ n * v)) ∧
  ∀ (s : State) (b : Nat → Nat), s.part.wf = true → LegalWidth s → BufHoldsBits s b →
    ∃ t u, exec .wht s = .next t ∧ EndedWithoutError s t ∧ exec .whtRaw t = .next u ∧ EndedWithoutError t u ∧
      BufHolds u (fun x => 2 ^ opN s * plusMinus b x)

/-- R141: after WHT or WHT_COMP ends without error the squares of BUF[0 .. N-1] sum to N^2. -/
def Obligations.Parseval : Prop :=
  ∀ (s t : State), s.part.wf = true → (exec .wht s = .next t ∨ exec .whtComp s = .next t) →
    t.flags.errCode = .none →
    ∃ W, BufHolds t W ∧ ∑ u ∈ Finset.range (2 ^ opN s), W u ^ 2 = (2 ^ opN s : Int) ^ 2

/-! ### Command errors (60_exceptions.md sections 1 and 2, 42_analyzers.md R151) -/

/-- R207: WHT finds an entry that is neither 0 nor 1, the first in ascending order; the buffer is unchanged. -/
def Obligations.NotBooleanError : Prop :=
  ∀ (s : State) (x : Nat) (w : Word), LegalWidth s → x < 2 ^ opN s →
    (∀ y < x, s.mem.readWord (bufOff y) = some 0 ∨ s.mem.readWord (bufOff y) = some 1) →
    s.mem.readWord (bufOff x) = some w → w ≠ 0 → w ≠ 1 →
    ∃ t, exec .wht s = .next t ∧ ErrorEnd .wht .notBoolean 1 w.toNat x s t

/-- R202: PARAM on n for every command that checks N_LOG, on m only for commands that read the S-box, and on SEL's
reserved bits for RUNSEL. -/
def Obligations.ParamErrors : Prop :=
  (∀ (i : Instr) (s : State), ChecksWidth i s.regs.sel → ¬LegalWidth s →
    ∃ t, exec i s = .next t ∧ ErrorEnd i .param s.part.nmax s.regs.nLog.toNat 0 s t) ∧
  (∀ (i : Instr) (s : State), ChecksTable i s.regs.sel → LegalWidth s → ¬LegalOutputWidth s →
    ∃ t, exec i s = .next t ∧ ErrorEnd i .param s.part.mmax s.regs.mBits.toNat 1 s t) ∧
  (∀ (i : Instr) (s t : State), exec i s = .next t → t.flags.errCode = .param → t.errCtx.idx = 1 →
    ChecksTable i s.regs.sel) ∧
  ∀ s : State, s.regs.sel.extractLsb' 6 26 ≠ 0 →
    ∃ t, exec .runSel s = .next t ∧ ErrorEnd .runSel .param 0x3F s.regs.sel.toNat 2 s t

/-- R203 and R204: TBL_LEN no power of two, and a power of two other than 2^n. -/
def Obligations.LengthErrors : Prop :=
  ∀ (i : Instr) (s : State), ChecksTable i s.regs.sel → LegalWidth s → LegalOutputWidth s →
    ((∀ j, s.regs.tblLen.toNat ≠ 2 ^ j) →
      ∃ t, exec i s = .next t ∧ ErrorEnd i .lenNotPow2 (2 ^ opN s) s.regs.tblLen.toNat 0 s t) ∧
    ((∃ j, s.regs.tblLen.toNat = 2 ^ j) → s.regs.tblLen.toNat ≠ 2 ^ opN s →
      ∃ t, exec i s = .next t ∧ ErrorEnd i .lenMismatch (2 ^ opN s) s.regs.tblLen.toNat 0 s t)

/-- R206: BIC-NL with n < 2, and then BIC-SAC with N < 256, whether run alone or selected by RUNSEL. -/
def Obligations.DegenerateErrors : Prop :=
  ∀ (i : Instr) (s : State), ChecksTable i s.regs.sel → LegalScalars s →
    (Metric.bicNl ∈ slotsOf i s.regs.sel → opN s < 2 →
      ∃ t, exec i s = .next t ∧ ErrorEnd i .degenerate 2 (opN s) 4 s t) ∧
    (¬(Metric.bicNl ∈ slotsOf i s.regs.sel ∧ opN s < 2) → Metric.bicSac ∈ slotsOf i s.regs.sel → 2 ^ opN s < 256 →
      ∃ t, exec i s = .next t ∧ ErrorEnd i .degenerate 256 (2 ^ opN s) 5 s t)

/-- R205: an entry of the table at or above 2^m, the first in ascending order, is rejected with DOMAIN. -/
def Obligations.DomainError : Prop :=
  ∀ (i : Instr) (s : State) (x : Nat) (w : Word), ChecksTable i s.regs.sel → LegalScalars s →
    NotDegenerate (slotsOf i s.regs.sel) (opN s) → x < 2 ^ opN s →
    (∀ y < x, ∃ v, s.mem.readWord (sboxOff y) = some v ∧ v.toNat < 2 ^ opM s) →
    s.mem.readWord (sboxOff x) = some w → 2 ^ opM s ≤ w.toNat →
    ∃ t, exec i s = .next t ∧ ErrorEnd i .domain (2 ^ opM s - 1) w.toNat x s t

/-- Fault(UnwrittenRead) (R46, R151, R134, R135, R211): a command that comes to an unwritten entry faults there, with
no earlier error; and so does a host read of an unwritten entry. That a host read of an unwritten buffer entry faults
also while a WHT-family or analyzer command runs is the model's reading of R78 (log entry 11). -/
def Obligations.UnwrittenReadFaults : Prop :=
  (∀ (s : State) (x : Nat), LegalWidth s → x < 2 ^ opN s → s.mem.readWord (bufOff x) = none →
    (∀ y < x, s.mem.readWord (bufOff y) = some 0 ∨ s.mem.readWord (bufOff y) = some 1) →
    exec .wht s = .fault (.unwrittenRead (bufOff x))) ∧
  (∀ (s : State) (x : Nat), LegalWidth s → x < 2 ^ opN s → s.mem.readWord (bufOff x) = none →
    (∀ y < x, ∃ v, s.mem.readWord (bufOff y) = some v) →
    exec .whtRaw s = .fault (.unwrittenRead (bufOff x))) ∧
  (∀ (i : Instr) (s : State) (x : Nat), ChecksTable i s.regs.sel → LegalScalars s →
    NotDegenerate (slotsOf i s.regs.sel) (opN s) → x < 2 ^ opN s → s.mem.readWord (sboxOff x) = none →
    (∀ y < x, ∃ v, s.mem.readWord (sboxOff y) = some v ∧ v.toNat < 2 ^ opM s) →
    exec i s = .fault (.unwrittenRead (sboxOff x))) ∧
  ∀ (s : State) (x : Nat) (rest : List BusEvent), s.part.wf = true → x < 2 ^ s.part.nmax →
    (NextIsRead s (sboxOff x) rest → s.mem.readWord (sboxOff x) = none →
      step s = .fault (.unwrittenRead (sboxOff x))) ∧
    (NextIsRead s (bufOff x) rest → s.mem.readWord (bufOff x) = none →
      step s = .fault (.unwrittenRead (bufOff x)))

/-! ### Analyzers (42_analyzers.md) -/

/-- NL (R160): NUM is the least Dist over the output bits b < m, DEN = 1; only slot 0, BUF, WHT_MAXABS and STATUS
change. -/
def Obligations.NlResult : Prop :=
  ∀ (s : State) (S : Nat → Nat), s.part.wf = true → LegalScalars s → SboxHolds s S →
    ∃ t best, exec .nl s = .next t ∧ AnalyzerEnd [.nl] s t ∧ SlotHolds (t.slots.get .nl) best 1 0 ∧
      (∀ b < opM s, best ≤ distanceOf (opN s) (fun x => ((S x).testBit b).toNat)) ∧
      ∃ b < opM s, best = distanceOf (opN s) (fun x => ((S x).testBit b).toNat)

/-- SAC (R163): NUM is the total of popcount(S[x] ^ S[x ^ (1 << i)]), DEN = n N n. -/
def Obligations.SacResult : Prop :=
  ∀ (s : State) (S : Nat → Nat), s.part.wf = true → LegalScalars s → SboxHolds s S →
    ∃ t, exec .sac s = .next t ∧ AnalyzerEnd [.sac] s t ∧
      SlotHolds (t.slots.get .sac)
        (∑ x ∈ Finset.range (2 ^ opN s), ∑ i ∈ Finset.range (opN s), popcount (S x ^^^ S (x ^^^ 2 ^ i)))
        (opN s * 2 ^ opN s * opN s) 0

/-- LAP (R166): NUM is the largest |agr - 2^(n-1)| over nonzero masks a, b < N, agr the number of x < N with
parity(x & a) = parity(S[x] & b); DEN = N. -/
def Obligations.LapResult : Prop :=
  ∀ (s : State) (S : Nat → Nat), s.part.wf = true → LegalScalars s → SboxHolds s S →
    ∃ t best, exec .lap s = .next t ∧ AnalyzerEnd [.lap] s t ∧ SlotHolds (t.slots.get .lap) best (2 ^ opN s) 0 ∧
      IsBestOverPairs (opN s)
        (fun a b => ((countBelow (opN s) (fun x => popcount (x &&& a) % 2 = popcount (S x &&& b) % 2) : Int) -
          2 ^ (opN s - 1)).natAbs) best

/-- DAP (R168): NUM is the largest number of x < N with S[x ^ dx] ^ S[x] = dy over nonzero dx, dy < N; DEN = N. -/
def Obligations.DapResult : Prop :=
  ∀ (s : State) (S : Nat → Nat), s.part.wf = true → LegalScalars s → SboxHolds s S →
    ∃ t best, exec .dap s = .next t ∧ AnalyzerEnd [.dap] s t ∧ SlotHolds (t.slots.get .dap) best (2 ^ opN s) 0 ∧
      IsBestOverPairs (opN s) (fun dx dy => countBelow (opN s) (fun x => S (x ^^^ dx) ^^^ S x = dy)) best

/-- BICNL (R170): for n >= 2 NUM is the sum over b1 < b2 < n of Dist of bit b1 xor bit b2, DEN = n(n-1)/2. -/
def Obligations.BicNlResult : Prop :=
  ∀ (s : State) (S : Nat → Nat), s.part.wf = true → LegalScalars s → SboxHolds s S → 2 ≤ opN s →
    ∃ t, exec .bicNl s = .next t ∧ AnalyzerEnd [.bicNl] s t ∧
      SlotHolds (t.slots.get .bicNl)
        (∑ b1 ∈ Finset.range (opN s), ∑ b2 ∈ Finset.Ioo b1 (opN s),
          distanceOf (opN s) (fun x => ((S x).testBit b1 ^^ (S x).testBit b2).toNat))
        (opN s * (opN s - 1) / 2) 0

/-- BICSAC (R172, R173): for N >= 256 NUM is the total over the 28 pairs of output bits, all x < N and the 8 flips,
DEN = 224 N, and AUX is NUM 100000 / DEN rounded half to even. -/
def Obligations.BicSacResult : Prop :=
  ∀ (s : State) (S : Nat → Nat), s.part.wf = true → LegalScalars s → SboxHolds s S → 256 ≤ 2 ^ opN s →
    ∃ t total aux, exec .bicSac s = .next t ∧ AnalyzerEnd [.bicSac] s t ∧
      total = ∑ i ∈ Finset.range 8, ∑ j ∈ Finset.Ioo i 8, ∑ x ∈ Finset.range (2 ^ opN s), ∑ f ∈ Finset.range 8,
        (((S x).testBit i ^^ (S (x ^^^ 2 ^ f)).testBit i) ^^
          ((S x).testBit j ^^ (S (x ^^^ 2 ^ f)).testBit j)).toNat ∧
      SlotHolds (t.slots.get .bicSac) total (224 * 2 ^ opN s) aux ∧
      IsRoundHalfEven ((total * 100000 : ℚ) / (224 * 2 ^ opN s)) aux

/-- RUNSEL with a legal, non-empty selection (R175): every selected slot gets what the single command of its metric
gives it from the same state, and no other slot changes. -/
def Obligations.RunSelResult : Prop :=
  ∀ (s : State) (S : Nat → Nat), s.part.wf = true → s.regs.sel.extractLsb' 6 26 = 0 → s.regs.sel ≠ 0 →
    LegalScalars s → SboxHolds s S → NotDegenerate (selectedMetrics s.regs.sel) (opN s) →
    ∃ t, exec .runSel s = .next t ∧ AnalyzerEnd (selectedMetrics s.regs.sel) s t ∧
      ∀ (k : Metric) (i : Instr), s.regs.sel.getLsbD (slotIndex k) = true → opcode i = metricOpcode k →
        ∃ u, exec i s = .next u ∧ EndedWithoutError s u ∧ t.slots.get k = u.slots.get k

/-- RUNSEL with SEL = 0 (R175): it ends at once without error whatever the other operands are, and no slot changes.
That BUF and WHT_MAXABS become UNSPECIFIED then too is the model's reading of R152 (log entry 12). -/
def Obligations.RunSelEmpty : Prop :=
  ∀ s : State, s.regs.sel = 0 → ∃ t, exec .runSel s = .next t ∧ AnalyzerEnd [] s t

/-- The ranges of R154 (with m/n for SAC, 90_conflicts.md C2), DEN never 0 (R40), and AUX at most 100000 (R174), in
the slots of every single analyzer command that ends without error. -/
def Obligations.MetricRanges : Prop :=
  ∀ (s t : State), s.part.wf = true → t.flags.errCode = .none →
    (exec .nl s = .next t → (t.slots.get .nl).num.toNat ≤ 2 ^ (opN s - 1) ∧ (t.slots.get .nl).den = 1) ∧
    (exec .sac s = .next t → (t.slots.get .sac).num.toNat * opN s ≤ opM s * (t.slots.get .sac).den.toNat ∧
      (t.slots.get .sac).den ≠ 0) ∧
    (exec .lap s = .next t → 2 * (t.slots.get .lap).num.toNat ≤ (t.slots.get .lap).den.toNat ∧
      (t.slots.get .lap).den ≠ 0) ∧
    (exec .dap s = .next t → (t.slots.get .dap).num.toNat ≤ (t.slots.get .dap).den.toNat ∧
      (t.slots.get .dap).den ≠ 0) ∧
    (exec .bicNl s = .next t →
      (t.slots.get .bicNl).num.toNat ≤ 2 ^ (opN s - 1) * (t.slots.get .bicNl).den.toNat ∧
      (t.slots.get .bicNl).den ≠ 0) ∧
    (exec .bicSac s = .next t → (t.slots.get .bicSac).num.toNat ≤ (t.slots.get .bicSac).den.toNat ∧
      (t.slots.get .bicSac).aux.toNat ≤ 100000 ∧ (t.slots.get .bicSac).den ≠ 0)

/-- The spectral form of LAP (R167): twice slot 2's NUM is the largest |W_b[a]| over nonzero a, b < N, with W_b what
WHT_COMP leaves in the buffer for MASK = b. -/
def Obligations.LapSpectralForm : Prop :=
  ∀ (s : State) (S : Nat → Nat), s.part.wf = true → LegalScalars s → SboxHolds s S →
    ∃ (t : State) (W : Nat → Nat → Int), exec .lap s = .next t ∧
      (∀ b, 1 ≤ b → b < 2 ^ opN s → ∃ u,
        exec .whtComp { s with regs := { s.regs with mask := BitVec.ofNat 32 b } } = .next u ∧
          EndedWithoutError s u ∧ BufHolds u (W b)) ∧
      IsBestOverPairs (opN s) (fun a b => (W b a).natAbs) (2 * (t.slots.get .lap).num.toNat)

/-- R177: an analyzer's results are a function of N_LOG, M_BITS, TBL_LEN, SEL (RUNSEL only) and SBOX[0 .. N-1] alone
(on one part): from two states that agree on these, one run ends exactly when the other does, with the same slots. -/
def Obligations.AnalyzerPurity : Prop :=
  ∀ (i : Instr) (s s' t : State), familyOf i = .analyzer → s'.part = s.part → s'.regs.nLog = s.regs.nLog →
    s'.regs.mBits = s.regs.mBits → s'.regs.tblLen = s.regs.tblLen → (i = .runSel → s'.regs.sel = s.regs.sel) →
    (LegalWidth s → ∀ x < 2 ^ opN s, s'.mem.readWord (sboxOff x) = s.mem.readWord (sboxOff x)) →
    exec i s = .next t →
    ∃ t', exec i s' = .next t' ∧ t'.flags.errCode = t.flags.errCode ∧
      ∀ k ∈ slotsOf i s.regs.sel, t'.slots.get k = t.slots.get k

/-! ### What commands may change (R104) -/

/-- The frame of every command, ended with or without error: the part, the operand registers, IRQ_EN, ACCERR, the S-box
RAM and the slots outside Slots(cur_cmd) never change; BV_RESULT changes only by bit-vector commands, WHT_MAXABS and
the buffer only by WHT-family and analyzer commands. -/
def Obligations.CommandsChangeOnlyTheirOutputs : Prop :=
  ∀ (i : Instr) (s t : State), exec i s = .next t →
    CommandFrame s t ∧ t.phase = .idle ∧ t.flags.done = true ∧ SameSlotsBut (slotsOf i s.regs.sel) s t ∧
    SameMemoryButBuf (2 ^ s.part.nmax) s t ∧
    (familyOf i ≠ .bitVector → t.bvResult = s.bvResult) ∧
    (familyOf i = .control ∨ familyOf i = .bitVector → t.whtMaxAbs = s.whtMaxAbs ∧ SameMemory s t)

/-! ### START and ABORT (43_control.md) -/

/-- R191: an accepted START copies CMD, goes BUSY, clears DONE, ERR, ERRCODE and ERR_*, and invalidates Slots(cur_cmd),
whose NUM, DEN and AUX read UNSPECIFIED from then on; ACCERR and everything else is as before. That the host reads AUX of
slots 0 to 4 as UNSPECIFIED too, against R40's 0, is the model's reading (log entry 10). -/
def Obligations.StartAccepted : Prop :=
  ∀ (s : State) (v : Word) (rest : List BusEvent), s.phase = .idle → NextIsWrite s 0x008 v rest →
    v.getLsbD 0 = true → v.getLsbD 1 = false →
    ∃ t, step s = .next t ∧ t.phase = .busy s.regs.cmd ∧ isBusy t = true ∧
      t.flags = { s.flags with done := false, err := false, errCode := .none } ∧
      t.errCtx = { exp := 0, act := 0, idx := 0 } ∧
      (∀ k, InSlotsOf s.regs.cmd s.regs.sel k → (t.slots.get k).valid = false ∧
        ∀ f, f ≠ .valid → readTarget t (.slot k f) = .unspecified) ∧
      (∀ k, ¬InSlotsOf s.regs.cmd s.regs.sel k → t.slots.get k = s.slots.get k) ∧
      t.part = s.part ∧ t.regs = s.regs ∧ t.irqEn = s.irqEn ∧ t.bvResult = s.bvResult ∧
      t.whtMaxAbs = s.whtMaxAbs ∧ t.mem = s.mem ∧ t.replies = s.replies ∧ t.inbox = rest

/-- ABORT of a running command (R193): IDLE, DONE, ERR, ABORTED, no context, the command's slots zero, and by family
BV_RESULT 0, or WHT_MAXABS 0 with BUF[0 .. N-1] UNSPECIFIED, or BUF UNSPECIFIED (R152); nothing else changes. Which
buffer entries a transform with an illegal N_LOG leaves alone R193 does not say, and nothing is claimed of them (log entry
13). That a running word that is no command changes no output is the model's reading (log entry 14). -/
def Obligations.AbortRunningCommand : Prop :=
  ∀ (s : State) (w v : Word) (rest : List BusEvent), s.phase = .busy w → NextIsWrite s 0x008 v rest →
    v.getLsbD 1 = true →
    ∃ t, step s = .next t ∧ CommandFrame { s with inbox := rest } t ∧ EndedWithError .aborted 0 0 0 t ∧
      (∀ k, InSlotsOf w s.regs.sel k → t.slots.get k = Slot.zero) ∧
      (∀ k, ¬InSlotsOf w s.regs.sel k → t.slots.get k = s.slots.get k) ∧
      (∀ i, decodeCommand w = .ok i → familyOf i = .bitVector →
        t.bvResult = 0 ∧ t.whtMaxAbs = s.whtMaxAbs ∧ SameMemory s t) ∧
      (∀ i, decodeCommand w = .ok i → familyOf i = .transform →
        t.bvResult = s.bvResult ∧ t.whtMaxAbs = 0 ∧ SameMemoryButBuf (2 ^ s.part.nmax) s t ∧
        (LegalWidth s → BufWritten (2 ^ opN s) t ∧ SameMemoryButBuf (2 ^ opN s) s t)) ∧
      (∀ i, decodeCommand w = .ok i → familyOf i = .analyzer →
        t.bvResult = s.bvResult ∧ BufWritten (2 ^ s.part.nmax) t ∧ SameMemoryButBuf (2 ^ s.part.nmax) s t) ∧
      ((∀ i, decodeCommand w = .ok i → familyOf i = .control) →
        t.bvResult = s.bvResult ∧ t.whtMaxAbs = s.whtMaxAbs ∧ SameMemory s t)

/-- R194: CTRL with v[1] = 1 while IDLE does nothing; with both bits while BUSY it acts as ABORT alone; with neither it
does nothing. -/
def Obligations.ControlWritesWithoutStart : Prop :=
  (∀ (s : State) (v : Word) (rest : List BusEvent), s.phase = .idle → NextIsWrite s 0x008 v rest →
    v.getLsbD 1 = true → OnlyConsumed s rest) ∧
  (∀ (s s' : State) (w v v' : Word) (rest : List BusEvent), s.phase = .busy w →
    s' = { s with inbox := .access (.write (s.part.base + 0x008) .word v') :: rest } →
    NextIsWrite s 0x008 v rest → v.getLsbD 0 = true → v.getLsbD 1 = true → v'.getLsbD 0 = false →
    v'.getLsbD 1 = true →
    ∃ t, step s = .next t ∧ step s' = .next t ∧ EndedWithError .aborted 0 0 0 t ∧
      t.flags.accErr = s.flags.accErr) ∧
  ∀ (s : State) (v : Word) (rest : List BusEvent), NextIsWrite s 0x008 v rest → v.getLsbD 0 = false →
    v.getLsbD 1 = false → OnlyConsumed s rest

/-- R195: a START while BUSY is refused: only ACCERR is set. -/
def Obligations.StartWhileBusyRefused : Prop :=
  ∀ (s : State) (w v : Word) (rest : List BusEvent), s.phase = .busy w → NextIsWrite s 0x008 v rest →
    v.getLsbD 0 = true → v.getLsbD 1 = false →
    step s = .next { s with inbox := rest, flags := { s.flags with accErr := true } }

/-! ### Host reads and writes (10_state.md, 20_memory.md) -/

/-- R23, for each of the eight registers at its offset of R22. A read at any time delivers that register. While BUSY a
write changes nothing in it and sets ACCERR; while IDLE a write stores all 32 bits in that register alone, and the next
read of it returns them, of another locked register what that one held. -/
def Obligations.LockedRegisters : Prop :=
  ∀ (s : State) (off : Nat) (get : OperandRegs → Word) (put : OperandRegs → Word → OperandRegs) (v : Word)
    (rest : List BusEvent), (off, get, put) ∈ operandRegisters →
    (NextIsRead s off rest → Delivers s off (get s.regs) rest) ∧
    (NextIsWrite s off v rest → isBusy s = true →
      step s = .next { s with inbox := rest, flags := { s.flags with accErr := true } }) ∧
    (NextIsWrite s off v rest → isBusy s = false → ∃ t, step s = .next t ∧
      t = { s with inbox := rest, regs := put s.regs v } ∧
      (∀ rest', NextIsRead t off rest' → Delivers t off v rest') ∧
      ∀ off' get' put' rest', (off', get', put') ∈ operandRegisters → off' ≠ off → NextIsRead t off' rest' →
        Delivers t off' (get' s.regs) rest')

/-- A write of a window entry (R79, R80): while IDLE the entry holds the value written, every byte outside it and
every register is as before, and the next read delivers the value; while BUSY only ACCERR is set. A read (R78) delivers
what a written S-box entry holds at any time, and what a written buffer entry holds while no WHT-family or analyzer
command runs; that a word that is no command counts as none is the model's reading (log entry 14). -/
def Obligations.EntryWriteThenRead : Prop :=
  (∀ (s : State) (off x : Nat) (v : Word) (rest : List BusEvent), s.part.wf = true → x < 2 ^ s.part.nmax →
    (off = sboxOff x ∨ off = bufOff x) → NextIsWrite s off v rest →
    (isBusy s = true → step s = .next { s with inbox := rest, flags := { s.flags with accErr := true } }) ∧
    (isBusy s = false → ∃ t, step s = .next t ∧ t = { s with inbox := rest, mem := t.mem } ∧
      t.mem.readWord off = some v ∧
      (∀ a, ¬(off ≤ a ∧ a < off + 4) → t.mem.readByte a = s.mem.readByte a) ∧
      ∀ rest', NextIsRead t off rest' → Delivers t off v rest')) ∧
  ∀ (s : State) (x : Nat) (w : Word) (rest : List BusEvent), s.part.wf = true → x < 2 ^ s.part.nmax →
    (s.mem.readWord (0x40000 + 4 * x) = some w → NextIsRead s (0x40000 + 4 * x) rest →
      Delivers s (0x40000 + 4 * x) w rest) ∧
    (s.mem.readWord (0x80000 + 4 * x) = some w → ¬FamilyRuns s .transform → ¬FamilyRuns s .analyzer →
      NextIsRead s (0x80000 + 4 * x) rest → Delivers s (0x80000 + 4 * x) w rest)

/-- A write of `v` to STATUS (R27): DONE, ERR and ACCERR are cleared where v has a 1, no other bit of STATUS and no
other state changes, BUSY or IDLE. -/
def Obligations.StatusWriteOneToClear : Prop :=
  ∀ (s : State) (v : Word) (rest : List BusEvent), NextIsWrite s 0x00C v rest →
    ∃ t, step s = .next t ∧ t = { s with inbox := rest, flags := t.flags } ∧
      statusWord t = statusWord s &&& ~~~(v &&& 0x0000000E)

/-- STATUS as it is read (R27, R50): BUSY in bit 0 exactly when the phase is BUSY, DONE 1, ERR 2, ACCERR 3, the other bits
0, and in 15:8 the number R201 gives the error code, one of ten. -/
def Obligations.StatusLayout : Prop :=
  ∀ (s : State) (rest : List BusEvent), NextIsRead s 0x00C rest →
    ∃ v : Word, Delivers s 0x00C v rest ∧ (v.getLsbD 0 = true ↔ ∃ w, s.phase = .busy w) ∧
      v.getLsbD 1 = s.flags.done ∧ v.getLsbD 2 = s.flags.err ∧ v.getLsbD 3 = s.flags.accErr ∧
      v.extractLsb' 4 4 = 0 ∧ v.extractLsb' 16 16 = 0 ∧
      (s.flags.errCode, v.extractLsb' 8 8) ∈
        ([(.none, 0x00#8), (.badOpcode, 0x01#8), (.param, 0x02#8), (.lenNotPow2, 0x03#8), (.lenMismatch, 0x04#8),
          (.domain, 0x05#8), (.degenerate, 0x06#8), (.notBoolean, 0x07#8), (.overflow, 0x08#8), (.aborted, 0x09#8)] :
          List (ErrCode × BitVec 8))

/-- A host read (R78) changes no state of the engine (what it delivers, the statements per register say): it delivers one value (the model may count one free draw), or
faults at an entry that is unwritten. -/
def Obligations.ReadsHaveNoSideEffect : Prop :=
  ∀ (s : State) (off : Nat) (rest : List BusEvent), off < 0xC0000 → off % 4 = 0 → NextIsRead s off rest →
    (∃ v d, step s = .next { s with
      inbox := rest
      draws := d
      replies := { addr := s.part.base + off, value := v } :: s.replies }) ∨
    ∃ o, step s = .fault (.unwrittenRead o) ∧ s.mem.readWord o = none

/-- R39: the reserved offsets of the register block read 0, and writes to them do nothing and do not set ACCERR. -/
def Obligations.ReservedOffsets : Prop :=
  ∀ (s : State) (off : Nat) (v : Word) (rest : List BusEvent), off % 4 = 0 →
    (0x048 ≤ off ∧ off ≤ 0x07C ∨ 0x0E0 ≤ off ∧ off ≤ 0x3FFFC) →
    (NextIsRead s off rest → Delivers s off 0 rest) ∧ (NextIsWrite s off v rest → OnlyConsumed s rest)

/-- The end of the windows (R72): an offset in a window at or beyond 4 2^NMAX from its start reads 0, and writes to it
do nothing and do not set ACCERR. -/
def Obligations.WindowOffsetsPastTheRam : Prop :=
  ∀ (s : State) (off : Nat) (v : Word) (rest : List BusEvent), off % 4 = 0 →
    (0x40000 + 4 * 2 ^ s.part.nmax ≤ off ∧ off < 0x80000 ∨ 0x80000 + 4 * 2 ^ s.part.nmax ≤ off ∧ off < 0xC0000) →
    (NextIsRead s off rest → Delivers s off 0 rest) ∧ (NextIsWrite s off v rest → OnlyConsumed s rest)

/-- R24 and R25: ID and CFG read their constants, and writes to them do nothing and do not set ACCERR. -/
def Obligations.ConstantRegisters : Prop :=
  (∀ (s : State) (v : Word) (rest : List BusEvent),
    (NextIsRead s 0x000 rest → Delivers s 0x000 0x57480100 rest) ∧
    (NextIsWrite s 0x000 v rest → OnlyConsumed s rest) ∧ (NextIsWrite s 0x004 v rest → OnlyConsumed s rest)) ∧
  (∀ (s : State) (rest : List BusEvent), s.part.wf = true → NextIsRead s 0x004 rest →
    ∃ c : Word, Delivers s 0x004 c rest ∧ (c.extractLsb' 0 6).toNat = s.part.nmax ∧ c.extractLsb' 6 2 = 0 ∧
      (c.extractLsb' 8 6).toNat = s.part.mmax ∧ c.extractLsb' 14 18 = 0) ∧
  cfgWord Config.reference = 0x00000808

/-- Accesses that are none of the engine's (R74, R75): a narrow, wide or misaligned access inside the aperture has no
move, and an address outside it is a fault of the model (log entries 7 and 8). -/
def Obligations.AccessesWithoutAMove : Prop :=
  ∀ (s : State) (addr : Nat) (sz : AccessSize) (v : Word) (rest : List BusEvent),
    (s.inbox = .access (.read addr sz) :: rest ∨ s.inbox = .access (.write addr sz v) :: rest) →
    (addr < s.part.base ∨ s.part.base + 0xC0000 ≤ addr → step s = .fault (.outsideAperture addr)) ∧
    (s.part.base ≤ addr → addr < s.part.base + 0xC0000 → (sz ≠ .word ∨ (addr - s.part.base) % 4 ≠ 0) →
      step s = .refused (.noMoveAccess addr))

/-- The interrupt line (R215, R216): (DONE and IRQ_EN[0]) or (ERR and IRQ_EN[1]), low at reset and after an accepted
START, and never moved by ACCERR. -/
def Obligations.InterruptLine : Prop :=
  (∀ s : State, irqLine s = true ↔
    (statusWord s).getLsbD 1 = true ∧ s.irqEn.getLsbD 0 = true ∨
      (statusWord s).getLsbD 2 = true ∧ s.irqEn.getLsbD 1 = true) ∧
  (∀ p : Config.Part, irqLine (State.resetFor p) = false) ∧
  (∀ (s t : State) (v : Word) (rest : List BusEvent), s.phase = .idle → NextIsWrite s 0x008 v rest →
    v.getLsbD 0 = true → v.getLsbD 1 = false → step s = .next t → irqLine t = false) ∧
  ∀ (s : State) (a : Bool), irqLine { s with flags := { s.flags with accErr := a } } = irqLine s

/-- R35: IRQ_EN is written at any time, BUSY or IDLE; bits 1:0 are stored, bits 31:2 read 0; it is 0 after reset; and
the IRQ line follows it at once by R215's formula. -/
def Obligations.InterruptEnable : Prop :=
  (∀ (s : State) (v : Word) (rest : List BusEvent), NextIsWrite s 0x030 v rest →
    ∃ t, step s = .next t ∧ t = { s with inbox := rest, irqEn := t.irqEn } ∧
      (∀ rest', NextIsRead t 0x030 rest' → Delivers t 0x030 (v &&& 0x00000003) rest') ∧
      irqLine t = (s.flags.done && v.getLsbD 0 || s.flags.err && v.getLsbD 1)) ∧
  ∀ p : Config.Part, (State.resetFor p).irqEn = 0

/-- While a command runs its outputs read UNSPECIFIED (R37, R38, R41, R78): the host gets the next free value. That
WHT_MAXABS does so while an analyzer runs (log entry 9), that AUX of a running slot 0 to 4 does (log entry 10), and
that only a written BUF entry does (log entry 11) is the model's reading. -/
def Obligations.RunningOutputsAreFree : Prop :=
  ∀ (s : State) (w : Word) (i : Instr) (off : Nat) (rest : List BusEvent), s.part.wf = true → s.phase = .busy w →
    decodeCommand w = .ok i → NextIsRead s off rest →
    (familyOf i = .bitVector ∧ off = 0x040 ∨
      (familyOf i = .transform ∨ familyOf i = .analyzer) ∧ off = 0x044 ∨
      (∃ k f, k ∈ slotsOf i s.regs.sel ∧ f ≠ .valid ∧ off = slotOff k f) ∨
      (familyOf i = .transform ∨ familyOf i = .analyzer) ∧
        ∃ x < 2 ^ s.part.nmax, off = bufOff x ∧ (s.mem.readWord (bufOff x)).isSome = true) →
    step s = .next { s with
      inbox := rest
      draws := s.draws + 1
      replies := { addr := s.part.base + off, value := Config.freeWord s.draws } :: s.replies }

/-! ### Reset and the invariant (10_state.md R54, 70_reset_and_hazards.md) -/

/-- R54: the state after reset, of every part and of the reference part: IDLE, every writable, status and result
register 0, every slot zero and invalid, ID and CFG at their constants, no entry written, IRQ low. -/
def Obligations.ResetState : Prop :=
  State.reset = State.resetFor Config.reference ∧
  ∀ p : Config.Part,
    (State.resetFor p).part = p ∧ (State.resetFor p).phase = .idle ∧
    (∀ off, off % 4 = 0 → 0x008 ≤ off → off < 0x40000 →
      readTarget (State.resetFor p) (targetOf p.nmax off) = .value 0) ∧
    readTarget (State.resetFor p) (targetOf p.nmax 0x000) = .value 0x57480100 ∧
    readTarget (State.resetFor p) (targetOf p.nmax 0x004) = .value (cfgWord p) ∧
    (∀ k, (State.resetFor p).slots.get k = Slot.zero) ∧
    (∀ a, (State.resetFor p).mem.readByte a = none) ∧ irqLine (State.resetFor p) = false

/-- R241, and R240's reset in every phase: whatever the engine is doing, a running command is discarded and the engine's
next state is the reset state. What is not the engine's (the count of free draws, the host's events and replies) is left
open here. -/
def Obligations.ResetDiscardsTheCommand : Prop :=
  ∀ (s : State) (rest : List BusEvent), s.inbox = .reset :: rest →
    ∃ d i r, step s = .next { State.resetFor s.part with draws := d, inbox := i, replies := r }

/-- The state after reset of every legal part meets the invariant. -/
def Obligations.ResetMeetsTheInvariant : Prop :=
  Inv State.reset ∧ ∀ p : Config.Part, p.wf = true → Inv (State.resetFor p)

/-- Every step keeps the invariant: memory stays canonical, mapped and made of whole entries, valid slots have a nonzero
DEN, running slots stay invalid, AUX of slots 0 to 4 stays 0, and a running command shows no stale completion. -/
def Obligations.StepKeepsTheInvariant : Prop :=
  ∀ s t : State, Inv s → step s = .next t → Inv t

/-! ### The registers the engine writes (10_state.md section 3, 20_memory.md section 3) -/

/-- CTRL reads 0 at all times (R26); IRQ_EN reads its two bits (R35); ERR_EXP, ERR_ACT and ERR_IDX read the context at any
time (R36); BV_RESULT reads its value while no bit-vector command runs (R37), WHT_MAXABS while no WHT-family or analyzer
command runs (R38). Writes to the read-only ones do nothing, BUSY or IDLE, and do not set ACCERR (R79, R80). That a word
that is no command counts as none while it runs is the model's reading (log entry 14). -/
def Obligations.ResultRegisters : Prop :=
  ∀ (s : State) (v : Word) (rest : List BusEvent),
    (NextIsRead s 0x008 rest → Delivers s 0x008 0 rest) ∧
    (NextIsRead s 0x030 rest →
      ∃ e : Word, Delivers s 0x030 e rest ∧ e.extractLsb' 0 2 = s.irqEn ∧ e.extractLsb' 2 30 = 0) ∧
    (NextIsRead s 0x034 rest → Delivers s 0x034 s.errCtx.exp rest) ∧
    (NextIsRead s 0x038 rest → Delivers s 0x038 s.errCtx.act rest) ∧
    (NextIsRead s 0x03C rest → Delivers s 0x03C s.errCtx.idx rest) ∧
    (¬FamilyRuns s .bitVector → NextIsRead s 0x040 rest → Delivers s 0x040 s.bvResult rest) ∧
    (¬FamilyRuns s .transform → ¬FamilyRuns s .analyzer → NextIsRead s 0x044 rest →
      Delivers s 0x044 s.whtMaxAbs rest) ∧
    ∀ off ∈ [0x034, 0x038, 0x03C, 0x040, 0x044], NextIsWrite s off v rest → OnlyConsumed s rest

/-- The slot registers (R40, R41): NUM, DEN and AUX read what the slot holds (AUX reads 0 in slots 0 to 4) while no running
command writes the slot; VALID reads its bit at any time; writes do nothing, BUSY or IDLE, and do not set ACCERR
(R79, R80). -/
def Obligations.SlotRegisters : Prop :=
  ∀ (s : State) (k : Metric) (v : Word) (rest : List BusEvent),
    (¬SlotRuns s k →
      (NextIsRead s (slotBase k) rest → Delivers s (slotBase k) (s.slots.get k).num rest) ∧
      (NextIsRead s (slotBase k + 0x4) rest → Delivers s (slotBase k + 0x4) (s.slots.get k).den rest) ∧
      (NextIsRead s (slotBase k + 0x8) rest →
        Delivers s (slotBase k + 0x8) (if k = .bicSac then (s.slots.get k).aux else 0) rest)) ∧
    (NextIsRead s (slotBase k + 0xC) rest →
      Delivers s (slotBase k + 0xC) (if (s.slots.get k).valid = true then 1 else 0) rest) ∧
    ∀ f ∈ [0x0, 0x4, 0x8, 0xC], NextIsWrite s (slotBase k + f) v rest → OnlyConsumed s rest
end

