-- ==== Sys2Proof/Laws/Memory.lean ====
section
/-! SUPPORT. The laws of memory: a read after a write gives what was written, a write leaves every other byte alone,
and every write keeps the canonical form. -/

namespace Sys2Proof.Machine

/-! ### Byte order -/

@[simp] theorem bytesOfWord_length (w : Word) : (bytesOfWord w).length = 4 := rfl

@[simp] theorem wordOfBytes_bytes (w : Word) :
    wordOfBytes (w.extractLsb' 0 8) (w.extractLsb' 8 8) (w.extractLsb' 16 8) (w.extractLsb' 24 8) = w := by
  unfold wordOfBytes
  ext i hi
  simp only [BitVec.getElem_append, BitVec.getElem_extractLsb']
  split
  · simp [BitVec.getLsbD_eq_getElem hi]
  · split
    · rw [show 8 + (i - 8) = i by omega]; simp [BitVec.getLsbD_eq_getElem hi]
    · split
      · rw [show 16 + (i - 8 - 8) = i by omega]; simp [BitVec.getLsbD_eq_getElem hi]
      · rw [show 24 + (i - 8 - 8 - 8) = i by omega]; simp [BitVec.getLsbD_eq_getElem hi]

/-- Bit k of the word made of four bytes is a bit of byte k / 8 (R76). -/
theorem getLsbD_wordOfBytes (b0 b1 b2 b3 : Byte) (k : Nat) :
    (wordOfBytes b0 b1 b2 b3).getLsbD k =
      if k < 8 then b0.getLsbD k else if k < 16 then b1.getLsbD (k - 8)
      else if k < 24 then b2.getLsbD (k - 16) else b3.getLsbD (k - 24) := by
  show BitVec.getLsbD (w := 8 + 8 + 8 + 8) (b3 ++ b2 ++ b1 ++ b0) k = _
  simp only [BitVec.getLsbD_append]
  by_cases h0 : k < 8
  · simp [h0]
  · by_cases h1 : k < 16
    · simp [h0, h1, show k - 8 < 8 by omega]
    · by_cases h2 : k < 24
      · simp [h0, h1, h2, show ¬ k - 8 < 8 by omega, show k - 16 < 8 by omega, Nat.sub_sub]
      · simp [h0, h1, h2, show ¬ k - 8 < 8 by omega, show ¬ k - 16 < 8 by omega, Nat.sub_sub]

/-- The bytes of the word made of four bytes are those bytes (R76). -/
theorem bytesOfWord_wordOfBytes (b0 b1 b2 b3 : Byte) : bytesOfWord (wordOfBytes b0 b1 b2 b3) = [b0, b1, b2, b3] := by
  unfold bytesOfWord
  congr 1
  · ext i hi; simp [BitVec.getElem_extractLsb', getLsbD_wordOfBytes, hi]
  congr 1
  · ext i hi
    simp [BitVec.getElem_extractLsb', getLsbD_wordOfBytes, show 8 + i < 16 by omega, BitVec.getLsbD_eq_getElem hi]
  congr 1
  · ext i hi
    simp [BitVec.getElem_extractLsb', getLsbD_wordOfBytes, show ¬ 16 + i < 8 by omega, show 16 + i < 24 by omega,
      BitVec.getLsbD_eq_getElem hi]
  congr 1
  · ext i hi
    simp [BitVec.getElem_extractLsb', getLsbD_wordOfBytes, show ¬ 24 + i < 8 by omega, show ¬ 24 + i < 16 by omega,
      BitVec.getLsbD_eq_getElem hi]

@[simp] theorem flatMap_bytes_length (ws : List Word) : (ws.flatMap bytesOfWord).length = 4 * ws.length := by
  induction ws with
  | nil => rfl
  | cons w ws ih => simp [List.flatMap_cons, ih]; omega

/-- Byte 4x + j of the words' bytes is byte j of word x. -/
theorem flatMap_bytes_getElem? (ws : List Word) (x j : Nat) (hj : j < 4) :
    (ws.flatMap bytesOfWord)[4 * x + j]? = ws[x]?.bind (fun w => (bytesOfWord w)[j]?) := by
  induction ws generalizing x with
  | nil => simp
  | cons w ws ih =>
    rw [List.flatMap_cons]
    cases x with
    | zero => rw [List.getElem?_append_left (by simpa using hj)]; simp
    | succ x =>
      rw [List.getElem?_append_right (by simp; omega), bytesOfWord_length,
        show 4 * (x + 1) + j - 4 = 4 * x + j by omega, ih]
      simp

/-! ### Reading bytes -/

@[simp] theorem readByte_nil (a : Nat) : Memory.readByte [] a = none := rfl

theorem readByte_append (m m' : Memory) (a : Nat) :
    Memory.readByte (m ++ m') a = (m.readByte a).or (m'.readByte a) := by
  induction m with
  | nil => simp
  | cons c m ih =>
    obtain ⟨b, v⟩ := c
    by_cases h : b = a <;> simp [Memory.readByte, h, ih]

theorem readByte_filter (m : Memory) (p : Nat → Bool) (a : Nat) :
    Memory.readByte (m.filter (fun c => p c.1)) a = if p a then m.readByte a else none := by
  induction m with
  | nil => simp
  | cons c m ih =>
    obtain ⟨b, v⟩ := c
    by_cases hb : p b <;> by_cases h : b = a <;> simp_all [Memory.readByte]

theorem readByte_cellsAt (a : Nat) (bs : List Byte) (x : Nat) :
    (cellsAt a bs).readByte x = if a ≤ x then bs[x - a]? else none := by
  induction bs generalizing a with
  | nil => simp [cellsAt]
  | cons b bs ih =>
    simp only [cellsAt, Memory.readByte, ih]
    by_cases h : a = x
    · simp [h]
    · by_cases h2 : a ≤ x
      · have h3 : a + 1 ≤ x := by omega
        rw [if_neg h, if_pos h3, if_pos h2, show x - a = (x - (a + 1)) + 1 by omega, List.getElem?_cons_succ]
      · have h3 : ¬ a + 1 ≤ x := by omega
        rw [if_neg h, if_neg h3, if_neg h2]

/-- The one law of a block write: inside the block the new bytes, outside it the old ones. -/
theorem readByte_writeBytes (m : Memory) (a : Nat) (bs : List Byte) (x : Nat) :
    (m.writeBytes a bs).readByte x = if a ≤ x ∧ x < a + bs.length then bs[x - a]? else m.readByte x := by
  unfold Memory.writeBytes
  rw [readByte_append, readByte_append, readByte_filter m (fun y => decide (y < a)) x,
    readByte_filter m (fun y => decide (a + bs.length ≤ y)) x, readByte_cellsAt]
  by_cases h1 : x < a
  · simp [h1, show ¬ a ≤ x by omega, show ¬ a + bs.length ≤ x by omega]
  · by_cases h2 : x < a + bs.length
    · have hlt : x - a < bs.length := by omega
      simp [h1, h2, show a ≤ x by omega, List.getElem?_eq_getElem hlt]
    · simp [h1, h2, show a ≤ x by omega, show a + bs.length ≤ x by omega,
        List.getElem?_eq_none (show bs.length ≤ x - a by omega)]

theorem readByte_writeWords_outside (m : Memory) (a : Nat) (ws : List Word) (x : Nat)
    (h : x < a ∨ a + 4 * ws.length ≤ x) : (m.writeWords a ws).readByte x = m.readByte x := by
  rw [Memory.writeWords, readByte_writeBytes, flatMap_bytes_length, if_neg (by omega)]

theorem readByte_writeWords_inside (m : Memory) (a : Nat) (ws : List Word) (x j : Nat) (hx : x < ws.length)
    (hj : j < 4) : (m.writeWords a ws).readByte (a + 4 * x + j) = ws[x]?.bind (fun w => (bytesOfWord w)[j]?) := by
  rw [Memory.writeWords, readByte_writeBytes, flatMap_bytes_length, if_pos (by omega),
    show a + 4 * x + j - a = 4 * x + j by omega, flatMap_bytes_getElem? _ _ _ hj]

/-! ### Reading words -/

/-- A word depends only on its four bytes. -/
theorem readWord_congr {m m' : Memory} {a : Nat} (h : ∀ j < 4, m'.readByte (a + j) = m.readByte (a + j)) :
    m'.readWord a = m.readWord a := by
  have h0 := h 0 (by omega); have h1 := h 1 (by omega); have h2 := h 2 (by omega); have h3 := h 3 (by omega)
  simp only [Nat.add_zero] at h0
  simp only [Memory.readWord, h0, h1, h2, h3]

/-- What a word read gives, by its bytes. -/
theorem readWord_eq_some {m : Memory} {a : Nat} {w : Word} :
    m.readWord a = some w ↔ ∀ j < 4, m.readByte (a + j) = (bytesOfWord w)[j]? := by
  constructor
  · intro h j hj
    simp only [Memory.readWord] at h
    split at h
    · next b0 b1 b2 b3 h0 h1 h2 h3 =>
      simp only [Option.some.injEq] at h
      subst h
      rw [bytesOfWord_wordOfBytes]
      interval_cases j <;> simp_all
    · exact absurd h (by simp)
  · intro h
    have h0 := h 0 (by omega); have h1 := h 1 (by omega); have h2 := h 2 (by omega); have h3 := h 3 (by omega)
    simp only [Nat.add_zero] at h0
    simp only [Memory.readWord, h0, h1, h2, h3, bytesOfWord]
    simp

/-- Reading back entry x of the words written (R79). -/
theorem readWord_writeWords_inside (m : Memory) (a : Nat) (ws : List Word) (x : Nat) (hx : x < ws.length) :
    (m.writeWords a ws).readWord (a + 4 * x) = ws[x]? := by
  rw [List.getElem?_eq_getElem hx, readWord_eq_some]
  intro j hj
  rw [readByte_writeWords_inside _ _ _ _ _ hx hj, List.getElem?_eq_getElem hx]
  rfl

/-- A word that lies outside the words written is as before. -/
theorem readWord_writeWords_outside (m : Memory) (a : Nat) (ws : List Word) (b : Nat)
    (h : b + 4 ≤ a ∨ a + 4 * ws.length ≤ b) : (m.writeWords a ws).readWord b = m.readWord b :=
  readWord_congr fun j hj => readByte_writeWords_outside _ _ _ _ (by omega)

/-- A written entry is written whole: its first byte says so. -/
theorem readWord_isSome_iff {m : Memory} {a : Nat} :
    (m.readWord a).isSome ↔ ∀ j < 4, (m.readByte (a + j)).isSome := by
  constructor
  · intro h j hj
    obtain ⟨w, hw⟩ := Option.isSome_iff_exists.1 h
    rw [readWord_eq_some.1 hw j hj]
    interval_cases j <;> rfl
  · intro h
    obtain ⟨b0, h0⟩ := Option.isSome_iff_exists.1 (h 0 (by omega))
    obtain ⟨b1, h1⟩ := Option.isSome_iff_exists.1 (h 1 (by omega))
    obtain ⟨b2, h2⟩ := Option.isSome_iff_exists.1 (h 2 (by omega))
    obtain ⟨b3, h3⟩ := Option.isSome_iff_exists.1 (h 3 (by omega))
    simp only [Nat.add_zero] at h0
    simp [Memory.readWord, h0, h1, h2, h3]

/-! ### The canonical form -/

theorem mem_cellsAt {a : Nat} {bs : List Byte} {c : Host.Cell} (h : c ∈ cellsAt a bs) :
    a ≤ c.1 ∧ c.1 < a + bs.length := by
  induction bs generalizing a with
  | nil => simp [cellsAt] at h
  | cons b bs ih =>
    simp only [cellsAt, List.mem_cons] at h
    rcases h with h | h
    · subst h; simp
    · have := ih h; simp only [List.length_cons]; omega

theorem cellsAt_wf (a : Nat) (bs : List Byte) : (cellsAt a bs).wf := by
  induction bs generalizing a with
  | nil => exact List.Pairwise.nil
  | cons b bs ih => exact List.Pairwise.cons (fun c hc => by have := mem_cellsAt hc; omega) (ih (a + 1))

/-- A block write keeps the canonical form. -/
theorem wf_writeBytes {m : Memory} (h : m.wf) (a : Nat) (bs : List Byte) : (m.writeBytes a bs).wf := by
  unfold Memory.writeBytes Memory.wf
  rw [List.pairwise_append, List.pairwise_append]
  refine ⟨⟨h.filter _, cellsAt_wf a bs, ?_⟩, h.filter _, ?_⟩
  · intro c hc d hd
    have h1 := (List.mem_filter.1 hc).2
    have h2 := mem_cellsAt hd
    simp only [decide_eq_true_eq] at h1
    omega
  · intro c hc d hd
    have h2 := (List.mem_filter.1 hd).2
    simp only [decide_eq_true_eq] at h2
    rcases List.mem_append.1 hc with h1 | h1
    · have h3 := (List.mem_filter.1 h1).2
      simp only [decide_eq_true_eq] at h3
      omega
    · have h3 := mem_cellsAt h1
      omega

/-- Writing words keeps the canonical form. -/
theorem wf_writeWords {m : Memory} (h : m.wf) (a : Nat) (ws : List Word) : (m.writeWords a ws).wf :=
  wf_writeBytes h a _

/-- Memory right after reset is in canonical form. -/
theorem wf_reset : State.reset.mem.wf := List.Pairwise.nil

/-- In canonical form a listed cell is what its address reads as. -/
theorem readByte_of_mem {m : Memory} (h : m.wf) {c : Host.Cell} (hc : c ∈ m) : m.readByte c.1 = some c.2 := by
  induction m with
  | nil => simp at hc
  | cons d m ih =>
    obtain ⟨b, v⟩ := d
    rcases List.mem_cons.1 hc with hc | hc
    · subst hc; simp [Memory.readByte]
    · have hlt := (List.pairwise_cons.1 h).1 c hc
      simp only [Memory.readByte]
      rw [if_neg (by simp only at hlt; omega)]
      exact ih (List.pairwise_cons.1 h).2 hc

/-- An address that reads as a byte is listed. -/
theorem mem_of_readByte {m : Memory} {a : Nat} {v : Byte} (h : m.readByte a = some v) : (a, v) ∈ m := by
  induction m with
  | nil => simp at h
  | cons d m ih =>
    obtain ⟨b, u⟩ := d
    simp only [Memory.readByte] at h
    split at h
    · next hb => subst hb; simp only [Option.some.injEq] at h; subst h; simp
    · exact List.mem_cons_of_mem _ (ih h)

/-- Two memories in canonical form that read alike are equal: equal memories are equal data. -/
theorem memory_ext {m m' : Memory} (h : m.wf) (h' : m'.wf) (heq : ∀ a, m.readByte a = m'.readByte a) : m = m' := by
  have hnd {k : Memory} (hk : k.wf) : k.Pairwise (fun c d => c ≠ d) :=
    hk.imp (fun hlt he => by rw [he] at hlt; omega)
  have hp : m.Perm m' := by
    refine (List.perm_ext_iff_of_nodup (hnd h) (hnd h')).2 fun c => ?_
    constructor
    · intro hc; exact mem_of_readByte (by rw [← heq]; exact readByte_of_mem h hc)
    · intro hc; exact mem_of_readByte (by rw [heq]; exact readByte_of_mem h' hc)
  refine hp.eq_of_pairwise (fun c d _ _ h1 h2 => absurd h1 (by omega)) h h'

end Sys2Proof.Machine
end

