-- ==== Sys2Proof/Laws/Bits.lean ====
section
/-! SUPPORT. The operators of R12 and R173: popcount by the bits of its operand, the largest element of a list, and the
rounding half to even. -/

namespace Sys2Proof.Machine

/-! ### popcount -/

/-- The count of the low k bits is the sum of those bits. -/
theorem countBits_eq_sum (k v : Nat) : countBits k v = ∑ j ∈ Finset.range k, (v.testBit j).toNat := by
  induction k generalizing v with
  | zero => rfl
  | succ k ih =>
    rw [countBits, ih, Finset.sum_range_succ', add_comm]
    congr 1
    · exact Finset.sum_congr rfl fun j _ => by rw [Nat.testBit_succ]
    · rcases Nat.mod_two_eq_zero_or_one v with h | h <;> simp [Nat.testBit_zero, h]

/-- popcount is the sum of the 32 bits (R12). -/
theorem popcount_eq_sum (v : Nat) : popcount v = ∑ j ∈ Finset.range 32, (v.testBit j).toNat := countBits_eq_sum 32 v

@[simp] theorem popcount_zero : popcount 0 = 0 := by decide

/-- Bit j of 2^k + y, for y below 2^k. -/
theorem testBit_twoPow_add {k y : Nat} (hy : y < 2 ^ k) (j : Nat) :
    (2 ^ k + y).testBit j = (decide (j = k) || y.testBit j) := by
  have h := Nat.testBit_two_pow_mul_add (i := k) 1 hy j
  rw [mul_one] at h
  rw [h]
  by_cases hj : j < k
  · simp [hj, show j ≠ k by omega]
  · have hz : y.testBit j = false :=
      Nat.testBit_lt_two_pow (lt_of_lt_of_le hy (Nat.pow_le_pow_right (by omega) (by omega)))
    simp only [hj, if_false, hz, Bool.or_false]
    by_cases h2 : j = k
    · simp [h2]
    · obtain ⟨d, hd⟩ : ∃ d, j - k = d + 1 := ⟨j - k - 1, by omega⟩
      rw [hd, Nat.testBit_succ]; simp [h2]

/-- A bit above y adds one to its popcount. -/
theorem popcount_twoPow_add {k y : Nat} (hk : k < 32) (hy : y < 2 ^ k) : popcount (2 ^ k + y) = popcount y + 1 := by
  have h : ∀ j ∈ Finset.range 32, ((2 ^ k + y).testBit j).toNat = (y.testBit j).toNat + if j = k then 1 else 0 := by
    intro j _
    rw [testBit_twoPow_add hy]
    by_cases hj : j = k
    · subst hj; simp [Nat.testBit_lt_two_pow hy]
    · simp [hj]
  rw [popcount_eq_sum, popcount_eq_sum, Finset.sum_congr rfl h, Finset.sum_add_distrib]
  simp [hk]

/-! ### maxOf -/

theorem le_foldl_max (l : List Nat) (a : Nat) : a ≤ l.foldl max a ∧ ∀ x ∈ l, x ≤ l.foldl max a := by
  induction l generalizing a with
  | nil => simp
  | cons b l ih =>
    obtain ⟨h1, h2⟩ := ih (max a b)
    refine ⟨by simp only [List.foldl_cons]; omega, fun x hx => ?_⟩
    rcases List.mem_cons.1 hx with rfl | hx
    · simp only [List.foldl_cons]; omega
    · exact h2 x hx

theorem foldl_max_mem (l : List Nat) (a : Nat) : l.foldl max a = a ∨ l.foldl max a ∈ l := by
  induction l generalizing a with
  | nil => simp
  | cons b l ih =>
    simp only [List.foldl_cons]
    rcases ih (max a b) with h | h
    · rw [h]
      rcases le_total a b with h' | h'
      · right; simp [h']
      · left; simp [h']
    · right; exact List.mem_cons_of_mem _ h

/-- The largest element bounds every element. -/
theorem le_maxOf {l : List Nat} {x : Nat} (h : x ∈ l) : x ≤ maxOf l := (le_foldl_max l 0).2 x h

/-- The largest element of a list that is not empty is one of its elements. -/
theorem maxOf_mem {l : List Nat} (h : l ≠ []) : maxOf l ∈ l := by
  rcases foldl_max_mem l 0 with h' | h'
  · obtain ⟨b, tl, rfl⟩ := List.exists_cons_of_ne_nil h
    have hb : b ≤ maxOf (b :: tl) := le_maxOf (by simp)
    have h0 : maxOf (b :: tl) = 0 := h'
    rw [h0, show b = 0 by omega]
    simp
  · exact h'

/-! ### roundHalfEven -/

/-- The rounding is within half of the quotient, and even when halfway (R173), on integers. -/
theorem roundHalfEven_cases {num den : Nat} (hd : 0 < den) :
    2 * num < den * (2 * roundHalfEven num den + 1) ∧ den * (2 * roundHalfEven num den) < 2 * num + den ∨
      roundHalfEven num den % 2 = 0 ∧ (2 * num = den * (2 * roundHalfEven num den + 1) ∨
        2 * num + den = den * (2 * roundHalfEven num den)) := by
  have hdm := Nat.div_add_mod num den
  have hlt := Nat.mod_lt num hd
  unfold roundHalfEven
  simp only
  generalize num / den = q at *
  generalize num % den = r at *
  subst hdm
  have e1 : den * (2 * q + 1) = 2 * (den * q) + den := by ring
  have e2 : den * (2 * q) = 2 * (den * q) := by ring
  have e3 : den * (2 * (q + 1) + 1) = 2 * (den * q) + 3 * den := by ring
  have e4 : den * (2 * (q + 1)) = 2 * (den * q) + 2 * den := by ring
  split
  · left; rw [e1, e2]; omega
  · split
    · left; rw [e3, e4]; omega
    · split
      · right; exact ⟨‹_›, .inl (by rw [e1]; omega)⟩
      · right; exact ⟨by omega, .inr (by rw [e4]; omega)⟩

end Sys2Proof.Machine
end

