-- ==== Sys2Proof/Laws/State.lean ====
section
/-! SUPPORT. One lemma per field of State per named update, each true by rfl, so that no proof unfolds a record
update. -/

namespace Sys2Proof.Machine

variable (s : State)

/-! ### clearStatus -/

@[simp] theorem clearStatus_part (v : Word) : (clearStatus v s).part = s.part := rfl
@[simp] theorem clearStatus_phase (v : Word) : (clearStatus v s).phase = s.phase := rfl
@[simp] theorem clearStatus_regs (v : Word) : (clearStatus v s).regs = s.regs := rfl
@[simp] theorem clearStatus_irqEn (v : Word) : (clearStatus v s).irqEn = s.irqEn := rfl
@[simp] theorem clearStatus_flags (v : Word) : (clearStatus v s).flags = { s.flags with done := s.flags.done && !v.getLsbD 1, err := s.flags.err && !v.getLsbD 2, accErr := s.flags.accErr && !v.getLsbD 3 } := rfl
@[simp] theorem clearStatus_errCtx (v : Word) : (clearStatus v s).errCtx = s.errCtx := rfl
@[simp] theorem clearStatus_bvResult (v : Word) : (clearStatus v s).bvResult = s.bvResult := rfl
@[simp] theorem clearStatus_whtMaxAbs (v : Word) : (clearStatus v s).whtMaxAbs = s.whtMaxAbs := rfl
@[simp] theorem clearStatus_slots (v : Word) : (clearStatus v s).slots = s.slots := rfl
@[simp] theorem clearStatus_mem (v : Word) : (clearStatus v s).mem = s.mem := rfl
@[simp] theorem clearStatus_draws (v : Word) : (clearStatus v s).draws = s.draws := rfl
@[simp] theorem clearStatus_inbox (v : Word) : (clearStatus v s).inbox = s.inbox := rfl
@[simp] theorem clearStatus_replies (v : Word) : (clearStatus v s).replies = s.replies := rfl

/-! ### setAccErr -/

@[simp] theorem setAccErr_part : (setAccErr s).part = s.part := rfl
@[simp] theorem setAccErr_phase : (setAccErr s).phase = s.phase := rfl
@[simp] theorem setAccErr_regs : (setAccErr s).regs = s.regs := rfl
@[simp] theorem setAccErr_irqEn : (setAccErr s).irqEn = s.irqEn := rfl
@[simp] theorem setAccErr_flags : (setAccErr s).flags = { s.flags with accErr := true } := rfl
@[simp] theorem setAccErr_errCtx : (setAccErr s).errCtx = s.errCtx := rfl
@[simp] theorem setAccErr_bvResult : (setAccErr s).bvResult = s.bvResult := rfl
@[simp] theorem setAccErr_whtMaxAbs : (setAccErr s).whtMaxAbs = s.whtMaxAbs := rfl
@[simp] theorem setAccErr_slots : (setAccErr s).slots = s.slots := rfl
@[simp] theorem setAccErr_mem : (setAccErr s).mem = s.mem := rfl
@[simp] theorem setAccErr_draws : (setAccErr s).draws = s.draws := rfl
@[simp] theorem setAccErr_inbox : (setAccErr s).inbox = s.inbox := rfl
@[simp] theorem setAccErr_replies : (setAccErr s).replies = s.replies := rfl

/-! ### beginCommand -/

@[simp] theorem beginCommand_part (w : Word) : (beginCommand w s).part = s.part := rfl
@[simp] theorem beginCommand_phase (w : Word) : (beginCommand w s).phase = .busy w := rfl
@[simp] theorem beginCommand_regs (w : Word) : (beginCommand w s).regs = s.regs := rfl
@[simp] theorem beginCommand_irqEn (w : Word) : (beginCommand w s).irqEn = s.irqEn := rfl
@[simp] theorem beginCommand_flags (w : Word) : (beginCommand w s).flags = { s.flags with done := false, err := false, errCode := .none } := rfl
@[simp] theorem beginCommand_errCtx (w : Word) : (beginCommand w s).errCtx = ⟨0, 0, 0⟩ := rfl
@[simp] theorem beginCommand_bvResult (w : Word) : (beginCommand w s).bvResult = s.bvResult := rfl
@[simp] theorem beginCommand_whtMaxAbs (w : Word) : (beginCommand w s).whtMaxAbs = s.whtMaxAbs := rfl
@[simp] theorem beginCommand_slots (w : Word) : (beginCommand w s).slots = s.slots := rfl
@[simp] theorem beginCommand_mem (w : Word) : (beginCommand w s).mem = s.mem := rfl
@[simp] theorem beginCommand_draws (w : Word) : (beginCommand w s).draws = s.draws := rfl
@[simp] theorem beginCommand_inbox (w : Word) : (beginCommand w s).inbox = s.inbox := rfl
@[simp] theorem beginCommand_replies (w : Word) : (beginCommand w s).replies = s.replies := rfl

/-! ### endOk -/

@[simp] theorem endOk_part : (endOk s).part = s.part := rfl
@[simp] theorem endOk_phase : (endOk s).phase = .idle := rfl
@[simp] theorem endOk_regs : (endOk s).regs = s.regs := rfl
@[simp] theorem endOk_irqEn : (endOk s).irqEn = s.irqEn := rfl
@[simp] theorem endOk_flags : (endOk s).flags = { s.flags with done := true, errCode := .none } := rfl
@[simp] theorem endOk_errCtx : (endOk s).errCtx = s.errCtx := rfl
@[simp] theorem endOk_bvResult : (endOk s).bvResult = s.bvResult := rfl
@[simp] theorem endOk_whtMaxAbs : (endOk s).whtMaxAbs = s.whtMaxAbs := rfl
@[simp] theorem endOk_slots : (endOk s).slots = s.slots := rfl
@[simp] theorem endOk_mem : (endOk s).mem = s.mem := rfl
@[simp] theorem endOk_draws : (endOk s).draws = s.draws := rfl
@[simp] theorem endOk_inbox : (endOk s).inbox = s.inbox := rfl
@[simp] theorem endOk_replies : (endOk s).replies = s.replies := rfl

/-! ### endError -/

@[simp] theorem endError_part (c : ErrCode) (e a i : Word) : (endError c e a i s).part = s.part := rfl
@[simp] theorem endError_phase (c : ErrCode) (e a i : Word) : (endError c e a i s).phase = .idle := rfl
@[simp] theorem endError_regs (c : ErrCode) (e a i : Word) : (endError c e a i s).regs = s.regs := rfl
@[simp] theorem endError_irqEn (c : ErrCode) (e a i : Word) : (endError c e a i s).irqEn = s.irqEn := rfl
@[simp] theorem endError_flags (c : ErrCode) (e a i : Word) : (endError c e a i s).flags = { s.flags with done := true, err := true, errCode := c } := rfl
@[simp] theorem endError_errCtx (c : ErrCode) (e a i : Word) : (endError c e a i s).errCtx = ⟨e, a, i⟩ := rfl
@[simp] theorem endError_bvResult (c : ErrCode) (e a i : Word) : (endError c e a i s).bvResult = s.bvResult := rfl
@[simp] theorem endError_whtMaxAbs (c : ErrCode) (e a i : Word) : (endError c e a i s).whtMaxAbs = s.whtMaxAbs := rfl
@[simp] theorem endError_slots (c : ErrCode) (e a i : Word) : (endError c e a i s).slots = s.slots := rfl
@[simp] theorem endError_mem (c : ErrCode) (e a i : Word) : (endError c e a i s).mem = s.mem := rfl
@[simp] theorem endError_draws (c : ErrCode) (e a i : Word) : (endError c e a i s).draws = s.draws := rfl
@[simp] theorem endError_inbox (c : ErrCode) (e a i : Word) : (endError c e a i s).inbox = s.inbox := rfl
@[simp] theorem endError_replies (c : ErrCode) (e a i : Word) : (endError c e a i s).replies = s.replies := rfl

/-! ### unspecifyBuf -/

@[simp] theorem unspecifyBuf_part (k : Nat) : (unspecifyBuf k s).part = s.part := rfl
@[simp] theorem unspecifyBuf_phase (k : Nat) : (unspecifyBuf k s).phase = s.phase := rfl
@[simp] theorem unspecifyBuf_regs (k : Nat) : (unspecifyBuf k s).regs = s.regs := rfl
@[simp] theorem unspecifyBuf_irqEn (k : Nat) : (unspecifyBuf k s).irqEn = s.irqEn := rfl
@[simp] theorem unspecifyBuf_flags (k : Nat) : (unspecifyBuf k s).flags = s.flags := rfl
@[simp] theorem unspecifyBuf_errCtx (k : Nat) : (unspecifyBuf k s).errCtx = s.errCtx := rfl
@[simp] theorem unspecifyBuf_bvResult (k : Nat) : (unspecifyBuf k s).bvResult = s.bvResult := rfl
@[simp] theorem unspecifyBuf_whtMaxAbs (k : Nat) : (unspecifyBuf k s).whtMaxAbs = s.whtMaxAbs := rfl
@[simp] theorem unspecifyBuf_slots (k : Nat) : (unspecifyBuf k s).slots = s.slots := rfl
@[simp] theorem unspecifyBuf_mem (k : Nat) : (unspecifyBuf k s).mem = s.mem.writeWords (bufOff 0) (freeWords k s) := rfl
@[simp] theorem unspecifyBuf_draws (k : Nat) : (unspecifyBuf k s).draws = s.draws + k := rfl
@[simp] theorem unspecifyBuf_inbox (k : Nat) : (unspecifyBuf k s).inbox = s.inbox := rfl
@[simp] theorem unspecifyBuf_replies (k : Nat) : (unspecifyBuf k s).replies = s.replies := rfl

/-! ### unspecifyMaxAbs -/

@[simp] theorem unspecifyMaxAbs_part : (unspecifyMaxAbs s).part = s.part := rfl
@[simp] theorem unspecifyMaxAbs_phase : (unspecifyMaxAbs s).phase = s.phase := rfl
@[simp] theorem unspecifyMaxAbs_regs : (unspecifyMaxAbs s).regs = s.regs := rfl
@[simp] theorem unspecifyMaxAbs_irqEn : (unspecifyMaxAbs s).irqEn = s.irqEn := rfl
@[simp] theorem unspecifyMaxAbs_flags : (unspecifyMaxAbs s).flags = s.flags := rfl
@[simp] theorem unspecifyMaxAbs_errCtx : (unspecifyMaxAbs s).errCtx = s.errCtx := rfl
@[simp] theorem unspecifyMaxAbs_bvResult : (unspecifyMaxAbs s).bvResult = s.bvResult := rfl
@[simp] theorem unspecifyMaxAbs_whtMaxAbs : (unspecifyMaxAbs s).whtMaxAbs = Config.freeWord s.draws := rfl
@[simp] theorem unspecifyMaxAbs_slots : (unspecifyMaxAbs s).slots = s.slots := rfl
@[simp] theorem unspecifyMaxAbs_mem : (unspecifyMaxAbs s).mem = s.mem := rfl
@[simp] theorem unspecifyMaxAbs_draws : (unspecifyMaxAbs s).draws = s.draws + 1 := rfl
@[simp] theorem unspecifyMaxAbs_inbox : (unspecifyMaxAbs s).inbox = s.inbox := rfl
@[simp] theorem unspecifyMaxAbs_replies : (unspecifyMaxAbs s).replies = s.replies := rfl

/-! ### clobberBuffer -/

@[simp] theorem clobberBuffer_part : (clobberBuffer s).part = s.part := rfl
@[simp] theorem clobberBuffer_phase : (clobberBuffer s).phase = s.phase := rfl
@[simp] theorem clobberBuffer_regs : (clobberBuffer s).regs = s.regs := rfl
@[simp] theorem clobberBuffer_irqEn : (clobberBuffer s).irqEn = s.irqEn := rfl
@[simp] theorem clobberBuffer_flags : (clobberBuffer s).flags = s.flags := rfl
@[simp] theorem clobberBuffer_errCtx : (clobberBuffer s).errCtx = s.errCtx := rfl
@[simp] theorem clobberBuffer_bvResult : (clobberBuffer s).bvResult = s.bvResult := rfl
@[simp] theorem clobberBuffer_whtMaxAbs : (clobberBuffer s).whtMaxAbs = Config.freeWord (s.draws + 2 ^ s.part.nmax) := rfl
@[simp] theorem clobberBuffer_slots : (clobberBuffer s).slots = s.slots := rfl
@[simp] theorem clobberBuffer_mem : (clobberBuffer s).mem = s.mem.writeWords (bufOff 0) (freeWords (2 ^ s.part.nmax) s) := rfl
@[simp] theorem clobberBuffer_draws : (clobberBuffer s).draws = s.draws + 2 ^ s.part.nmax + 1 := rfl
@[simp] theorem clobberBuffer_inbox : (clobberBuffer s).inbox = s.inbox := rfl
@[simp] theorem clobberBuffer_replies : (clobberBuffer s).replies = s.replies := rfl

/-! ### zeroSlots -/

@[simp] theorem zeroSlots_part (ks : List Metric) : (zeroSlots ks s).part = s.part := rfl
@[simp] theorem zeroSlots_phase (ks : List Metric) : (zeroSlots ks s).phase = s.phase := rfl
@[simp] theorem zeroSlots_regs (ks : List Metric) : (zeroSlots ks s).regs = s.regs := rfl
@[simp] theorem zeroSlots_irqEn (ks : List Metric) : (zeroSlots ks s).irqEn = s.irqEn := rfl
@[simp] theorem zeroSlots_flags (ks : List Metric) : (zeroSlots ks s).flags = s.flags := rfl
@[simp] theorem zeroSlots_errCtx (ks : List Metric) : (zeroSlots ks s).errCtx = s.errCtx := rfl
@[simp] theorem zeroSlots_bvResult (ks : List Metric) : (zeroSlots ks s).bvResult = s.bvResult := rfl
@[simp] theorem zeroSlots_whtMaxAbs (ks : List Metric) : (zeroSlots ks s).whtMaxAbs = s.whtMaxAbs := rfl
@[simp] theorem zeroSlots_slots (ks : List Metric) : (zeroSlots ks s).slots = s.slots.setAll (fun _ => Slot.zero) ks := rfl
@[simp] theorem zeroSlots_mem (ks : List Metric) : (zeroSlots ks s).mem = s.mem := rfl
@[simp] theorem zeroSlots_draws (ks : List Metric) : (zeroSlots ks s).draws = s.draws := rfl
@[simp] theorem zeroSlots_inbox (ks : List Metric) : (zeroSlots ks s).inbox = s.inbox := rfl
@[simp] theorem zeroSlots_replies (ks : List Metric) : (zeroSlots ks s).replies = s.replies := rfl

/-! ### setMaxAbs -/

@[simp] theorem setMaxAbs_part (v : Word) : (setMaxAbs v s).part = s.part := rfl
@[simp] theorem setMaxAbs_phase (v : Word) : (setMaxAbs v s).phase = s.phase := rfl
@[simp] theorem setMaxAbs_regs (v : Word) : (setMaxAbs v s).regs = s.regs := rfl
@[simp] theorem setMaxAbs_irqEn (v : Word) : (setMaxAbs v s).irqEn = s.irqEn := rfl
@[simp] theorem setMaxAbs_flags (v : Word) : (setMaxAbs v s).flags = s.flags := rfl
@[simp] theorem setMaxAbs_errCtx (v : Word) : (setMaxAbs v s).errCtx = s.errCtx := rfl
@[simp] theorem setMaxAbs_bvResult (v : Word) : (setMaxAbs v s).bvResult = s.bvResult := rfl
@[simp] theorem setMaxAbs_whtMaxAbs (v : Word) : (setMaxAbs v s).whtMaxAbs = v := rfl
@[simp] theorem setMaxAbs_slots (v : Word) : (setMaxAbs v s).slots = s.slots := rfl
@[simp] theorem setMaxAbs_mem (v : Word) : (setMaxAbs v s).mem = s.mem := rfl
@[simp] theorem setMaxAbs_draws (v : Word) : (setMaxAbs v s).draws = s.draws := rfl
@[simp] theorem setMaxAbs_inbox (v : Word) : (setMaxAbs v s).inbox = s.inbox := rfl
@[simp] theorem setMaxAbs_replies (v : Word) : (setMaxAbs v s).replies = s.replies := rfl

/-! ### setBvResult -/

@[simp] theorem setBvResult_part (v : Word) : (setBvResult v s).part = s.part := rfl
@[simp] theorem setBvResult_phase (v : Word) : (setBvResult v s).phase = s.phase := rfl
@[simp] theorem setBvResult_regs (v : Word) : (setBvResult v s).regs = s.regs := rfl
@[simp] theorem setBvResult_irqEn (v : Word) : (setBvResult v s).irqEn = s.irqEn := rfl
@[simp] theorem setBvResult_flags (v : Word) : (setBvResult v s).flags = s.flags := rfl
@[simp] theorem setBvResult_errCtx (v : Word) : (setBvResult v s).errCtx = s.errCtx := rfl
@[simp] theorem setBvResult_bvResult (v : Word) : (setBvResult v s).bvResult = v := rfl
@[simp] theorem setBvResult_whtMaxAbs (v : Word) : (setBvResult v s).whtMaxAbs = s.whtMaxAbs := rfl
@[simp] theorem setBvResult_slots (v : Word) : (setBvResult v s).slots = s.slots := rfl
@[simp] theorem setBvResult_mem (v : Word) : (setBvResult v s).mem = s.mem := rfl
@[simp] theorem setBvResult_draws (v : Word) : (setBvResult v s).draws = s.draws := rfl
@[simp] theorem setBvResult_inbox (v : Word) : (setBvResult v s).inbox = s.inbox := rfl
@[simp] theorem setBvResult_replies (v : Word) : (setBvResult v s).replies = s.replies := rfl

/-! ### writeSpectrum -/

@[simp] theorem writeSpectrum_part (l : List Int) : (writeSpectrum l s).part = s.part := rfl
@[simp] theorem writeSpectrum_phase (l : List Int) : (writeSpectrum l s).phase = s.phase := rfl
@[simp] theorem writeSpectrum_regs (l : List Int) : (writeSpectrum l s).regs = s.regs := rfl
@[simp] theorem writeSpectrum_irqEn (l : List Int) : (writeSpectrum l s).irqEn = s.irqEn := rfl
@[simp] theorem writeSpectrum_flags (l : List Int) : (writeSpectrum l s).flags = s.flags := rfl
@[simp] theorem writeSpectrum_errCtx (l : List Int) : (writeSpectrum l s).errCtx = s.errCtx := rfl
@[simp] theorem writeSpectrum_bvResult (l : List Int) : (writeSpectrum l s).bvResult = s.bvResult := rfl
@[simp] theorem writeSpectrum_whtMaxAbs (l : List Int) : (writeSpectrum l s).whtMaxAbs = BitVec.ofNat 32 (maxAbs l) := rfl
@[simp] theorem writeSpectrum_slots (l : List Int) : (writeSpectrum l s).slots = s.slots := rfl
@[simp] theorem writeSpectrum_mem (l : List Int) : (writeSpectrum l s).mem = s.mem.writeWords (bufOff 0) (l.map patternOf) := rfl
@[simp] theorem writeSpectrum_draws (l : List Int) : (writeSpectrum l s).draws = s.draws := rfl
@[simp] theorem writeSpectrum_inbox (l : List Int) : (writeSpectrum l s).inbox = s.inbox := rfl
@[simp] theorem writeSpectrum_replies (l : List Int) : (writeSpectrum l s).replies = s.replies := rfl

/-! ### writeResults -/

@[simp] theorem writeResults_part (ks : List Metric) (table : List Nat) : (writeResults ks table s).part = s.part := rfl
@[simp] theorem writeResults_phase (ks : List Metric) (table : List Nat) : (writeResults ks table s).phase = s.phase := rfl
@[simp] theorem writeResults_regs (ks : List Metric) (table : List Nat) : (writeResults ks table s).regs = s.regs := rfl
@[simp] theorem writeResults_irqEn (ks : List Metric) (table : List Nat) : (writeResults ks table s).irqEn = s.irqEn := rfl
@[simp] theorem writeResults_flags (ks : List Metric) (table : List Nat) : (writeResults ks table s).flags = s.flags := rfl
@[simp] theorem writeResults_errCtx (ks : List Metric) (table : List Nat) : (writeResults ks table s).errCtx = s.errCtx := rfl
@[simp] theorem writeResults_bvResult (ks : List Metric) (table : List Nat) : (writeResults ks table s).bvResult = s.bvResult := rfl
@[simp] theorem writeResults_whtMaxAbs (ks : List Metric) (table : List Nat) : (writeResults ks table s).whtMaxAbs = Config.freeWord (s.draws + 2 ^ s.part.nmax) := rfl
@[simp] theorem writeResults_slots (ks : List Metric) (table : List Nat) : (writeResults ks table s).slots = s.slots.setAll (metricSlot (opN s) (opM s) table) ks := rfl
@[simp] theorem writeResults_mem (ks : List Metric) (table : List Nat) : (writeResults ks table s).mem = s.mem.writeWords (bufOff 0) (freeWords (2 ^ s.part.nmax) s) := rfl
@[simp] theorem writeResults_draws (ks : List Metric) (table : List Nat) : (writeResults ks table s).draws = s.draws + 2 ^ s.part.nmax + 1 := rfl
@[simp] theorem writeResults_inbox (ks : List Metric) (table : List Nat) : (writeResults ks table s).inbox = s.inbox := rfl
@[simp] theorem writeResults_replies (ks : List Metric) (table : List Nat) : (writeResults ks table s).replies = s.replies := rfl

/-! ### addReply -/

@[simp] theorem addReply_part (a : Nat) (v : Word) : (addReply a v s).part = s.part := rfl
@[simp] theorem addReply_phase (a : Nat) (v : Word) : (addReply a v s).phase = s.phase := rfl
@[simp] theorem addReply_regs (a : Nat) (v : Word) : (addReply a v s).regs = s.regs := rfl
@[simp] theorem addReply_irqEn (a : Nat) (v : Word) : (addReply a v s).irqEn = s.irqEn := rfl
@[simp] theorem addReply_flags (a : Nat) (v : Word) : (addReply a v s).flags = s.flags := rfl
@[simp] theorem addReply_errCtx (a : Nat) (v : Word) : (addReply a v s).errCtx = s.errCtx := rfl
@[simp] theorem addReply_bvResult (a : Nat) (v : Word) : (addReply a v s).bvResult = s.bvResult := rfl
@[simp] theorem addReply_whtMaxAbs (a : Nat) (v : Word) : (addReply a v s).whtMaxAbs = s.whtMaxAbs := rfl
@[simp] theorem addReply_slots (a : Nat) (v : Word) : (addReply a v s).slots = s.slots := rfl
@[simp] theorem addReply_mem (a : Nat) (v : Word) : (addReply a v s).mem = s.mem := rfl
@[simp] theorem addReply_draws (a : Nat) (v : Word) : (addReply a v s).draws = s.draws := rfl
@[simp] theorem addReply_inbox (a : Nat) (v : Word) : (addReply a v s).inbox = s.inbox := rfl
@[simp] theorem addReply_replies (a : Nat) (v : Word) : (addReply a v s).replies = ⟨a, v⟩ :: s.replies := rfl

/-! ### writeOperand -/

@[simp] theorem writeOperand_part (r : RegName) (v : Word) : (writeOperand r v s).part = s.part := rfl
@[simp] theorem writeOperand_phase (r : RegName) (v : Word) : (writeOperand r v s).phase = s.phase := rfl
@[simp] theorem writeOperand_regs (r : RegName) (v : Word) : (writeOperand r v s).regs = s.regs.put v r := rfl
@[simp] theorem writeOperand_irqEn (r : RegName) (v : Word) : (writeOperand r v s).irqEn = s.irqEn := rfl
@[simp] theorem writeOperand_flags (r : RegName) (v : Word) : (writeOperand r v s).flags = s.flags := rfl
@[simp] theorem writeOperand_errCtx (r : RegName) (v : Word) : (writeOperand r v s).errCtx = s.errCtx := rfl
@[simp] theorem writeOperand_bvResult (r : RegName) (v : Word) : (writeOperand r v s).bvResult = s.bvResult := rfl
@[simp] theorem writeOperand_whtMaxAbs (r : RegName) (v : Word) : (writeOperand r v s).whtMaxAbs = s.whtMaxAbs := rfl
@[simp] theorem writeOperand_slots (r : RegName) (v : Word) : (writeOperand r v s).slots = s.slots := rfl
@[simp] theorem writeOperand_mem (r : RegName) (v : Word) : (writeOperand r v s).mem = s.mem := rfl
@[simp] theorem writeOperand_draws (r : RegName) (v : Word) : (writeOperand r v s).draws = s.draws := rfl
@[simp] theorem writeOperand_inbox (r : RegName) (v : Word) : (writeOperand r v s).inbox = s.inbox := rfl
@[simp] theorem writeOperand_replies (r : RegName) (v : Word) : (writeOperand r v s).replies = s.replies := rfl

/-! ### writeIrqEn -/

@[simp] theorem writeIrqEn_part (v : Word) : (writeIrqEn v s).part = s.part := rfl
@[simp] theorem writeIrqEn_phase (v : Word) : (writeIrqEn v s).phase = s.phase := rfl
@[simp] theorem writeIrqEn_regs (v : Word) : (writeIrqEn v s).regs = s.regs := rfl
@[simp] theorem writeIrqEn_irqEn (v : Word) : (writeIrqEn v s).irqEn = v.extractLsb' 0 2 := rfl
@[simp] theorem writeIrqEn_flags (v : Word) : (writeIrqEn v s).flags = s.flags := rfl
@[simp] theorem writeIrqEn_errCtx (v : Word) : (writeIrqEn v s).errCtx = s.errCtx := rfl
@[simp] theorem writeIrqEn_bvResult (v : Word) : (writeIrqEn v s).bvResult = s.bvResult := rfl
@[simp] theorem writeIrqEn_whtMaxAbs (v : Word) : (writeIrqEn v s).whtMaxAbs = s.whtMaxAbs := rfl
@[simp] theorem writeIrqEn_slots (v : Word) : (writeIrqEn v s).slots = s.slots := rfl
@[simp] theorem writeIrqEn_mem (v : Word) : (writeIrqEn v s).mem = s.mem := rfl
@[simp] theorem writeIrqEn_draws (v : Word) : (writeIrqEn v s).draws = s.draws := rfl
@[simp] theorem writeIrqEn_inbox (v : Word) : (writeIrqEn v s).inbox = s.inbox := rfl
@[simp] theorem writeIrqEn_replies (v : Word) : (writeIrqEn v s).replies = s.replies := rfl

/-! ### writeEntry -/

@[simp] theorem writeEntry_part (off : Nat) (v : Word) : (writeEntry off v s).part = s.part := rfl
@[simp] theorem writeEntry_phase (off : Nat) (v : Word) : (writeEntry off v s).phase = s.phase := rfl
@[simp] theorem writeEntry_regs (off : Nat) (v : Word) : (writeEntry off v s).regs = s.regs := rfl
@[simp] theorem writeEntry_irqEn (off : Nat) (v : Word) : (writeEntry off v s).irqEn = s.irqEn := rfl
@[simp] theorem writeEntry_flags (off : Nat) (v : Word) : (writeEntry off v s).flags = s.flags := rfl
@[simp] theorem writeEntry_errCtx (off : Nat) (v : Word) : (writeEntry off v s).errCtx = s.errCtx := rfl
@[simp] theorem writeEntry_bvResult (off : Nat) (v : Word) : (writeEntry off v s).bvResult = s.bvResult := rfl
@[simp] theorem writeEntry_whtMaxAbs (off : Nat) (v : Word) : (writeEntry off v s).whtMaxAbs = s.whtMaxAbs := rfl
@[simp] theorem writeEntry_slots (off : Nat) (v : Word) : (writeEntry off v s).slots = s.slots := rfl
@[simp] theorem writeEntry_mem (off : Nat) (v : Word) : (writeEntry off v s).mem = s.mem.writeWords off [v] := rfl
@[simp] theorem writeEntry_draws (off : Nat) (v : Word) : (writeEntry off v s).draws = s.draws := rfl
@[simp] theorem writeEntry_inbox (off : Nat) (v : Word) : (writeEntry off v s).inbox = s.inbox := rfl
@[simp] theorem writeEntry_replies (off : Nat) (v : Word) : (writeEntry off v s).replies = s.replies := rfl

/-! ### resetMachine -/

@[simp] theorem resetMachine_part : (resetMachine s).part = s.part := rfl
@[simp] theorem resetMachine_phase : (resetMachine s).phase = .idle := rfl
@[simp] theorem resetMachine_regs : (resetMachine s).regs = ⟨0, 0, 0, 0, 0, 0, 0, 0⟩ := rfl
@[simp] theorem resetMachine_irqEn : (resetMachine s).irqEn = 0 := rfl
@[simp] theorem resetMachine_flags : (resetMachine s).flags = ⟨false, false, false, .none⟩ := rfl
@[simp] theorem resetMachine_errCtx : (resetMachine s).errCtx = ⟨0, 0, 0⟩ := rfl
@[simp] theorem resetMachine_bvResult : (resetMachine s).bvResult = 0 := rfl
@[simp] theorem resetMachine_whtMaxAbs : (resetMachine s).whtMaxAbs = 0 := rfl
@[simp] theorem resetMachine_slots : (resetMachine s).slots = ⟨.zero, .zero, .zero, .zero, .zero, .zero⟩ := rfl
@[simp] theorem resetMachine_mem : (resetMachine s).mem = [] := rfl
@[simp] theorem resetMachine_draws : (resetMachine s).draws = s.draws := rfl
@[simp] theorem resetMachine_inbox : (resetMachine s).inbox = s.inbox := rfl
@[simp] theorem resetMachine_replies : (resetMachine s).replies = s.replies := rfl

end Sys2Proof.Machine
end

