-- ==== Sys2Proof/Laws/Ops.lean ====
section
/-! SUPPORT. One specification lemma per shared operation: slots, free values, entry scans, CheckTable, START, errors,
ABORT and the end of a command. -/

namespace Sys2Proof.Machine

/-! ### Slots -/

@[simp] theorem slots_get_set (sl : Slots) (k j : Metric) (v : Slot) :
    (sl.set k v).get j = if j = k then v else sl.get j := by
  cases k <;> cases j <;> rfl

/-- Writing the slots of `ks` changes those and no other. -/
theorem slots_get_setAll (sl : Slots) (f : Metric → Slot) (ks : List Metric) (j : Metric) :
    (sl.setAll f ks).get j = if j ∈ ks then f j else sl.get j := by
  induction ks generalizing sl with
  | nil => simp [Slots.setAll]
  | cons k ks ih =>
    rw [Slots.setAll, ih, slots_get_set]
    by_cases h1 : j ∈ ks
    · simp [h1]
    · by_cases h2 : j = k
      · simp [h2]
      · simp [h1, h2]

/-- Slots that agree at every metric are equal. -/
theorem slots_ext {a b : Slots} (h : ∀ k, a.get k = b.get k) : a = b := by
  obtain ⟨a1, a2, a3, a4, a5, a6⟩ := a
  obtain ⟨b1, b2, b3, b4, b5, b6⟩ := b
  have h1 := h .nl; have h2 := h .sac; have h3 := h .lap; have h4 := h .dap; have h5 := h .bicNl; have h6 := h .bicSac
  simp only [Slots.get] at h1 h2 h3 h4 h5 h6
  simp [h1, h2, h3, h4, h5, h6]

/-- The selected metrics are the ones whose bit of SEL is 1 (R34, R175). -/
@[simp] theorem mem_selectedMetrics (sel : Word) (k : Metric) :
    k ∈ selectedMetrics sel ↔ sel.getLsbD (slotIndex k) = true := by
  simp only [selectedMetrics, List.mem_filter, and_iff_right_iff_imp]
  intro _
  cases k <;> decide

/-! ### Free values -/

@[simp] theorem freeWords_length (k : Nat) (s : State) : (freeWords k s).length = k := by simp [freeWords]

@[simp] theorem bufOff_zero : bufOff 0 = 0x80000 := rfl

@[simp] theorem sboxOff_zero : sboxOff 0 = 0x40000 := rfl

/-- Words written from BUF[0] on: entry x is word x. -/
theorem readWord_writeBuf (m : Memory) (ws : List Word) (x : Nat) (hx : x < ws.length) :
    (m.writeWords (bufOff 0) ws).readWord (bufOff x) = some ws[x] := by
  have h := readWord_writeWords_inside m (bufOff 0) ws x hx
  rw [List.getElem?_eq_getElem hx] at h
  simpa [bufOff] using h

/-- Words written from BUF[0] on leave every byte outside those entries alone. -/
theorem readByte_writeBuf (m : Memory) (ws : List Word) (a : Nat)
    (ha : ¬(bufOff 0 ≤ a ∧ a < bufOff ws.length)) : (m.writeWords (bufOff 0) ws).readByte a = m.readByte a := by
  apply readByte_writeWords_outside
  simp only [bufOff] at *
  omega

/-- A free block of the buffer: the entries count as written, every other byte is as before (R152). -/
theorem unspecifyBuf_spec (k : Nat) (s : State) :
    BufWritten k (unspecifyBuf k s) ∧ SameMemoryButBuf k s (unspecifyBuf k s) := by
  constructor
  · intro x hx
    exact ⟨_, readWord_writeBuf _ _ x (by simpa using hx)⟩
  · intro a ha
    exact readByte_writeBuf _ _ a (by simpa using ha)

/-- R152: every BUF entry counts as written, every byte outside the buffer is as before. -/
theorem clobberBuffer_spec (s : State) :
    BufWritten (2 ^ s.part.nmax) (clobberBuffer s) ∧ SameMemoryButBuf (2 ^ s.part.nmax) s (clobberBuffer s) :=
  unspecifyBuf_spec (2 ^ s.part.nmax) s

/-- Everything `unspecifySlots` does: the slots of `ks` are not valid, the others as before, and 3 draws a slot. -/
theorem unspecifySlots_spec (ks : List Metric) (s : State) :
    ∃ sl, unspecifySlots ks s = { s with slots := sl, draws := s.draws + 3 * ks.length } ∧
      (∀ k ∈ ks, (sl.get k).valid = false) ∧ ∀ k, k ∉ ks → sl.get k = s.slots.get k := by
  induction ks generalizing s with
  | nil => exact ⟨s.slots, rfl, by simp, by simp⟩
  | cons k ks ih =>
    obtain ⟨sl, heq, hin, hout⟩ := ih { s with
      slots := s.slots.set k { num := Config.freeWord s.draws, den := Config.freeWord (s.draws + 1),
                               aux := Config.freeWord (s.draws + 2), valid := false },
      draws := s.draws + 3 }
    refine ⟨sl, ?_, ?_, ?_⟩
    · rw [unspecifySlots, heq]
      simp only [List.length_cons]
      congr 1
      omega
    · intro j hj
      by_cases hjk : j ∈ ks
      · exact hin j hjk
      · have : j = k := by simpa [hjk] using hj
        rw [hout j hjk, slots_get_set, if_pos this]
    · intro j hj
      simp only [List.mem_cons, not_or] at hj
      rw [hout j hj.2, slots_get_set, if_neg hj.1]

/-- Everything an accepted START does (R191). -/
theorem startCommand_spec (s : State) :
    ∃ sl, startCommand s =
        { s with
          phase := .busy s.regs.cmd
          flags := { s.flags with done := false, err := false, errCode := .none }
          errCtx := { exp := 0, act := 0, idx := 0 }
          slots := sl
          draws := s.draws + 3 * (slotsOfWord s.regs.cmd s.regs.sel).length } ∧
      (∀ k ∈ slotsOfWord s.regs.cmd s.regs.sel, (sl.get k).valid = false) ∧
      ∀ k, k ∉ slotsOfWord s.regs.cmd s.regs.sel → sl.get k = s.slots.get k := by
  obtain ⟨sl, heq, hin, hout⟩ :=
    unspecifySlots_spec (slotsOfWord s.regs.cmd s.regs.sel) (beginCommand s.regs.cmd s)
  exact ⟨sl, by rw [startCommand, heq]; rfl, hin, hout⟩

/-! ### Entry scans -/

/-- A scan that passes: the words are the entries, and none is objected to. -/
theorem scanEntries_ok {m : Memory} {off : Nat → Nat} {bad : Nat → Word → Option CmdError} {x k : Nat}
    {ws : List Word} :
    scanEntries m off bad x k = .ok ws ↔
      ws.length = k ∧ ∀ j < k, ∃ w, m.readWord (off (x + j)) = some w ∧ ws[j]? = some w ∧ bad (x + j) w = none := by
  induction k generalizing x ws with
  | zero => rw [scanEntries]; cases ws <;> simp
  | succ k ih =>
    rw [scanEntries]
    constructor
    · intro h
      split at h
      · simp at h
      · next w hw =>
        split at h
        · simp at h
        · next hb =>
          split at h
          · next vs hvs =>
            simp only [Except.ok.injEq] at h
            subst h
            obtain ⟨hl, hall⟩ := ih.1 hvs
            refine ⟨by simp [hl], fun j hj => ?_⟩
            cases j with
            | zero => exact ⟨w, hw, by simp, hb⟩
            | succ j =>
              obtain ⟨v, h1, h2, h3⟩ := hall j (by omega)
              exact ⟨v, by rw [← h1]; congr 2; omega, by simpa using h2, by rw [← h3]; congr 1; omega⟩
          · simp at h
    · rintro ⟨hl, hall⟩
      obtain ⟨w, h1, h2, h3⟩ := hall 0 (by omega)
      simp only [Nat.add_zero] at h1 h3
      cases ws with
      | nil => simp at hl
      | cons v vs =>
        simp only [List.getElem?_cons_zero, Option.some.injEq] at h2
        subst h2
        have htail : scanEntries m off bad (x + 1) k = .ok vs := by
          refine ih.2 ⟨by simpa using hl, fun j hj => ?_⟩
          obtain ⟨u, g1, g2, g3⟩ := hall (j + 1) (by omega)
          exact ⟨u, by rw [← g1]; congr 2; omega, by simpa using g2, by rw [← g3]; congr 1; omega⟩
        simp only [h1, h3, htail]

/-- A scan that stops: the entries before `j` pass, and entry `x + j` is unwritten or objected to (R211 item 7). -/
theorem scanEntries_stop {m : Memory} {off : Nat → Nat} {bad : Nat → Word → Option CmdError} {x k j : Nat}
    (hj : j < k) (hbefore : ∀ i < j, ∃ w, m.readWord (off (x + i)) = some w ∧ bad (x + i) w = none) :
    (m.readWord (off (x + j)) = none → scanEntries m off bad x k = .error (.unwritten (off (x + j)))) ∧
    (∀ w e, m.readWord (off (x + j)) = some w → bad (x + j) w = some e →
      scanEntries m off bad x k = .error (.error e)) := by
  induction j generalizing x k with
  | zero =>
    obtain ⟨k, rfl⟩ : ∃ k', k = k' + 1 := ⟨k - 1, by omega⟩
    constructor
    · intro h; simp only [Nat.add_zero] at h; simp [scanEntries, h]
    · intro w e h1 h2; simp only [Nat.add_zero] at h1 h2; simp [scanEntries, h1, h2]
  | succ j ih =>
    obtain ⟨k, rfl⟩ : ∃ k', k = k' + 1 := ⟨k - 1, by omega⟩
    obtain ⟨w0, h1, h2⟩ := hbefore 0 (by omega)
    simp only [Nat.add_zero] at h1 h2
    have hb : ∀ i < j, ∃ w, m.readWord (off (x + 1 + i)) = some w ∧ bad (x + 1 + i) w = none := by
      intro i hi
      obtain ⟨w, g1, g2⟩ := hbefore (i + 1) (by omega)
      exact ⟨w, by rw [← g1]; congr 2; omega, by rw [← g2]; congr 1; omega⟩
    obtain ⟨i1, i2⟩ := ih (x := x + 1) (k := k) (by omega) hb
    have e : x + 1 + j = x + (j + 1) := by omega
    rw [e] at i1 i2
    constructor
    · intro h; simp only [scanEntries, h1, h2, i1 h]
    · intro w er g1 g2; simp only [scanEntries, h1, h2, i2 w er g1 g2]

/-! ### The checks -/

theorem checkWidth_ok {s : State} (h : LegalWidth s) : checkWidth s = .ok () := by
  unfold checkWidth; exact if_pos h

theorem checkWidth_error {s : State} (h : ¬LegalWidth s) : checkWidth s = stopWith .param s.part.nmax (opN s) 0 := by
  unfold checkWidth; exact if_neg h

/-- Passing the width check says that the width is legal. -/
theorem legalWidth_of_checkWidth {s : State} (h : checkWidth s = .ok ()) : LegalWidth s := by
  by_contra hn; rw [checkWidth_error hn] at h; simp [stopWith] at h

/-- `isPowerOfTwo` is R203's condition on a 32-bit value. -/
theorem isPowerOfTwo_iff {l : Nat} (hl : l < 2 ^ 32) : isPowerOfTwo l = true ↔ ∃ j, l = 2 ^ j := by
  simp only [isPowerOfTwo, List.any_eq_true, List.mem_range, decide_eq_true_eq]
  constructor
  · rintro ⟨j, -, h⟩; exact ⟨j, h⟩
  · rintro ⟨j, h⟩
    exact ⟨j, (Nat.pow_lt_pow_iff_right (by omega)).1 (h ▸ hl), h⟩

/-- `CheckTable` passes exactly when the scalars are legal, no metric is degenerate and every entry is written and in
the domain; its answer is the table (R151). -/
theorem checkTable_ok {ks : List Metric} {s : State} {table : List Nat} :
    checkTable ks s = .ok table ↔
      LegalScalars s ∧ NotDegenerate ks (opN s) ∧ table.length = 2 ^ opN s ∧
        ∀ x < 2 ^ opN s, ∃ w, s.mem.readWord (sboxOff x) = some w ∧ table[x]? = some w.toNat ∧ w.toNat < 2 ^ opM s := by
  unfold checkTable
  constructor
  · intro h
    simp only at h
    split at h
    · simp at h
    · next hw =>
      have hw := legalWidth_of_checkWidth hw
      split at h
      · simp [stopWith] at h
      · next hm =>
        split at h
        · simp [stopWith] at h
        · split at h
          · simp [stopWith] at h
          · next hlen =>
            split at h
            · simp [stopWith] at h
            · next hd1 =>
              split at h
              · simp [stopWith] at h
              · next hd2 =>
                split at h
                · next ws hws =>
                  simp only [Except.ok.injEq] at h
                  subst h
                  obtain ⟨hl, hall⟩ := scanEntries_ok.1 hws
                  refine ⟨⟨hw, not_not.1 hm, not_not.1 hlen⟩, ⟨fun hk => ?_, fun hk => ?_⟩, by simpa using hl, ?_⟩
                  · by_contra hlt; exact hd1 ⟨hk, by omega⟩
                  · by_contra hlt; exact hd2 ⟨hk, by omega⟩
                  · intro x hx
                    obtain ⟨w, h1, h2, h3⟩ := hall x hx
                    simp only [Nat.zero_add] at h1 h3
                    refine ⟨w, h1, by simp [h2], ?_⟩
                    unfold domainError at h3
                    split at h3
                    · simp at h3
                    · omega
                · simp at h
  · rintro ⟨⟨hw, hm, hlen⟩, ⟨hd1, hd2⟩, htl, hall⟩
    have hpow : isPowerOfTwo s.regs.tblLen.toNat = true :=
      (isPowerOfTwo_iff s.regs.tblLen.isLt).2 ⟨opN s, hlen⟩
    have hscan : ∃ ws, scanEntries s.mem sboxOff (domainError (opM s)) 0 (2 ^ opN s) = .ok ws ∧
        ws.map BitVec.toNat = table := by
      refine ⟨(List.range (2 ^ opN s)).map (fun x => (s.mem.readWord (sboxOff x)).getD 0), ?_, ?_⟩
      · refine scanEntries_ok.2 ⟨by simp, fun j hj => ?_⟩
        obtain ⟨w, h1, h2, h3⟩ := hall j hj
        refine ⟨w, by simpa using h1, by simp [hj, h1], ?_⟩
        unfold domainError; rw [if_neg (by omega)]
      · apply List.ext_getElem?
        intro x
        by_cases hx : x < 2 ^ opN s
        · obtain ⟨w, h1, h2, -⟩ := hall x hx
          simp [hx, h1, h2]
        · rw [List.getElem?_eq_none (by simp; omega), List.getElem?_eq_none (by omega)]
    obtain ⟨ws, hws, hmap⟩ := hscan
    have hm' : 1 ≤ opM s ∧ opM s ≤ s.part.mmax := hm
    simp only [checkWidth_ok hw]
    rw [if_neg (not_not.2 hm'), if_neg (by simp [hpow]), if_neg (not_not.2 hlen),
      if_neg (by rintro ⟨hk, hlt⟩; have := hd1 hk; omega), if_neg (by rintro ⟨hk, hlt⟩; have := hd2 hk; omega), hws]
    simp [hmap]

/-- `CheckTable` passes when the S-box RAM holds a legal table, and answers that table (R151, R243). -/
theorem checkTable_of_legal {ks : List Metric} {s : State} {S : Nat → Nat} (hs : LegalScalars s) (hS : SboxHolds s S)
    (hmm : opM s ≤ 32) (hk : NotDegenerate ks (opN s)) :
    checkTable ks s = .ok ((List.range (2 ^ opN s)).map S) := by
  refine checkTable_ok.2 ⟨hs, hk, by simp, fun x hx => ?_⟩
  obtain ⟨h1, h2⟩ := hS x hx
  have hlt : S x < 2 ^ 32 := lt_of_lt_of_le h2 (Nat.pow_le_pow_right (by omega) hmm)
  have hn : (BitVec.ofNat 32 (S x)).toNat = S x := by rw [BitVec.toNat_ofNat]; exact Nat.mod_eq_of_lt hlt
  exact ⟨_, h1, by simp [hx, hn], by rw [hn]; exact h2⟩

/-! ### How a command ends -/

/-- The three ways a command's end step goes (R192). -/
theorem endCommand_next {i : Instr} {s t : State} {r : Except CmdStop State} :
    endCommand i s r = .next t ↔
      (∃ u, r = .ok u ∧ t = endOk u) ∨ ∃ e, r = .error (.error e) ∧ t = raiseError i e s := by
  unfold endCommand
  split <;> simp [eq_comm]

theorem endCommand_fault {i : Instr} {s : State} {r : Except CmdStop State} {f : Fault} :
    endCommand i s r = .fault f ↔ ∃ off, r = .error (.unwritten off) ∧ f = .unwrittenRead off := by
  unfold endCommand
  split <;> simp [eq_comm]

/-- A command's end step is never refused. -/
theorem endCommand_not_refused {i : Instr} {s : State} {r : Except CmdStop State} {f : Refusal} :
    endCommand i s r ≠ .refused f := by
  unfold endCommand
  split <;> simp

/-- What an error leaves alone and what it writes beside the outputs (R192, R210). -/
theorem raiseError_spec (i : Instr) (e : CmdError) (s : State) :
    CommandFrame s (raiseError i e s) ∧ (raiseError i e s).phase = .idle ∧
      (raiseError i e s).flags = { s.flags with done := true, err := true, errCode := e.code } ∧
      (raiseError i e s).errCtx = { exp := e.exp, act := e.act, idx := e.idx } ∧
      (raiseError i e s).bvResult = s.bvResult ∧
      (∀ k, (raiseError i e s).slots.get k = if k ∈ slotsOf i s.regs.sel then Slot.zero else s.slots.get k) := by
  obtain ⟨c, ex, ac, ix⟩ := e
  cases i <;> cases c <;>
    simp [raiseError, errorOutputs, familyOf, CommandFrame, slotsOf, slots_get_setAll]

/-- What an error other than OVERFLOW does to the outputs (R210). -/
theorem raiseError_outputs (i : Instr) (e : CmdError) (s : State) (hov : e.code ≠ .overflow) :
    ErrorOutputs i s (raiseError i e s) := by
  obtain ⟨-, -, -, -, hbv, hsl⟩ := raiseError_spec i e s
  refine ⟨fun k hk => by rw [hsl, if_pos hk], fun k hk => by rw [hsl, if_neg hk], hbv, ?_, ?_, ?_⟩
  · intro hf
    obtain ⟨c, ex, ac, ix⟩ := e
    cases c <;> simp_all [raiseError, errorOutputs, SameMemory]
  · intro hf
    have h := clobberBuffer_spec (zeroSlots (slotsOf i s.regs.sel) s)
    simp only [raiseError, errorOutputs, hf]
    exact ⟨h.2, h.1⟩
  · rintro (hf | hf) <;> simp [raiseError, errorOutputs, hf, SameMemory]

/-- What OVERFLOW does to the outputs of WHT_RAW (R135, R210). -/
theorem raiseError_overflow (e : CmdError) (s : State) (hov : e.code = .overflow) :
    (raiseError .whtRaw e s).whtMaxAbs = 0 ∧ BufWritten (bufSpan s) (raiseError .whtRaw e s) ∧
      SameMemoryButBuf (bufSpan s) s (raiseError .whtRaw e s) := by
  have h := unspecifyBuf_spec (bufSpan s) s
  simp only [raiseError, errorOutputs, familyOf, hov]
  exact ⟨rfl, h.1, h.2⟩

/-- The buffer of a legal width is the entries 0 .. 2^n - 1. -/
theorem bufSpan_of_legal {s : State} (h : LegalWidth s) : bufSpan s = 2 ^ opN s := if_pos h.2

theorem bufSpan_le (s : State) : bufSpan s ≤ 2 ^ s.part.nmax := by
  unfold bufSpan
  split
  · exact Nat.pow_le_pow_right (by omega) ‹_›
  · exact le_refl _

/-- Everything an ABORT does (R193). -/
theorem abortCommand_spec (w : Word) (s : State) :
    CommandFrame s (abortCommand w s) ∧ (abortCommand w s).phase = .idle ∧
      (abortCommand w s).flags = { s.flags with done := true, err := true, errCode := .aborted } ∧
      (abortCommand w s).errCtx = { exp := 0, act := 0, idx := 0 } ∧
      (∀ k, (abortCommand w s).slots.get k =
        if k ∈ slotsOfWord w s.regs.sel then Slot.zero else s.slots.get k) ∧
      SameMemoryButBuf (2 ^ s.part.nmax) s (abortCommand w s) := by
  cases hc : commandOf w with
  | none => simp [abortCommand, hc, CommandFrame, slotsOfWord, SameMemoryButBuf]
  | some i =>
    have hspan : SameMemoryButBuf (2 ^ s.part.nmax) s (unspecifyBuf (bufSpan s) s) := by
      intro a ha
      refine (unspecifyBuf_spec (bufSpan s) s).2 a ?_
      have := bufSpan_le s
      simp only [bufOff] at *
      omega
    have hclob := (clobberBuffer_spec (zeroSlots (slotsOf i s.regs.sel) s)).2
    cases i <;>
      simp [abortCommand, hc, abortOutputs, familyOf, CommandFrame, slotsOfWord, slotsOf, slots_get_setAll] <;>
      first
        | exact hspan
        | exact hclob
        | (intro a _; rfl)

end Sys2Proof.Machine
end

