-- ==== Sys2Proof/Laws/Wht.lean ====
section
/-! SUPPORT. The butterfly: it keeps lengths, one stage is the pairwise update of R130, and what writing a spectrum
leaves. -/

namespace Sys2Proof.Machine

/-- A stage keeps the length of a buffer of whole blocks. -/
theorem butterflyBlocks_length (h blocks : Nat) (l : List Int) (hl : l.length = 2 * h * blocks) :
    (butterflyBlocks h blocks l).length = l.length := by
  induction blocks generalizing l with
  | zero => rfl
  | succ b ih =>
    have hlen : l.length = 2 * h * b + 2 * h := by rw [hl]; ring
    have := ih (l.drop (2 * h)) (by simp [hlen])
    simp [butterflyBlocks, this]
    omega

/-- The rows of a stage of width n: 2^n entries are 2^(n-1-i) blocks of size 2^(i+1). -/
theorem stage_blocks {n i : Nat} (hi : i < n) : 2 ^ n = 2 * 2 ^ i * 2 ^ (n - 1 - i) := by
  rw [← pow_succ', ← pow_add]; congr 1; omega

theorem butterflyStage_length {n i : Nat} (hi : i < n) {l : List Int} (hl : l.length = 2 ^ n) :
    (butterflyStage n i l).length = 2 ^ n := by
  rw [butterflyStage, butterflyBlocks_length _ _ _ (by rw [hl, stage_blocks hi]), hl]

/-- The stages 0 .. k-1 of a transform of width n. -/
def stagesUpTo (n k : Nat) (l : List Int) : List Int := (List.range k).foldl (fun l i => butterflyStage n i l) l

theorem stagesUpTo_succ (n k : Nat) (l : List Int) :
    stagesUpTo n (k + 1) l = butterflyStage n k (stagesUpTo n k l) := by
  simp [stagesUpTo, List.range_succ]

theorem butterfly_eq_stages (n : Nat) (l : List Int) : butterfly n l = stagesUpTo n n l := rfl

theorem stagesUpTo_length {n k : Nat} (hk : k ≤ n) {l : List Int} (hl : l.length = 2 ^ n) :
    (stagesUpTo n k l).length = 2 ^ n := by
  induction k with
  | zero => exact hl
  | succ k ih => rw [stagesUpTo_succ]; exact butterflyStage_length (by omega) (ih (by omega))

/-- `Butterfly(n)` keeps the length 2^n. -/
theorem butterfly_length {n : Nat} {l : List Int} (hl : l.length = 2 ^ n) : (butterfly n l).length = 2 ^ n :=
  stagesUpTo_length (le_refl n) hl

/-- One stage as R130 says it: in each block the pair (a, b) at k and k + h becomes (a + b, a - b). -/
theorem butterflyBlocks_getD (h blocks : Nat) (hh : 0 < h) (l : List Int) (hl : l.length = 2 * h * blocks) (x : Nat)
    (hx : x < l.length) :
    (butterflyBlocks h blocks l).getD x 0 =
      if x % (2 * h) < h then l.getD x 0 + l.getD (x + h) 0 else l.getD (x - h) 0 - l.getD x 0 := by
  induction blocks generalizing l x with
  | zero => rw [hl] at hx; exact absurd hx (by simp)
  | succ b ih =>
    have hlen : l.length = 2 * h * b + 2 * h := by rw [hl]; ring
    have hnn : 0 ≤ 2 * h * b := Nat.zero_le _
    generalize hq : 2 * h * b = q at hlen
    simp only [butterflyBlocks, List.getD_eq_getElem?_getD]
    by_cases h1 : x < h
    · have hm : x % (2 * h) = x := Nat.mod_eq_of_lt (by omega)
      rw [List.getElem?_append_left (by simp; omega), List.getElem?_append_left (by simp; omega), if_pos (by omega),
        List.getElem?_zipWith]
      simp [List.getElem?_drop, h1,
        List.getElem?_eq_getElem (show x < l.length by omega),
        List.getElem?_eq_getElem (show h + x < l.length by omega), Nat.add_comm x h]
    · by_cases h2 : x < 2 * h
      · have hm : x % (2 * h) = x := Nat.mod_eq_of_lt (by omega)
        have hsub : (List.zipWith (fun x1 x2 : Int => x1 + x2) (l.take h) ((l.drop h).take h)).length = h := by
          simp; omega
        rw [List.getElem?_append_left (by simp; omega), List.getElem?_append_right (by rw [hsub]; omega), hsub,
          if_neg (by omega), List.getElem?_zipWith]
        have hxh : x - h < h := by omega
        simp [List.getElem?_drop, hxh, show h + (x - h) = x by omega,
          List.getElem?_eq_getElem (show x - h < l.length by omega), List.getElem?_eq_getElem hx]
      · have hsum : (List.zipWith (fun x1 x2 : Int => x1 + x2) (l.take h) ((l.drop h).take h) ++
            List.zipWith (fun x1 x2 : Int => x1 - x2) (l.take h) ((l.drop h).take h)).length = 2 * h := by
          simp; omega
        rw [List.getElem?_append_right (by rw [hsum]; omega), hsum]
        have hrec := ih (l.drop (2 * h)) (by simp [hlen, hq]) (x - 2 * h) (by simp; omega)
        have hmod : (x - 2 * h) % (2 * h) = x % (2 * h) := by
          conv_rhs => rw [show x = (x - 2 * h) + 2 * h by omega, Nat.add_mod_right]
        simp only [List.getD_eq_getElem?_getD, hmod, List.getElem?_drop] at hrec
        rw [hrec]
        by_cases h3 : x % (2 * h) < h
        · rw [if_pos h3, if_pos h3, show 2 * h + (x - 2 * h) = x by omega,
            show 2 * h + (x - 2 * h + h) = x + h by omega]
        · have hge : h ≤ (x - 2 * h) % (2 * h) := by rw [hmod]; omega
          have hle : (x - 2 * h) % (2 * h) ≤ x - 2 * h := Nat.mod_le _ _
          rw [if_neg h3, if_neg h3, show 2 * h + (x - 2 * h) = x by omega,
            show 2 * h + (x - 2 * h - h) = x - h by omega]

/-- One stage of width n by index (R130). -/
theorem butterflyStage_getD {n i : Nat} (hi : i < n) {l : List Int} (hl : l.length = 2 ^ n) {x : Nat}
    (hx : x < 2 ^ n) :
    (butterflyStage n i l).getD x 0 =
      if x % 2 ^ (i + 1) < 2 ^ i then l.getD x 0 + l.getD (x + 2 ^ i) 0 else l.getD (x - 2 ^ i) 0 - l.getD x 0 := by
  rw [butterflyStage, butterflyBlocks_getD _ _ (by positivity) l (by rw [hl, stage_blocks hi]) x (by omega),
    pow_succ']

/-- The checked stages answer the butterfly when every stage stays in range (R135). -/
theorem checkedStages_ok {n i k : Nat} {l r : List Int} (h : checkedStages n i k l = .ok r) :
    r = (List.range' i k).foldl (fun l i => butterflyStage n i l) l := by
  induction k generalizing i l with
  | zero => simpa [checkedStages] using h.symm
  | succ k ih =>
    simp only [checkedStages] at h
    split at h
    · rw [ih h]; simp [List.range'_succ]
    · simp at h

/-- A raw butterfly that answers is `Butterfly(n)` of its input. -/
theorem checkedStages_butterfly {n : Nat} {l r : List Int} (h : checkedStages n 0 n l = .ok r) : r = butterfly n l := by
  rw [checkedStages_ok h, butterfly, List.range_eq_range']

/-- Writing a spectrum of 2^n entries changes nothing outside BUF[0 .. 2^n - 1]. -/
theorem writeSpectrum_memory {n : Nat} {l : List Int} (hl : l.length = 2 ^ n) (s : State) :
    SameMemoryButBuf (2 ^ n) s (writeSpectrum l s) := by
  intro a ha
  exact readByte_writeBuf _ _ a (by simpa [hl] using ha)

/-- Entry u of a written spectrum. -/
theorem writeSpectrum_entry {l : List Int} {s : State} {u : Nat} (hu : u < l.length) :
    (writeSpectrum l s).mem.readWord (bufOff u) = some (patternOf l[u]) := by
  rw [writeSpectrum_mem, readWord_writeBuf _ _ u (by simpa using hu)]
  simp

/-- A signed value in range survives its 32-bit pattern. -/
theorem patternOf_toInt {v : Int} (h : InSignedRange v) : (patternOf v).toInt = v := by
  obtain ⟨h1, h2⟩ := h
  rw [patternOf, BitVec.toInt_ofInt]
  exact Int.bmod_eq_of_le (by omega) (by omega)

end Sys2Proof.Machine
end

