-- ==== Sys2Proof/Laws/Step.lean ====
section
/-! SUPPORT. What exec and step can do, said once: each command is the end step of its rule, every rule keeps the same
frame, and step is one of four moves. -/

namespace Sys2Proof.Machine

/-- The rule of a command (R192): the state with its outputs written, or why it stops. -/
def ruleOf (i : Instr) (s : State) : Except CmdStop State :=
  match i with
  | .nop => .ok s
  | .bvBit => .ok (setBvResult (BitVec.ofNat 32 (bvBitValue s.regs.opa.toNat s.regs.opb.toNat)) s)
  | .bvParity => .ok (setBvResult (BitVec.ofNat 32 (parity s.regs.opa.toNat)) s)
  | .bvHamming => .ok (setBvResult (BitVec.ofNat 32 (hamming s.regs.opa.toNat s.regs.opb.toNat)) s)
  | .wht => whtRule s
  | .whtRaw => whtRawRule s
  | .whtComp => whtCompRule s
  | .nl => analyzerRule [.nl] s
  | .sac => analyzerRule [.sac] s
  | .lap => analyzerRule [.lap] s
  | .dap => analyzerRule [.dap] s
  | .bicNl => analyzerRule [.bicNl] s
  | .bicSac => analyzerRule [.bicSac] s
  | .runSel => runSelRule s

/-- Every command is the end step of its rule (R192). -/
theorem exec_eq_endCommand (i : Instr) (s : State) : exec i s = endCommand i s (ruleOf i s) := by cases i <;> rfl

/-- A command's end step answers the next state of its rule, or that of its error. -/
theorem exec_next {i : Instr} {s t : State} : exec i s = .next t ↔
    (∃ u, ruleOf i s = .ok u ∧ t = endOk u) ∨ ∃ e, ruleOf i s = .error (.error e) ∧ t = raiseError i e s := by
  rw [exec_eq_endCommand]; exact endCommand_next

/-- A command stops only at an unwritten entry (R46). -/
theorem exec_fault {i : Instr} {s : State} {f : Fault} :
    exec i s = .fault f ↔ ∃ off, ruleOf i s = .error (.unwritten off) ∧ f = .unwrittenRead off := by
  rw [exec_eq_endCommand]; exact endCommand_fault

/-- No command is refused. -/
theorem exec_not_refused {i : Instr} {s : State} {r : Refusal} : exec i s ≠ .refused r := by
  rw [exec_eq_endCommand]; exact endCommand_not_refused

/-- What a rule that answers leaves alone: everything but its own outputs. -/
structure RuleFrame (i : Instr) (s u : State) : Prop where
  part : u.part = s.part
  phase : u.phase = s.phase
  regs : u.regs = s.regs
  irqEn : u.irqEn = s.irqEn
  flags : u.flags = s.flags
  errCtx : u.errCtx = s.errCtx
  inbox : u.inbox = s.inbox
  replies : u.replies = s.replies
  slots : SameSlotsBut (slotsOf i s.regs.sel) s u
  memory : SameMemoryButBuf (2 ^ s.part.nmax) s u
  bvResult : familyOf i ≠ .bitVector → u.bvResult = s.bvResult

theorem sameMemoryButBuf_mono {k n : Nat} {s t : State} (h : SameMemoryButBuf k s t) (hk : k ≤ n) :
    SameMemoryButBuf n s t := by
  intro a ha
  refine h a ?_
  simp only [bufOff] at *
  omega

theorem writeSpectrum_frame {i : Instr} {n : Nat} {l : List Int} {s : State} (hl : l.length = 2 ^ n)
    (hn : n ≤ s.part.nmax) : RuleFrame i s (writeSpectrum l s) :=
  ⟨rfl, rfl, rfl, rfl, rfl, rfl, rfl, rfl, fun _ _ => rfl,
    sameMemoryButBuf_mono (writeSpectrum_memory hl s) (Nat.pow_le_pow_right (by omega) hn), fun _ => rfl⟩

theorem writeResults_frame {i : Instr} {ks : List Metric} (table : List Nat) {s : State}
    (hk : slotsOf i s.regs.sel = ks) : RuleFrame i s (writeResults ks table s) := by
  refine ⟨rfl, rfl, rfl, rfl, rfl, rfl, rfl, rfl, fun k hk' => ?_, ?_, fun _ => rfl⟩
  · rw [writeResults_slots, slots_get_setAll, if_neg (hk ▸ hk')]
  · exact (clobberBuffer_spec { s with slots := s.slots.setAll (metricSlot (opN s) (opM s) table) ks }).2

/-- The rule shared by the analyzers, when it answers (R150). -/
theorem analyzerRule_ok {ks : List Metric} {s u : State} :
    analyzerRule ks s = .ok u ↔ ∃ table, checkTable ks s = .ok table ∧ u = writeResults ks table s := by
  unfold analyzerRule
  split
  · next e he => simp [he]
  · next t ht => simp [ht, eq_comm]

theorem whtRule_ok {s u : State} : whtRule s = .ok u ↔ LegalWidth s ∧
    ∃ ws, scanEntries s.mem bufOff booleanError 0 (2 ^ opN s) = .ok ws ∧
      u = writeSpectrum (butterfly (opN s) (ws.map (fun w => encodeSign w.toNat))) s := by
  unfold whtRule
  by_cases hw : LegalWidth s
  · simp only [checkWidth_ok hw, hw, true_and]
    split
    · next e he => simp [he]
    · next ws hws => simp [hws, eq_comm]
  · simp [checkWidth_error hw, stopWith, hw]

theorem whtRawRule_ok {s u : State} : whtRawRule s = .ok u ↔ LegalWidth s ∧
    ∃ ws l, scanEntries s.mem bufOff (fun _ _ => none) 0 (2 ^ opN s) = .ok ws ∧
      checkedStages (opN s) 0 (opN s) (ws.map BitVec.toInt) = .ok l ∧ u = writeSpectrum l s := by
  unfold whtRawRule
  by_cases hw : LegalWidth s
  · simp only [checkWidth_ok hw, hw, true_and]
    split
    · next e he => simp [he]
    · next ws hws =>
      split
      · next i hi => simp [hws, hi, stopWith]
      · next l hl => simp [hws, hl, eq_comm]
  · simp [checkWidth_error hw, stopWith, hw]

theorem whtCompRule_ok {s u : State} : whtCompRule s = .ok u ↔ ∃ table, checkTable [] s = .ok table ∧
    u = writeSpectrum (spectrum (opN s) (component s.regs.mask.toNat table)) s := by
  unfold whtCompRule
  split
  · next e he => simp [he]
  · next t ht => simp [ht, eq_comm]

theorem runSelRule_ok {s u : State} : runSelRule s = .ok u ↔ s.regs.sel.extractLsb' 6 26 = 0 ∧
    ((selectedMetrics s.regs.sel = [] ∧ u = clobberBuffer s) ∨
      (selectedMetrics s.regs.sel ≠ [] ∧ analyzerRule (selectedMetrics s.regs.sel) s = .ok u)) := by
  unfold runSelRule
  by_cases h : s.regs.sel.extractLsb' 6 26 = 0
  · rw [if_neg (not_not.2 h)]
    split
    · next hs => simp [h, hs, eq_comm]
    · next k ks hs => simp [h, hs]
  · rw [if_pos h]; simp [stopWith, show ¬s.regs.sel.extractLsb' 6 26 = 0#26 from h]

theorem setBvResult_frame {i : Instr} (v : Word) (s : State) (hi : familyOf i = .bitVector) :
    RuleFrame i s (setBvResult v s) :=
  ⟨rfl, rfl, rfl, rfl, rfl, rfl, rfl, rfl, fun _ _ => rfl, fun _ _ => rfl, fun hf => (hf hi).elim⟩

/-- Every rule that answers keeps the frame (R104). -/
theorem ruleOf_frame {i : Instr} {s u : State} (h : ruleOf i s = .ok u) : RuleFrame i s u := by
  have hself : RuleFrame i s s :=
    ⟨rfl, rfl, rfl, rfl, rfl, rfl, rfl, rfl, fun _ _ => rfl, fun _ _ => rfl, fun _ => rfl⟩
  have hana (ks : List Metric) (hk : slotsOf i s.regs.sel = ks) (h : analyzerRule ks s = .ok u) :
      RuleFrame i s u := by
    obtain ⟨table, -, rfl⟩ := analyzerRule_ok.1 h
    exact writeResults_frame table hk
  cases i with
  | nop => simp only [ruleOf, Except.ok.injEq] at h; subst h; exact hself
  | bvBit | bvParity | bvHamming =>
    simp only [ruleOf, Except.ok.injEq] at h
    rw [← h]
    exact setBvResult_frame _ s rfl
  | wht =>
    obtain ⟨hw, ws, hws, rfl⟩ := whtRule_ok.1 h
    exact writeSpectrum_frame (n := opN s) (butterfly_length (by simpa using (scanEntries_ok.1 hws).1)) hw.2
  | whtRaw =>
    obtain ⟨hw, ws, l, hws, hl, rfl⟩ := whtRawRule_ok.1 h
    refine writeSpectrum_frame (n := opN s) ?_ hw.2
    rw [checkedStages_butterfly hl]
    exact butterfly_length (by simpa using (scanEntries_ok.1 hws).1)
  | whtComp =>
    obtain ⟨table, ht, rfl⟩ := whtCompRule_ok.1 h
    obtain ⟨⟨hw, -, -⟩, -, hlen, -⟩ := checkTable_ok.1 ht
    exact writeSpectrum_frame (n := opN s) (butterfly_length (by simpa [component] using hlen)) hw.2
  | runSel =>
    obtain ⟨-, ⟨-, rfl⟩ | ⟨-, ha⟩⟩ := runSelRule_ok.1 h
    · exact ⟨rfl, rfl, rfl, rfl, rfl, rfl, rfl, rfl, fun _ _ => rfl, (clobberBuffer_spec s).2, fun _ => rfl⟩
    · exact hana _ rfl ha
  | nl => exact hana [.nl] rfl h
  | sac => exact hana [.sac] rfl h
  | lap => exact hana [.lap] rfl h
  | dap => exact hana [.dap] rfl h
  | bicNl => exact hana [.bicNl] rfl h
  | bicSac => exact hana [.bicSac] rfl h

/-- A rule that answers ends the command without error (R192). -/
theorem endOk_of_frame {i : Instr} {s u : State} (h : RuleFrame i s u) :
    CommandFrame s (endOk u) ∧ EndedWithoutError s (endOk u) := by
  refine ⟨⟨h.part, h.regs, h.irqEn, ?_, h.inbox, h.replies⟩, rfl, rfl, rfl, ?_, h.errCtx⟩
  · simp [h.flags]
  · simp [h.flags]

/-! ### step -/

theorem step_engine {s : State} (h : s.inbox = []) : step s = engineTurn s := by unfold step; rw [h]

theorem step_engine_event {s : State} {rest : List BusEvent} (h : s.inbox = .engine :: rest) :
    step s = engineTurn { s with inbox := rest } := by unfold step; rw [h]

theorem step_access {s : State} {a : Access} {rest : List BusEvent} (h : s.inbox = .access a :: rest) :
    step s = hostAccess a { s with inbox := rest } := by unfold step; rw [h]

theorem step_reset {s : State} {rest : List BusEvent} (h : s.inbox = .reset :: rest) :
    step s = .next (resetMachine { s with inbox := rest }) := by unfold step; rw [h]

/-- The engine's turn while BUSY with a command is that command's end step (R192). -/
theorem engineTurn_command {s : State} {w : Word} {i : Instr} (hp : s.phase = .busy w)
    (hd : decodeCommand w = .ok i) : engineTurn s = exec i s := by
  unfold engineTurn; rw [hp]; simp only [hd]

/-- The engine's turn while BUSY with an illegal word ends with BAD_OPCODE (R102). -/
theorem engineTurn_illegal {s : State} {w : Word} {r : DecodeReject} (hp : s.phase = .busy w)
    (hd : decodeCommand w = .error r) : engineTurn s = .next (raiseBadOpcode w s) := by
  unfold engineTurn; rw [hp]; simp only [hd]

/-- The engine's turn while IDLE changes nothing (R242). -/
theorem engineTurn_idle {s : State} (hp : s.phase = .idle) : engineTurn s = .next s := by
  unfold engineTurn; rw [hp]

/-- An aligned 32-bit read inside the aperture is the read of its offset (R78). -/
theorem hostAccess_read {s : State} {off : Nat} (h1 : off < 0xC0000) (h2 : off % 4 = 0) :
    hostAccess (.read (s.part.base + off) .word) s = busRead (s.part.base + off) off s := by
  simp only [hostAccess]
  rw [if_neg (not_not.2 ⟨by omega, by omega⟩), if_neg (not_not.2 ⟨trivial, by omega⟩), Nat.add_sub_cancel_left]

/-- An aligned 32-bit write inside the aperture is the write of its offset (R79, R80). -/
theorem hostAccess_write {s : State} {off : Nat} {v : Word} (h1 : off < 0xC0000) (h2 : off % 4 = 0) :
    hostAccess (.write (s.part.base + off) .word v) s = .next (busWrite off v s) := by
  simp only [hostAccess]
  rw [if_neg (not_not.2 ⟨by omega, by omega⟩), if_neg (not_not.2 ⟨trivial, by omega⟩), Nat.add_sub_cancel_left]

/-- The next event a legal read: step is that read. -/
theorem step_read {s : State} {off : Nat} {rest : List BusEvent} (h : NextIsRead s off rest) (h1 : off < 0xC0000)
    (h2 : off % 4 = 0) : step s = busRead (s.part.base + off) off { s with inbox := rest } := by
  rw [step_access h]; exact hostAccess_read (s := { s with inbox := rest }) h1 h2

/-- The next event a legal write: step is that write. -/
theorem step_write {s : State} {off : Nat} {v : Word} {rest : List BusEvent} (h : NextIsWrite s off v rest)
    (h1 : off < 0xC0000) (h2 : off % 4 = 0) : step s = .next (busWrite off v { s with inbox := rest }) := by
  rw [step_access h]; exact hostAccess_write (s := { s with inbox := rest }) h1 h2

end Sys2Proof.Machine
end

