-- ==== Sys2Proof/Laws/Bus.lean ====
section
/-! SUPPORT. The host's accesses, said once: what a locked write does, which offset selects which entry, and what a read
of a known value or of an unmapped offset does. -/

namespace Sys2Proof.Machine

/-- A refused write sets ACCERR and nothing else (R80). -/
theorem lockedWrite_busy {f : State → State} {s : State} (h : isBusy s = true) : lockedWrite f s = setAccErr s :=
  if_pos h

/-- A write of locked state while IDLE takes effect (R79). -/
theorem lockedWrite_idle {f : State → State} {s : State} (h : isBusy s = false) : lockedWrite f s = f s := by
  unfold lockedWrite; rw [h]; rfl

/-- The limits of a legal part (R8). -/
theorem part_limits {p : Config.Part} (h : p.wf = true) : 1 ≤ p.nmax ∧ p.nmax ≤ 16 ∧ 1 ≤ p.mmax ∧ p.mmax ≤ 32 := by
  simp [Config.Part.wf] at h; omega

/-- S-box entry x is at its offset, for every x the part has (R72). -/
theorem targetOf_sbox {nmax x : Nat} (hn : nmax ≤ 16) (hx : x < 2 ^ nmax) : targetOf nmax (sboxOff x) = .sbox x := by
  have h16 : 2 ^ nmax ≤ 2 ^ 16 := Nat.pow_le_pow_right (by omega) hn
  unfold targetOf sboxOff
  rw [if_neg (by omega), if_pos (by omega), show (0x40000 + 4 * x - 0x40000) / 4 = x by omega, if_pos hx]

/-- Buffer entry x is at its offset, for every x the part has (R72). -/
theorem targetOf_buf {nmax x : Nat} (hn : nmax ≤ 16) (hx : x < 2 ^ nmax) : targetOf nmax (bufOff x) = .buf x := by
  have h16 : 2 ^ nmax ≤ 2 ^ 16 := Nat.pow_le_pow_right (by omega) hn
  unfold targetOf bufOff
  rw [if_neg (by omega), if_neg (by omega), if_pos (by omega), show (0x80000 + 4 * x - 0x80000) / 4 = x by omega,
    if_pos hx]

/-- What a read gives does not depend on the inbox. -/
theorem readTarget_inbox (s : State) (rest : List BusEvent) (t : Target) :
    readTarget { s with inbox := rest } t = readTarget s t := by
  cases t with
  | reg r => cases r <;> rfl
  | slot k f => cases f <;> rfl
  | sbox x => rfl
  | buf x => rfl
  | unmapped => rfl

/-- A read of a value delivers it (R78). -/
theorem delivers_of_value {s : State} {off : Nat} {v : Word} {rest : List BusEvent} (h1 : off < 0xC0000)
    (h2 : off % 4 = 0) (hr : readTarget s (targetOf s.part.nmax off) = .value v) (hn : NextIsRead s off rest) :
    Delivers s off v rest := by
  have e := (readTarget_inbox s rest (targetOf s.part.nmax off)).trans hr
  unfold Delivers
  rw [step_read hn h1 h2, busRead]
  simp only [e]
  rfl

/-- An unmapped offset reads 0 (R39, R72, R78). -/
theorem delivers_unmapped {s : State} {off : Nat} {rest : List BusEvent} (h1 : off < 0xC0000) (h2 : off % 4 = 0)
    (ht : targetOf s.part.nmax off = .unmapped) (hn : NextIsRead s off rest) : Delivers s off 0 rest :=
  delivers_of_value h1 h2 (by rw [ht]; rfl) hn

/-- A write to an unmapped offset does nothing (R39, R72, R79). -/
theorem onlyConsumed_unmapped {s : State} {off : Nat} {v : Word} {rest : List BusEvent} (h1 : off < 0xC0000)
    (h2 : off % 4 = 0) (ht : targetOf s.part.nmax off = .unmapped) (hn : NextIsWrite s off v rest) :
    OnlyConsumed s rest := by
  have ht' : targetOf ({ s with inbox := rest } : State).part.nmax off = .unmapped := ht
  unfold OnlyConsumed
  rw [step_write hn h1 h2, busWrite, ht']
  rfl

/-- A write to a read-only register or slot register does nothing (R79, R80). -/
theorem onlyConsumed_readOnly {s : State} {off : Nat} {v : Word} {rest : List BusEvent} (h1 : off < 0xC0000)
    (h2 : off % 4 = 0) (ht : ∀ u, writeTarget v u (targetOf s.part.nmax off) = u) (hn : NextIsWrite s off v rest) :
    OnlyConsumed s rest := by
  unfold OnlyConsumed
  rw [step_write hn h1 h2, busWrite]
  exact congrArg _ (ht _)

/-- A write to a locked register stores all 32 bits in that register alone while IDLE, and is refused while BUSY
(R23, R79, R80). -/
theorem step_write_operand {s : State} {off : Nat} {r : RegName} {v : Word} {rest : List BusEvent}
    (hl : isLocked r = true) (ht : targetOf s.part.nmax off = .reg r) (h1 : off < 0xC0000) (h2 : off % 4 = 0)
    (hn : NextIsWrite s off v rest) :
    step s = .next (lockedWrite (writeOperand r v) { s with inbox := rest }) := by
  have ht' : targetOf ({ s with inbox := rest } : State).part.nmax off = .reg r := ht
  rw [step_write hn h1 h2, busWrite, ht']
  cases r <;> first | rfl | cases hl

/-- What `familyRunning` decides. -/
theorem familyRunning_iff {f : Family} {s : State} : familyRunning f s = true ↔ FamilyRuns s f := by
  unfold familyRunning runningCommand FamilyRuns commandOf
  cases s.phase with
  | idle => simp
  | busy w => cases h : decodeCommand w <;> simp [h]

theorem familyRunning_false {f : Family} {s : State} (h : ¬FamilyRuns s f) : familyRunning f s = false :=
  Bool.eq_false_iff.2 (fun ht => h (familyRunning_iff.1 ht))

end Sys2Proof.Machine
end

