-- ==== Sys2Proof/Laws/PerInstr.lean ====
section
/-! SUPPORT. Statements per instruction, about the instruction as syntax. -/

namespace Sys2Proof.Laws.Encoding

/-- A command is well formed, its command word has zero reserved bits and its opcode in 7:0, and its four bytes are
the opcode and three zero bytes (R76, R100). -/
def Statement (i : Instr) : Prop :=
  i.wf = true ∧ (encode i).extractLsb' 8 24 = 0 ∧ (encode i).extractLsb' 0 8 = opcode i ∧
    encodeBytes i = [opcode i, 0, 0, 0]

theorem nop : Statement .nop := by unfold Statement; decide
theorem bvBit : Statement .bvBit := by unfold Statement; decide
theorem bvParity : Statement .bvParity := by unfold Statement; decide
theorem bvHamming : Statement .bvHamming := by unfold Statement; decide
theorem wht : Statement .wht := by unfold Statement; decide
theorem whtRaw : Statement .whtRaw := by unfold Statement; decide
theorem whtComp : Statement .whtComp := by unfold Statement; decide
theorem nl : Statement .nl := by unfold Statement; decide
theorem sac : Statement .sac := by unfold Statement; decide
theorem lap : Statement .lap := by unfold Statement; decide
theorem dap : Statement .dap := by unfold Statement; decide
theorem bicNl : Statement .bicNl := by unfold Statement; decide
theorem bicSac : Statement .bicSac := by unfold Statement; decide
theorem runSel : Statement .runSel := by unfold Statement; decide

end Sys2Proof.Laws.Encoding
end

