-- ==== Sys2Proof/Tests/Slice0.lean ====
section
/-! SUPPORT. Tests of the model. Every expected value is from spec/: words written out from R100 and R101, and results of
95_test_vectors.md section 2 (its sub-section is named). After them, for every statement of Obligations.lean that has
hypotheses, a witness that meets them. -/

namespace Sys2Proof.Tests

open Sys2Proof Sys2Proof.Machine

/-! ### Well-formedness: one ill-formed term for each check -/

theorem test_part_reference : Config.reference.wf = true := by decide
theorem test_part_largest : ({ nmax := 16, mmax := 32, base := 0x100000 } : Config.Part).wf = true := by decide
theorem test_part_nmax_zero : ({ nmax := 0, mmax := 8, base := 0 } : Config.Part).wf = false := by decide
theorem test_part_nmax_17 : ({ nmax := 17, mmax := 8, base := 0 } : Config.Part).wf = false := by decide
theorem test_part_mmax_zero : ({ nmax := 8, mmax := 0, base := 0 } : Config.Part).wf = false := by decide
theorem test_part_mmax_33 : ({ nmax := 8, mmax := 33, base := 0 } : Config.Part).wf = false := by decide
theorem test_part_base : ({ nmax := 8, mmax := 8, base := 0x80000 } : Config.Part).wf = false := by decide

/-- A part whose aperture does not start at 0. -/
def highPart : Config.Part := { nmax := 8, mmax := 8, base := 0x100000 }

theorem test_access_ok : (Access.read 0x1BFFFC .word).wf highPart = true := by decide
theorem test_access_size : (Access.read 0x100000 .byte).wf highPart = false ∧
    (Access.write 0x100000 .half 0).wf highPart = false ∧ (Access.write 0x100000 .double 0).wf highPart = false := by
  decide
theorem test_access_below : (Access.read 0xFFFFC .word).wf highPart = false ∧
    (Access.write 0xFFFFC .word 0).wf highPart = false := by decide
theorem test_access_beyond : (Access.read 0x1C0000 .word).wf highPart = false ∧
    (Access.write 0x1C0000 .word 0).wf highPart = false := by decide
theorem test_access_misaligned : (Access.read 0x100002 .word).wf highPart = false ∧
    (Access.write 0x100001 .word 0).wf highPart = false := by decide
theorem test_event_misaligned : (BusEvent.access (.read 0x100002 .word)).wf highPart = false := by decide

/-! ### Decoding: every command by its word, bits 31:8 zero and the opcode of R101 in 7:0 -/

theorem test_decode_nop : decodeCommand 0b00000000000000000000000000000000#32 = .ok .nop := by decide
theorem test_decode_bvBit : decodeCommand 0b00000000000000000000000000000001#32 = .ok .bvBit := by decide
theorem test_decode_bvParity : decodeCommand 0b00000000000000000000000000000010#32 = .ok .bvParity := by decide
theorem test_decode_bvHamming : decodeCommand 0b00000000000000000000000000000011#32 = .ok .bvHamming := by decide
theorem test_decode_wht : decodeCommand 0b00000000000000000000000000010000#32 = .ok .wht := by decide
theorem test_decode_whtRaw : decodeCommand 0b00000000000000000000000000010001#32 = .ok .whtRaw := by decide
theorem test_decode_whtComp : decodeCommand 0b00000000000000000000000000010010#32 = .ok .whtComp := by decide
theorem test_decode_nl : decodeCommand 0b00000000000000000000000000100000#32 = .ok .nl := by decide
theorem test_decode_sac : decodeCommand 0b00000000000000000000000000100001#32 = .ok .sac := by decide
theorem test_decode_lap : decodeCommand 0b00000000000000000000000000100010#32 = .ok .lap := by decide
theorem test_decode_dap : decodeCommand 0b00000000000000000000000000100011#32 = .ok .dap := by decide
theorem test_decode_bicNl : decodeCommand 0b00000000000000000000000000100100#32 = .ok .bicNl := by decide
theorem test_decode_bicSac : decodeCommand 0b00000000000000000000000000100101#32 = .ok .bicSac := by decide
theorem test_decode_runSel : decodeCommand 0b00000000000000000000000000101111#32 = .ok .runSel := by decide

/-- Section 2.9's illegal words, and the neighbours of the map's rows, are refused by name (R102). -/
theorem test_decode_refused :
    decodeCommand 0x00000004#32 = .error .unknownOpcode ∧ decodeCommand 0x00000026#32 = .error .unknownOpcode ∧
    decodeCommand 0x0000002E#32 = .error .unknownOpcode ∧ decodeCommand 0x00000013#32 = .error .unknownOpcode ∧
    decodeCommand 0x000000FF#32 = .error .unknownOpcode ∧ decodeCommand 0x00000100#32 = .error .reservedBits ∧
    decodeCommand 0x00000120#32 = .error .reservedBits ∧ decodeCommand 0x80000010#32 = .error .reservedBits := by
  decide

/-- Bytes are little-endian (R76); fewer than four are refused. -/
theorem test_decode_bytes : decodeBytes [0x25#8, 0#8, 0#8, 0#8, 0x77#8] = .ok (.bicSac, [0x77#8]) ∧
    decodeBytes [0#8, 0#8, 0#8, 0x25#8] = .error .reservedBits ∧ decodeBytes [0x25#8, 0#8, 0#8] = .error .truncated := by
  decide

theorem test_encode : encode .runSel = 0x0000002F#32 ∧ encodeBytes .whtComp = [0x12#8, 0#8, 0#8, 0#8] := by decide

theorem test_tableWord : decodeTableWord 32 0x22 = some .lap ∧ decodeTableWord 32 0x122 = none ∧
    decodeTableWord 32 0x100000022 = none := by decide

/-! ### Helpers -/

/-- The end state of an outcome, if it is a next state. -/
def endState : Host.Outcome State Fault Refusal → Option State
  | .next t => some t
  | .fault _ => none
  | .refused _ => none

/-- An outcome that is a next state of which `p` holds. -/
def endsWith (o : Host.Outcome State Fault Refusal) (p : State → Bool) : Bool := ((endState o).map p).getD false

theorem exists_of_endsWith {o : Host.Outcome State Fault Refusal} {p : State → Bool} (h : endsWith o p = true) :
    ∃ t, o = .next t ∧ p t = true := by
  cases o with
  | next t => exact ⟨t, rfl, h⟩
  | fault f => exact absurd h (by simp [endsWith, endState])
  | refused r => exact absurd h (by simp [endsWith, endState])

/-- The reference part with operand registers for a bit-vector command. -/
def bvState (a b : Word) : State := { State.reset with regs := { State.reset.regs with opa := a, opb := b } }

/-- The reference part with N_LOG = n and BUF loaded from 0 on. -/
def bufState (n : Nat) (vs : List Int) : State :=
  { State.reset with
    regs := { State.reset.regs with nLog := BitVec.ofNat 32 n }
    mem := Memory.writeWords [] (bufOff 0) (vs.map patternOf) }

/-- The reference part with N_LOG = n, M_BITS = m, and a table loaded (R107's `params` and `load`). -/
def sboxState (n m : Nat) (table : List Nat) : State :=
  { State.reset with
    regs := { State.reset.regs with
      nLog := BitVec.ofNat 32 n
      mBits := BitVec.ofNat 32 m
      tblLen := BitVec.ofNat 32 table.length }
    mem := Memory.writeWords [] (sboxOff 0) (table.map (BitVec.ofNat 32)) }

/-- The same with SEL. -/
def selState (sel : Word) (n m : Nat) (table : List Nat) : State :=
  { sboxState n m table with regs := { (sboxState n m table).regs with sel := sel } }

/-- The same with TBL_LEN overwritten. -/
def lenState (len : Word) (n m : Nat) (table : List Nat) : State :=
  { sboxState n m table with regs := { (sboxState n m table).regs with tblLen := len } }

/-- The same with MASK. -/
def maskState (mask : Word) (n m : Nat) (table : List Nat) : State :=
  { sboxState n m table with regs := { (sboxState n m table).regs with mask := mask } }

/-- The reference part with a phase, and the host's events. -/
def busState (ph : Phase) (es : List BusEvent) : State := { State.reset with phase := ph, inbox := es }

/-- BUF entries as signed numbers. -/
def bufIs (t : State) (vs : List Int) : Bool :=
  decide ((List.range vs.length).map (fun x => (t.mem.readWord (bufOff x)).map BitVec.toInt) = vs.map some)

/-- STATUS, ERR_EXP, ERR_ACT, ERR_IDX. -/
def errorIs (t : State) (status exp act idx : Word) : Bool :=
  decide (statusWord t = status ∧ t.errCtx = { exp := exp, act := act, idx := idx })

/-- The table s3 of section 2.5. -/
def tableS3 : List Nat := [0, 1, 3, 6, 7, 4, 5, 2]

/-! ### One step of each command (95_test_vectors.md) -/

theorem test_nop : endsWith (exec .nop (busState (.busy 0) [])) (fun t => statusWord t == 0x00000002) = true := by decide

theorem test_bvBit : endsWith (exec .bvBit (bvState 0x0000000A 1)) (fun t => t.bvResult == 1) = true := by decide
theorem test_bvBit_past_width :
    endsWith (exec .bvBit (bvState 0xFFFFFFFF 32)) (fun t => t.bvResult == 0) = true := by decide
theorem test_bvParity : endsWith (exec .bvParity (bvState 0x80000000 5)) (fun t => t.bvResult == 1) = true := by decide
theorem test_bvParity_even : endsWith (exec .bvParity (bvState 0xDEADBEEF 0)) (fun t => t.bvResult == 0) = true := by
  decide
theorem test_bvHamming :
    endsWith (exec .bvHamming (bvState 0xDEADBEEF 0x12345678)) (fun t => t.bvResult == 17) = true := by decide
theorem test_bvHamming_max : endsWith (exec .bvHamming (bvState 0 0xFFFFFFFF)) (fun t => t.bvResult == 32) = true := by
  decide

theorem test_wht : endsWith (exec .wht (bufState 2 [0, 0, 0, 1, 9]))
    (fun t => bufIs t [-2, -2, -2, 2, 9] && t.whtMaxAbs == 2 && statusWord t == 0x00000002) = true := by decide +kernel
theorem test_wht_notBoolean : endsWith (exec .wht (bufState 2 [0, 1, -1, 0]))
    (fun t => bufIs t [0, 1, -1, 0] && t.whtMaxAbs == 0 && errorIs t 0x00000706 1 0xFFFFFFFF 2) = true := by
  decide +kernel
theorem test_whtRaw : endsWith (exec .whtRaw (bufState 2 [3, -2, 5, 7]))
    (fun t => bufIs t [13, 3, -11, 7] && t.whtMaxAbs == 13) = true := by decide +kernel
theorem test_whtRaw_overflow : endsWith (exec .whtRaw (bufState 2 [0x40000000, 0, 0x40000000, 0]))
    (fun t => t.whtMaxAbs == 0 && errorIs t 0x00000806 0 0 1) = true := by decide +kernel
theorem test_whtComp : endsWith (exec .whtComp (maskState 1 2 2 [0, 1, 3, 2]))
    (fun t => bufIs t [0, 0, 0, -4] && t.whtMaxAbs == 4) = true := by decide +kernel
theorem test_whtComp_mask_above : endsWith (exec .whtComp (maskState 0xFFFFFFFC 2 2 [0, 1, 2, 3]))
    (fun t => bufIs t [-4, 0, 0, 0]) = true := by decide +kernel

theorem test_nl : endsWith (exec .nl (sboxState 3 3 tableS3))
    (fun t => t.slots.nl == { num := 2, den := 1, aux := 0, valid := true }) = true := by decide +kernel
theorem test_nl_domain : endsWith (exec .nl (sboxState 2 2 [0, 1, 4, 3]))
    (fun t => t.slots.nl == Slot.zero && errorIs t 0x00000506 3 4 2) = true := by decide +kernel
theorem test_sac : endsWith (exec .sac (sboxState 2 2 [0, 1, 3, 2]))
    (fun t => t.slots.sac == { num := 12, den := 16, aux := 0, valid := true }) = true := by decide +kernel
theorem test_sac_wide : endsWith (exec .sac (sboxState 1 2 [0, 3]))
    (fun t => t.slots.sac == { num := 4, den := 2, aux := 0, valid := true }) = true := by decide +kernel
theorem test_lap : endsWith (exec .lap (sboxState 3 3 tableS3))
    (fun t => t.slots.lap == { num := 2, den := 8, aux := 0, valid := true }) = true := by decide +kernel
theorem test_lap_length : endsWith (exec .lap (lenState 3 2 2 [0, 1, 2, 3]))
    (fun t => errorIs t 0x00000306 4 3 0) = true := by decide +kernel
theorem test_dap : endsWith (exec .dap (sboxState 3 3 tableS3))
    (fun t => t.slots.dap == { num := 2, den := 8, aux := 0, valid := true }) = true := by decide +kernel
theorem test_dap_wide : endsWith (exec .dap (sboxState 1 2 [0, 3]))
    (fun t => t.slots.dap == { num := 0, den := 2, aux := 0, valid := true }) = true := by decide +kernel
theorem test_bicNl : endsWith (exec .bicNl (sboxState 3 3 tableS3))
    (fun t => t.slots.bicNl == { num := 6, den := 3, aux := 0, valid := true }) = true := by decide +kernel
theorem test_bicNl_degenerate : endsWith (exec .bicNl (sboxState 1 1 [1, 0]))
    (fun t => errorIs t 0x00000606 2 1 4) = true := by decide +kernel
theorem test_bicSac_degenerate : endsWith (exec .bicSac (sboxState 2 2 [0, 1, 9, 3]))
    (fun t => errorIs t 0x00000606 256 4 5) = true := by decide +kernel
/-- Section 2.5: the rounding at ties, and AES's AUX. -/
theorem test_bicSac_rounding : roundHalfEven 3125 2 = 1562 ∧ roundHalfEven 9375 2 = 4688 ∧ roundHalfEven 1 2 = 0 ∧
    roundHalfEven 3 2 = 2 ∧ roundHalfEven (28936 * 100000) 57344 = 50460 := by decide
theorem test_runSel : endsWith (exec .runSel (selState 0x0F 2 2 [0, 1, 2, 3]))
    (fun t => t.slots.nl == { num := 0, den := 1, aux := 0, valid := true } &&
      t.slots.sac == { num := 8, den := 16, aux := 0, valid := true } &&
      t.slots.lap == { num := 2, den := 4, aux := 0, valid := true } &&
      t.slots.dap == { num := 4, den := 4, aux := 0, valid := true } && t.slots.bicNl == Slot.zero) = true := by
  decide +kernel
theorem test_runSel_reserved : endsWith (exec .runSel (selState 0x41 2 2 [0, 1, 2, 3]))
    (fun t => errorIs t 0x00000206 0x3F 0x41 2) = true := by decide +kernel

/-! ### The step, the host's accesses, START and ABORT -/

/-- withFetchWord runs the word as the very next step (section 2.9). -/
theorem test_fetch : endsWith (step (State.reset.withFetchWord 32 0x10)) (fun t => errorIs t 0x00000206 8 0 0) = true ∧
    endsWith (step (State.reset.withFetchWord 32 0x120)) (fun t => errorIs t 0x00000106 0 0x120 0) = true := by
  decide +kernel

theorem test_abort : endsWith (step (busState (.busy 0x22) [wr Config.reference .ctrl 3]))
    (fun t => errorIs t 0x00000906 0 0 0) = true := by decide +kernel

theorem test_locked : endsWith (step (busState (.busy 0x22) [wr Config.reference .nLog 3]))
    (fun t => t.regs.nLog == 0 && statusWord t == 0x00000009) = true := by decide +kernel

/-- Section 2.9: `wr STATUS, 0x2` on 0x0000050E leaves 0x0000050C. -/
theorem test_w1c : endsWith
    (step { busState .idle [wr Config.reference .status 2] with
      flags := { done := true, err := true, accErr := true, errCode := .domain } })
    (fun t => statusWord t == 0x0000050C) = true := by decide +kernel

theorem test_irq : irqLine { State.reset with
    irqEn := 1, flags := { done := true, err := false, accErr := false, errCode := .none } } = true := by decide

theorem test_cfg : endsWith (step (busState .idle [rd Config.reference .cfg]))
    (fun t => t.replies == [{ addr := 4, value := 0x00000808 }]) = true := by decide +kernel

theorem test_slot_offset : targetOf 8 0x0D8 = .slot .bicSac .aux ∧ targetOf 8 0x403FC = .sbox 255 ∧
    targetOf 8 0x40400 = .unmapped ∧ targetOf 8 0x8000C = .buf 3 ∧ targetOf 8 0x048 = .unmapped := by decide

/-- The codes of R201, in its order. -/
theorem test_error_codes :
    [ErrCode.none, .badOpcode, .param, .lenNotPow2, .lenMismatch, .domain, .degenerate, .notBoolean, .overflow,
      .aborted].map ErrCode.code = [0x00, 0x01, 0x02, 0x03, 0x04, 0x05, 0x06, 0x07, 0x08, 0x09] := by decide

/-- The offset of R22: N_LOG is at 0x014. -/
theorem test_read_nLog : readTarget { State.reset with regs := { State.reset.regs with nLog := 7 } } (targetOf 8 0x014) =
    .value 7 := by decide

/-- Slots 0 and 5 as R40 lays them out; AUX of slot 0 reads 0. -/
theorem test_read_slots :
    [0x0D0, 0x0D4, 0x0D8, 0x0DC, 0x080, 0x088].map (fun off => readTarget
      { State.reset with slots := { State.reset.slots with
          bicSac := { num := 1, den := 2, aux := 3, valid := true }
          nl := { num := 4, den := 5, aux := 6, valid := true } } } (targetOf 8 off)) =
      [.value 1, .value 2, .value 3, .value 1, .value 4, .value 0] := by decide

/-! ### Witnesses: for each statement with hypotheses, a state and operands that meet all of them

The table [0, 1, 2, 3] of section 1.1 with n = m = 2, the WHT rows of section 2.2, and a table of 256 zeros. -/

/-- The identity table of section 1.1. -/
def idState : State := sboxState 2 2 [0, 1, 2, 3]

/-- The table of `idState`. -/
def idTable (x : Nat) : Nat := [0, 1, 2, 3].getD x 0

/-- A loaded table is the table the S-box RAM holds. -/
theorem sboxState_holds {n m : Nat} {table : List Nat} (hn : n < 2 ^ 32) (hm : m < 2 ^ 32) (hl : table.length = 2 ^ n)
    (hv : ∀ v ∈ table, v < 2 ^ m) : SboxHolds (sboxState n m table) (fun x => table.getD x 0) := by
  have en : opN (sboxState n m table) = n := by simp only [opN, sboxState, BitVec.toNat_ofNat]; omega
  have em : opM (sboxState n m table) = m := by simp only [opM, sboxState, BitVec.toNat_ofNat]; omega
  intro x hx
  rw [en] at hx
  have hx' : x < table.length := by omega
  have hr := readWord_writeWords_inside [] (sboxOff 0) (table.map (BitVec.ofNat 32)) x (by simpa using hx')
  rw [em]
  refine ⟨?_, ?_⟩
  · have e : sboxOff 0 + 4 * x = sboxOff x := by simp only [sboxOff]
    rw [e] at hr
    show (Memory.writeWords [] (sboxOff 0) (table.map (BitVec.ofNat 32))).readWord (sboxOff x) = _
    rw [hr]
    simp [List.getElem?_eq_getElem hx']
  · show table.getD x 0 < 2 ^ m
    rw [List.getD_eq_getElem?_getD, List.getElem?_eq_getElem hx']
    exact hv _ (List.getElem_mem hx')

/-- 256 zeros, n = m = 8: the smallest table of a BICSAC. -/
def zeroState : State := selState 0x3F 8 8 (List.replicate 256 0)

theorem idState_legal : LegalScalars idState := by unfold LegalScalars LegalWidth LegalOutputWidth; decide
theorem idState_holds : SboxHolds idState idTable := sboxState_holds (by decide) (by decide) rfl (by decide)
theorem zeroState_legal : LegalScalars zeroState := by
  have hl : zeroState.regs.tblLen = 256 := by
    simp only [zeroState, selState, sboxState, List.length_replicate]; rfl
  refine ⟨⟨by decide, by decide⟩, ⟨by decide, by decide⟩, ?_⟩
  rw [hl]; decide
theorem zeroState_holds : SboxHolds zeroState (fun x => (List.replicate 256 0).getD x 0) :=
  sboxState_holds (n := 8) (m := 8) (by decide) (by decide) (List.length_replicate.trans (by decide))
    (fun v hv => by rw [List.eq_of_mem_replicate hv]; decide)

theorem witness_DecodeIsInverseOfEncode : ∃ i : Instr, i.wf = true := ⟨.runSel, rfl⟩

theorem witness_IllegalCommandWord : ∃ (s s' : State) (v : Word) (rest : List BusEvent),
    (s.phase = .idle ∧ NextIsWrite s 0x008 v rest ∧ v.getLsbD 0 = true ∧ v.getLsbD 1 = false ∧
      s.regs.cmd.extractLsb' 8 24 ≠ 0) ∧
    (s'.phase = .idle ∧ NextIsWrite s' 0x008 v rest ∧ s'.regs.cmd.extractLsb' 0 8 ∉ legalOpcodes) :=
  ⟨{ busState .idle [wr Config.reference .ctrl 1] with regs := { State.reset.regs with cmd := 0x100 } },
    { busState .idle [wr Config.reference .ctrl 1] with regs := { State.reset.regs with cmd := 0x04 } }, 1, [],
    ⟨rfl, rfl, by decide, by decide, by decide⟩, ⟨rfl, rfl, by decide⟩⟩

/-- The three clauses at an empty inbox and at an engine event. -/
theorem witness_StepRunsDecodedCommand : ∃ s1 s2 s3 s4 t2 : State,
    (EngineIsNext s1 s1 ∧ s1.phase = .busy 0x2F ∧ decodeCommand 0x2F = .ok .runSel ∧ Instr.runSel.wf = true) ∧
    (EngineIsNext s2 t2 ∧ s2.phase = .busy 0x2F) ∧
    (EngineIsNext s3 s3 ∧ s3.phase = .busy 0x100 ∧ ∀ i, decodeCommand 0x100 ≠ .ok i) ∧
    EngineIsNext s4 s4 ∧ s4.phase = .idle :=
  ⟨busState (.busy 0x2F) [], busState (.busy 0x2F) [.engine], busState (.busy 0x100) [], busState .idle [],
    busState (.busy 0x2F) [], ⟨.inl ⟨rfl, rfl⟩, rfl, by decide, rfl⟩, ⟨.inr ⟨[], rfl, rfl⟩, rfl⟩,
    ⟨.inl ⟨rfl, rfl⟩, rfl, by intro i; cases i <;> decide⟩, .inl ⟨rfl, rfl⟩, rfl⟩

theorem witness_EndStepEndsTheCommand : ∃ (s : State) (w : Word), s.phase = .busy w := ⟨busState (.busy 0) [], 0, rfl⟩

theorem witness_NopOnlySetsDone : (∃ s : State, s.phase = .busy 0x00000100#32) ∧
    ∃ s : State, s.phase = .idle ∧ s.flags.accErr = false ∧ s.inbox = hostRun s.part .nop :=
  ⟨⟨busState (.busy 0x100) [], rfl⟩, busState .idle (hostRun Config.reference .nop), rfl, rfl, rfl⟩

theorem witness_ButterflyClosedForm : (0 ≤ 16 ∧ [(5 : Int)].length = 2 ^ 0) ∧
    ∃ buf : List Int, 16 ≤ 16 ∧ buf.length = 2 ^ 16 :=
  ⟨by decide, List.replicate (2 ^ 16) 0, le_refl _, List.length_replicate⟩

/-- The first row of section 2.2 with n = 1, and one with n = 2. -/
theorem witness_WhtResult : ∃ (s s' : State) (b b' : Nat → Nat),
    (s.part.wf = true ∧ LegalWidth s ∧ BufHoldsBits s b) ∧ s'.part.wf = true ∧ LegalWidth s' ∧ BufHoldsBits s' b' := by
  refine ⟨bufState 1 [0, 1], bufState 2 [0, 1, 1, 0], fun x => [0, 1].getD x 0, fun x => [0, 1, 1, 0].getD x 0, ?_, ?_⟩
  · unfold LegalWidth BufHoldsBits; decide +kernel
  · unfold LegalWidth BufHoldsBits; decide +kernel

/-- The rule's example, n = 2, and the legal extreme of section 2.3, n = 1. -/
theorem witness_WhtRawResult : ∃ (s s' : State) (F F' : Nat → Int),
    (s.part.wf = true ∧ LegalWidth s ∧ BufHolds s F ∧
      ∀ k, 1 ≤ k → k ≤ opN s → ∀ x < 2 ^ opN s, InSignedRange (walshPartial k F x)) ∧
    s'.part.wf = true ∧ LegalWidth s' ∧ BufHolds s' F' ∧
      ∀ k, 1 ≤ k → k ≤ opN s' → ∀ x < 2 ^ opN s', InSignedRange (walshPartial k F' x) := by
  refine ⟨bufState 2 [3, -2, 5, 7], bufState 1 [-0x80000000, 0], fun x => [3, -2, 5, 7].getD x 0,
    fun x => [-0x80000000, 0].getD x 0,
    ⟨by decide, by unfold LegalWidth; decide, fun x hx => ?_, fun k h1 h2 x hx => ?_⟩,
    by decide, by unfold LegalWidth; decide, fun x hx => ?_, fun k h1 h2 x hx => ?_⟩
  · have h : ∀ x < 4, ((bufState 2 [3, -2, 5, 7]).mem.readWord (bufOff x)).map BitVec.toInt =
        some (([3, -2, 5, 7] : List Int).getD x 0) := by decide +kernel
    simpa [Option.map_eq_some_iff] using h x hx
  · have h : ∀ k < 3, ∀ x < 4, -(2 ^ 31) ≤ walshPartial k (fun x => [3, -2, 5, 7].getD x 0) x ∧
        walshPartial k (fun x => [3, -2, 5, 7].getD x 0) x ≤ 2 ^ 31 - 1 := by decide +kernel
    exact h k (Nat.lt_succ_of_le h2) x hx
  · have h : ∀ x < 2, ((bufState 1 [-0x80000000, 0]).mem.readWord (bufOff x)).map BitVec.toInt =
        some (([-0x80000000, 0] : List Int).getD x 0) := by decide +kernel
    simpa [Option.map_eq_some_iff] using h x hx
  · have h : ∀ k < 2, ∀ x < 2, -(2 ^ 31) ≤ walshPartial k (fun x => [-0x80000000, 0].getD x 0) x ∧
        walshPartial k (fun x => [-0x80000000, 0].getD x 0) x ≤ 2 ^ 31 - 1 := by decide +kernel
    exact h k (Nat.lt_succ_of_le h2) x hx

/-- Section 2.3's overflow in stage 1. -/
theorem witness_WhtRawOverflow : (∃ (s : State) (F : Nat → Int) (i x : Nat), s.part.wf = true ∧ LegalWidth s ∧
    BufHolds s F ∧ i < opN s ∧ x < 2 ^ opN s ∧
    (∀ k, 1 ≤ k → k ≤ i → ∀ y < 2 ^ opN s, InSignedRange (walshPartial k F y)) ∧
    ¬InSignedRange (walshPartial (i + 1) F x)) ∧ ∃ (i : Instr) (s t : State), i ≠ .whtRaw ∧ exec i s = .next t := by
  refine ⟨⟨bufState 2 [0x40000000, 0, 0x40000000, 0], fun x => [0x40000000, 0, 0x40000000, 0].getD x 0, 1, 0,
    by decide, by unfold LegalWidth; decide, fun x hx => ?_, by decide, by decide, fun k h1 h2 y hy => ?_,
    by unfold InSignedRange; decide +kernel⟩, .nop, State.reset, _, by decide, rfl⟩
  · have h : ∀ x < 4, ((bufState 2 [0x40000000, 0, 0x40000000, 0]).mem.readWord (bufOff x)).map BitVec.toInt =
        some (([0x40000000, 0, 0x40000000, 0] : List Int).getD x 0) := by decide +kernel
    simpa [Option.map_eq_some_iff] using h x hx
  · have h : ∀ k < 2, ∀ x < 4, -(2 ^ 31) ≤ walshPartial k (fun x => [0x40000000, 0, 0x40000000, 0].getD x 0) x ∧
        walshPartial k (fun x => [0x40000000, 0, 0x40000000, 0].getD x 0) x ≤ 2 ^ 31 - 1 := by decide +kernel
    exact h k (Nat.lt_succ_of_le h2) y hy

/-- The hypotheses of WhtCompResult, NlResult, SacResult, LapResult, DapResult and LapSpectralForm. -/
theorem witness_TableResults : ∃ (s : State) (S : Nat → Nat), s.part.wf = true ∧ LegalScalars s ∧ SboxHolds s S :=
  ⟨idState, idTable, by decide, idState_legal, idState_holds⟩

/-- Both cases of SpectrumBounds and of Parseval. -/
theorem witness_SpectrumBounds_Parseval :
    (∃ (s t : State) (b : Nat → Nat), s.part.wf = true ∧ exec .wht s = .next t ∧ BufHoldsBits s b ∧
      t.flags.errCode = .none) ∧
    ∃ (s t : State) (b : Nat → Nat), s.part.wf = true ∧ exec .whtComp s = .next t ∧
      (∃ S, SboxHolds s S ∧ ∀ x < 2 ^ opN s, b x = popcount (S x &&& s.regs.mask.toNat) % 2) ∧
      t.flags.errCode = .none := by
  constructor
  · obtain ⟨t, h1, h2⟩ := exists_of_endsWith (o := exec .wht (bufState 2 [0, 1, 1, 0]))
      (p := fun t => decide (t.flags.errCode = .none)) (by decide +kernel)
    exact ⟨_, t, fun x => [0, 1, 1, 0].getD x 0, by decide, h1, by unfold BufHoldsBits; decide +kernel,
      of_decide_eq_true h2⟩
  · obtain ⟨t, h1, h2⟩ := exists_of_endsWith (o := exec .whtComp idState)
      (p := fun t => decide (t.flags.errCode = .none)) (by decide +kernel)
    exact ⟨_, t, _, by decide, h1, ⟨idTable, idState_holds, fun x _ => rfl⟩, of_decide_eq_true h2⟩

/-- Both parts of ButterflyInvolution: a buffer of 2^16 entries, and a row of section 2.2. -/
theorem witness_ButterflyInvolution : (∃ buf : List Int, 16 ≤ 16 ∧ buf.length = 2 ^ 16) ∧
    ∃ (s : State) (b : Nat → Nat), s.part.wf = true ∧ LegalWidth s ∧ BufHoldsBits s b :=
  ⟨⟨List.replicate (2 ^ 16) 0, le_refl _, List.length_replicate⟩, bufState 2 [0, 1, 1, 0],
    fun x => [0, 1, 1, 0].getD x 0, by unfold LegalWidth BufHoldsBits; decide +kernel⟩

/-- Section 2.2's rows: the entry 5 at x = 0, and the entry -1 at x = 2 after 0 and 1. -/
theorem witness_NotBooleanError : ∃ (s s' : State) (w w' : Word),
    (LegalWidth s ∧ 0 < 2 ^ opN s ∧ s.mem.readWord (bufOff 0) = some w ∧ w ≠ 0 ∧ w ≠ 1) ∧
    LegalWidth s' ∧ 2 < 2 ^ opN s' ∧
      (∀ y < 2, s'.mem.readWord (bufOff y) = some 0 ∨ s'.mem.readWord (bufOff y) = some 1) ∧
      s'.mem.readWord (bufOff 2) = some w' ∧ w' ≠ 0 ∧ w' ≠ 1 :=
  ⟨bufState 2 [5, 7, 0, 0], bufState 2 [0, 1, -1, 0], 5, 0xFFFFFFFF,
    by unfold LegalWidth; decide +kernel, by unfold LegalWidth; decide +kernel⟩

/-- The four clauses of ParamErrors, at the values next to the legal ranges (n = 0, n = 9, m = 0, m = 9, SEL = 0x40). -/
theorem witness_ParamErrors :
    (∃ s s' : State, ChecksWidth .wht s.regs.sel ∧ ¬LegalWidth s ∧ ChecksWidth .runSel s'.regs.sel ∧ ¬LegalWidth s') ∧
    (∃ s s' : State, ChecksTable .nl s.regs.sel ∧ LegalWidth s ∧ ¬LegalOutputWidth s ∧ LegalWidth s' ∧
      ¬LegalOutputWidth s') ∧
    (∃ s t : State, exec .sac s = .next t ∧ t.flags.errCode = .param ∧ t.errCtx.idx = 1) ∧
    ∃ s : State, s.regs.sel.extractLsb' 6 26 ≠ 0 := by
  refine ⟨⟨bufState 0 [], selState 0x0F 9 2 [], .inl rfl, by unfold LegalWidth; decide,
      .inr (.inr (by unfold ChecksTable; decide)), by unfold LegalWidth; decide⟩,
    ⟨sboxState 2 0 [0, 0, 0, 0], sboxState 8 9 [], trivial, by unfold LegalWidth; decide,
      by unfold LegalOutputWidth; decide, by unfold LegalWidth; decide, by unfold LegalOutputWidth; decide⟩,
    ?_, selState 0x40 2 2 [], by decide⟩
  obtain ⟨t, h1, h2⟩ := exists_of_endsWith (o := exec .sac (sboxState 2 33 [0, 1, 2, 3]))
    (p := fun t => decide (t.flags.errCode = .param ∧ t.errCtx.idx = 1)) (by decide +kernel)
  exact ⟨_, t, h1, of_decide_eq_true h2⟩

/-- TBL_LEN = 3 and 0 are no powers of two; 8 and 2 are, and are not 2^2 (section 2.7). -/
theorem witness_LengthErrors : ∃ s3 s0 s8 s2 : State,
    (ChecksTable .lap s3.regs.sel ∧ LegalWidth s3 ∧ LegalOutputWidth s3 ∧ ∀ j, s3.regs.tblLen.toNat ≠ 2 ^ j) ∧
    (LegalWidth s0 ∧ LegalOutputWidth s0 ∧ ∀ j, s0.regs.tblLen.toNat ≠ 2 ^ j) ∧
    (LegalWidth s8 ∧ LegalOutputWidth s8 ∧ (∃ j, s8.regs.tblLen.toNat = 2 ^ j) ∧ s8.regs.tblLen.toNat ≠ 2 ^ opN s8) ∧
    LegalWidth s2 ∧ LegalOutputWidth s2 ∧ (∃ j, s2.regs.tblLen.toNat = 2 ^ j) ∧ s2.regs.tblLen.toNat ≠ 2 ^ opN s2 := by
  have hno {l : Nat} (hl : l < 2 ^ 32) (h : isPowerOfTwo l = false) : ∀ j, l ≠ 2 ^ j := fun j hj => by
    have := (isPowerOfTwo_iff hl).2 ⟨j, hj⟩
    rw [h] at this; exact absurd this (by decide)
  refine ⟨lenState 3 2 2 [], lenState 0 2 2 [], lenState 8 2 2 [], lenState 2 2 2 [],
    ⟨trivial, by unfold LegalWidth; decide, by unfold LegalOutputWidth; decide, hno (by decide) (by decide)⟩,
    ⟨by unfold LegalWidth; decide, by unfold LegalOutputWidth; decide, hno (by decide) (by decide)⟩,
    ⟨by unfold LegalWidth; decide, by unfold LegalOutputWidth; decide, ⟨3, by decide⟩, by decide⟩,
    by unfold LegalWidth; decide, by unfold LegalOutputWidth; decide, ⟨1, by decide⟩, by decide⟩

/-- BICNL with n = 1, and BICSAC with n = 7 (N = 128, the largest that is degenerate). -/
theorem witness_DegenerateErrors : ∃ s s' : State,
    (ChecksTable .bicNl s.regs.sel ∧ LegalScalars s ∧ Metric.bicNl ∈ slotsOf .bicNl s.regs.sel ∧ opN s < 2) ∧
    ChecksTable .runSel s'.regs.sel ∧ LegalScalars s' ∧
      ¬(Metric.bicNl ∈ slotsOf .runSel s'.regs.sel ∧ opN s' < 2) ∧ Metric.bicSac ∈ slotsOf .runSel s'.regs.sel ∧
      2 ^ opN s' < 256 :=
  ⟨sboxState 1 1 [1, 0], { selState 0x3F 7 8 [] with regs := { (selState 0x3F 7 8 []).regs with tblLen := 128 } },
    by unfold ChecksTable LegalScalars LegalWidth LegalOutputWidth; decide,
    by unfold ChecksTable LegalScalars LegalWidth LegalOutputWidth; decide⟩

/-- The entry 4 = 2^m at x = 2, the first out of domain (section 2.7). -/
theorem witness_DomainError : ∃ (s : State) (w : Word), ChecksTable .nl s.regs.sel ∧ LegalScalars s ∧
    NotDegenerate (slotsOf .nl s.regs.sel) (opN s) ∧ 2 < 2 ^ opN s ∧
    (∀ y < 2, ∃ v, s.mem.readWord (sboxOff y) = some v ∧ v.toNat < 2 ^ opM s) ∧
    s.mem.readWord (sboxOff 2) = some w ∧ 2 ^ opM s ≤ w.toNat := by
  refine ⟨sboxState 2 2 [0, 1, 4, 3], 4, trivial, by unfold LegalScalars LegalWidth LegalOutputWidth; decide,
    by unfold NotDegenerate; decide, by decide, fun y hy => ?_, by decide +kernel, by decide⟩
  have h : ∀ y < 2, (sboxState 2 2 [0, 1, 4, 3]).mem.readWord (sboxOff y) = some (BitVec.ofNat 32 y) := by
    decide +kernel
  exact ⟨_, h y hy, by interval_cases y <;> decide⟩

/-- The four clauses of UnwrittenReadFaults: BUF[3], BUF[0] and SBOX[3] of a part where nothing, or all before, is
written; and host reads of the first and the last entry. -/
theorem witness_UnwrittenReadFaults :
    (∃ s : State, LegalWidth s ∧ 3 < 2 ^ opN s ∧ s.mem.readWord (bufOff 3) = none ∧
      ∀ y < 3, s.mem.readWord (bufOff y) = some 0 ∨ s.mem.readWord (bufOff y) = some 1) ∧
    (∃ s : State, LegalWidth s ∧ 0 < 2 ^ opN s ∧ s.mem.readWord (bufOff 0) = none) ∧
    (∃ s : State, ChecksTable .nl s.regs.sel ∧ LegalScalars s ∧ NotDegenerate (slotsOf .nl s.regs.sel) (opN s) ∧
      3 < 2 ^ opN s ∧ s.mem.readWord (sboxOff 3) = none ∧
      ∀ y < 3, ∃ v, s.mem.readWord (sboxOff y) = some v ∧ v.toNat < 2 ^ opM s) ∧
    (∃ s s' : State, s.part.wf = true ∧ 255 < 2 ^ s.part.nmax ∧ NextIsRead s (sboxOff 255) [] ∧
      s.mem.readWord (sboxOff 255) = none ∧ NextIsRead s' (bufOff 0) [] ∧ s'.mem.readWord (bufOff 0) = none) := by
  refine ⟨⟨bufState 2 [0, 1, 1], by unfold LegalWidth; decide +kernel⟩,
    ⟨bufState 1 [], by unfold LegalWidth; decide +kernel⟩,
    ⟨lenState 4 2 2 [0, 1, 2], trivial, by unfold LegalScalars LegalWidth LegalOutputWidth; decide,
      by unfold NotDegenerate; decide, by decide, by decide +kernel, fun y hy => ?_⟩,
    busState .idle [rdAt Config.reference (sboxOff 255)], busState .idle [rdAt Config.reference (bufOff 0)],
    by decide, by decide, rfl, rfl, rfl, rfl⟩
  have h : ∀ y < 3, (lenState 4 2 2 [0, 1, 2]).mem.readWord (sboxOff y) = some (BitVec.ofNat 32 y) := by
    decide +kernel
  exact ⟨_, h y hy, by interval_cases y <;> decide⟩

/-- BicNlResult at its least width n = 2. -/
theorem witness_BicNlResult : ∃ (s : State) (S : Nat → Nat), s.part.wf = true ∧ LegalScalars s ∧ SboxHolds s S ∧
    2 ≤ opN s := ⟨idState, idTable, by decide, idState_legal, idState_holds, by decide⟩

/-- BicSacResult at its least width n = 8, and RunSelResult with all six metrics selected. -/
theorem witness_BicSacResult_RunSelResult : ∃ (s : State) (S : Nat → Nat), s.part.wf = true ∧ LegalScalars s ∧
    SboxHolds s S ∧ 256 ≤ 2 ^ opN s ∧ s.regs.sel.extractLsb' 6 26 = 0 ∧ s.regs.sel ≠ 0 ∧
    NotDegenerate (selectedMetrics s.regs.sel) (opN s) :=
  ⟨zeroState, _, by decide, zeroState_legal, zeroState_holds, by decide, by decide, by decide,
    by unfold NotDegenerate; decide⟩

theorem witness_RunSelEmpty : ∃ s : State, s.regs.sel = 0 := ⟨State.reset, rfl⟩

/-- The six clauses of MetricRanges, and the hypothesis of CommandsChangeOnlyTheirOutputs and AnalyzerPurity: every
single analyzer ends without error on some table. -/
theorem witness_MetricRanges_CommandsChangeOnlyTheirOutputs :
    (∃ s t : State, s.part.wf = true ∧ exec .nl s = .next t ∧ t.flags.errCode = .none) ∧
    (∃ s t : State, s.part.wf = true ∧ exec .sac s = .next t ∧ t.flags.errCode = .none) ∧
    (∃ s t : State, s.part.wf = true ∧ exec .lap s = .next t ∧ t.flags.errCode = .none) ∧
    (∃ s t : State, s.part.wf = true ∧ exec .dap s = .next t ∧ t.flags.errCode = .none) ∧
    (∃ s t : State, s.part.wf = true ∧ exec .bicNl s = .next t ∧ t.flags.errCode = .none) ∧
    ∃ s t : State, s.part.wf = true ∧ exec .bicSac s = .next t ∧ t.flags.errCode = .none := by
  have hall (s : State) (S : Nat → Nat) (i : Instr) (k : Metric) (h1 : s.part.wf = true) (h2 : LegalScalars s)
      (h3 : SboxHolds s S) (h4 : NotDegenerate [k] (opN s)) (h5 : ruleOf i s = analyzerRule [k] s) :
      ∃ s t : State, s.part.wf = true ∧ exec i s = .next t ∧ t.flags.errCode = .none :=
    ⟨s, _, h1, exec_next.2 (.inl ⟨_, h5.trans (analyzerRule_ok.2 ⟨_, checkTable_of_legal h2 h3
      (le_trans h2.2.1.2 (part_limits h1).2.2.2) h4, rfl⟩), rfl⟩), rfl⟩
  have hid (i : Instr) (k : Metric) (h4 : NotDegenerate [k] 2) (h5 : ruleOf i idState = analyzerRule [k] idState) :=
    hall idState idTable i k (by decide) idState_legal idState_holds h4 h5
  exact ⟨hid .nl .nl (by unfold NotDegenerate; decide) rfl, hid .sac .sac (by unfold NotDegenerate; decide) rfl,
    hid .lap .lap (by unfold NotDegenerate; decide) rfl, hid .dap .dap (by unfold NotDegenerate; decide) rfl,
    hid .bicNl .bicNl (by unfold NotDegenerate; decide) rfl,
    hall zeroState _ .bicSac .bicSac (by decide) zeroState_legal zeroState_holds
      (by unfold NotDegenerate; decide) rfl⟩

/-- Two states that differ in OPA only, and the run of the first. -/
theorem witness_AnalyzerPurity : ∃ (s s' t : State), familyOf .nl = .analyzer ∧ s'.part = s.part ∧
    s'.regs.nLog = s.regs.nLog ∧ s'.regs.mBits = s.regs.mBits ∧ s'.regs.tblLen = s.regs.tblLen ∧ s ≠ s' ∧
    LegalWidth s ∧ (∀ x < 2 ^ opN s, s'.mem.readWord (sboxOff x) = s.mem.readWord (sboxOff x)) ∧
    exec .nl s = .next t := by
  obtain ⟨t, h1, -⟩ := exists_of_endsWith (o := exec .nl idState) (p := fun _ => true) (by decide +kernel)
  exact ⟨idState, { idState with regs := { idState.regs with opa := 7 } }, t, rfl, rfl, rfl, rfl, rfl,
    fun h => absurd (congrArg (fun s => s.regs.opa) h) (by decide), idState_legal.1, fun _ _ => rfl, h1⟩

/-- IDLE with a START next (StartAccepted, and the third clause of InterruptLine). -/
theorem witness_StartAccepted_InterruptLine : ∃ (s t : State) (v : Word) (rest : List BusEvent), s.phase = .idle ∧
    NextIsWrite s 0x008 v rest ∧ v.getLsbD 0 = true ∧ v.getLsbD 1 = false ∧ step s = .next t := by
  obtain ⟨t, h1, -⟩ := exists_of_endsWith (o := step (busState .idle [wr Config.reference .ctrl 1]))
    (p := fun _ => true) (by decide +kernel)
  exact ⟨busState .idle [wr Config.reference .ctrl 1], t, 1, [], rfl, rfl, by decide, by decide, h1⟩

/-- BUSY with an ABORT next, for a command of each family; a transform's width once legal and once (N_LOG = 9) not. -/
theorem witness_AbortRunningCommand : ∃ sb st su sa sc : State,
    (sb.phase = .busy 0x03 ∧ NextIsWrite sb 0x008 2 [] ∧ (2 : Word).getLsbD 1 = true ∧
      decodeCommand 0x03 = .ok .bvHamming ∧ familyOf .bvHamming = .bitVector) ∧
    (st.phase = .busy 0x11 ∧ NextIsWrite st 0x008 2 [] ∧ decodeCommand 0x11 = .ok .whtRaw ∧
      familyOf .whtRaw = .transform ∧ LegalWidth st) ∧
    (su.phase = .busy 0x11 ∧ NextIsWrite su 0x008 2 [] ∧ ¬LegalWidth su) ∧
    (sa.phase = .busy 0x2F ∧ NextIsWrite sa 0x008 2 [] ∧ decodeCommand 0x2F = .ok .runSel ∧
      familyOf .runSel = .analyzer) ∧
    sc.phase = .busy 0 ∧ NextIsWrite sc 0x008 2 [] ∧ ∀ i, decodeCommand 0 = .ok i → familyOf i = .control :=
  ⟨busState (.busy 0x03) [wr Config.reference .ctrl 2],
    { bufState 2 [0, 0, 0, 0] with phase := .busy 0x11, inbox := [wr Config.reference .ctrl 2] },
    { bufState 9 [] with phase := .busy 0x11, inbox := [wr Config.reference .ctrl 2] },
    busState (.busy 0x2F) [wr Config.reference .ctrl 2], busState (.busy 0) [wr Config.reference .ctrl 2],
    ⟨rfl, rfl, by decide, by decide, rfl⟩, ⟨rfl, rfl, by decide, rfl, by unfold LegalWidth; decide⟩,
    ⟨rfl, rfl, by unfold LegalWidth; decide⟩, ⟨rfl, rfl, by decide, rfl⟩, rfl, rfl, fun i h => by
      have h0 : decodeCommand 0 = .ok .nop := by decide
      rw [h0] at h; cases h; rfl⟩

theorem witness_ControlWritesWithoutStart :
    (∃ s : State, s.phase = .idle ∧ NextIsWrite s 0x008 3 [] ∧ (3 : Word).getLsbD 1 = true) ∧
    (∃ s s' : State, s.phase = .busy 0x22 ∧
      s' = { s with inbox := .access (.write (s.part.base + 0x008) .word 2) :: [] } ∧ NextIsWrite s 0x008 3 [] ∧
      (3 : Word).getLsbD 0 = true ∧ (3 : Word).getLsbD 1 = true ∧ (2 : Word).getLsbD 0 = false ∧
      (2 : Word).getLsbD 1 = true) ∧
    ∃ s : State, NextIsWrite s 0x008 4 [] ∧ (4 : Word).getLsbD 0 = false ∧ (4 : Word).getLsbD 1 = false :=
  ⟨⟨busState .idle [wr Config.reference .ctrl 3], rfl, rfl, by decide⟩,
    ⟨busState (.busy 0x22) [wr Config.reference .ctrl 3], _, rfl, rfl, rfl, by decide, by decide, by decide,
      by decide⟩, busState .idle [wr Config.reference .ctrl 4], rfl, by decide, by decide⟩

theorem witness_StartWhileBusyRefused : ∃ (s : State) (w v : Word) (rest : List BusEvent), s.phase = .busy w ∧
    NextIsWrite s 0x008 v rest ∧ v.getLsbD 0 = true ∧ v.getLsbD 1 = false :=
  ⟨busState (.busy 0x22) [wr Config.reference .ctrl 1], 0x22, 1, [], rfl, rfl, by decide, by decide⟩

/-- Every locked register has an entry; the first and the last are written, BUSY and IDLE, and read. -/
theorem witness_LockedRegisters : ∃ sb si sr : State,
    operandRegisters.map Prod.fst = [0x010, 0x014, 0x018, 0x01C, 0x020, 0x024, 0x028, 0x02C] ∧
    (NextIsWrite sb 0x010 5 [] ∧ isBusy sb = true) ∧ (NextIsWrite si 0x02C 5 [rd Config.reference .opa] ∧
      isBusy si = false ∧ 0x024 ≠ 0x02C ∧
      NextIsRead { si with inbox := [rd Config.reference .opa] } 0x024 []) ∧ NextIsRead sr 0x02C [] :=
  ⟨busState (.busy 0x22) [wr Config.reference .cmd 5],
    busState .idle [wr Config.reference .sel 5, rd Config.reference .opa], busState .idle [rd Config.reference .sel],
    rfl, ⟨rfl, rfl⟩, ⟨rfl, rfl, by decide, rfl⟩, rfl⟩

/-- The last S-box entry while IDLE, the first buffer entry while BUSY; reads of the last S-box entry while a transform
runs and of a buffer entry while a bit-vector command runs. -/
theorem witness_EntryWriteThenRead : (∃ si sb : State,
    (si.part.wf = true ∧ 255 < 2 ^ si.part.nmax ∧ NextIsWrite si (sboxOff 255) 5 [] ∧ isBusy si = false) ∧
    sb.part.wf = true ∧ 0 < 2 ^ sb.part.nmax ∧ NextIsWrite sb (bufOff 0) 5 [] ∧ isBusy sb = true) ∧
    ∃ sx sy : State, (sx.part.wf = true ∧ sx.mem.readWord (0x40000 + 4 * 255) = some 7 ∧
      NextIsRead sx (0x40000 + 4 * 255) [] ∧ FamilyRuns sx .transform) ∧
      sy.part.wf = true ∧ sy.mem.readWord (0x80000 + 4 * 1) = some 1 ∧ ¬FamilyRuns sy .transform ∧
        ¬FamilyRuns sy .analyzer ∧ NextIsRead sy (0x80000 + 4 * 1) [] := by
  refine ⟨⟨busState .idle [wrAt Config.reference (sboxOff 255) 5], busState (.busy 0) [wrAt Config.reference (bufOff 0) 5],
      ⟨by decide, by decide, rfl, rfl⟩, by decide, by decide, rfl, rfl⟩,
    { busState (.busy 0x10) [rdAt Config.reference (sboxOff 255)] with
      mem := Memory.writeWords [] (sboxOff 255) [7] },
    { bufState 1 [0, 1] with phase := .busy 0x03, inbox := [rdAt Config.reference (bufOff 1)] },
    ⟨by decide, by decide, rfl, familyRunning_iff.1 rfl⟩, by decide, by decide, ?_, ?_, rfl⟩
  · exact fun h => absurd (familyRunning_iff.2 h) (by decide)
  · exact fun h => absurd (familyRunning_iff.2 h) (by decide)

/-- StatusWriteOneToClear, StatusLayout and InterruptEnable. -/
theorem witness_StatusAccesses : (∃ s : State, NextIsWrite s 0x00C 0xE []) ∧ (∃ s : State, NextIsRead s 0x00C []) ∧
    ∃ s t : State, NextIsWrite s 0x030 3 [] ∧ NextIsRead t 0x030 [] :=
  ⟨⟨busState .idle [wr Config.reference .status 0xE], rfl⟩, ⟨busState (.busy 0) [rd Config.reference .status], rfl⟩,
    busState .idle [wr Config.reference .irqEn 3], busState .idle [rd Config.reference .irqEn], rfl, rfl⟩

theorem witness_ReadsHaveNoSideEffect : ∃ s s' : State, NextIsRead s 0 [] ∧ NextIsRead s' 0xBFFFC [] ∧
    0xBFFFC < 0xC0000 ∧ 0xBFFFC % 4 = 0 :=
  ⟨busState .idle [rdAt Config.reference 0], busState .idle [rdAt Config.reference 0xBFFFC], rfl, rfl, by decide,
    by decide⟩

/-- The four ends of the two reserved ranges. -/
theorem witness_ReservedOffsets : ∃ s1 s2 s3 s4 : State, NextIsRead s1 0x048 [] ∧ NextIsWrite s2 0x07C 5 [] ∧
    NextIsRead s3 0x0E0 [] ∧ NextIsWrite s4 0x3FFFC 5 [] ∧ (∀ off ∈ [0x048, 0x07C, 0x0E0, 0x3FFFC], off % 4 = 0 ∧
      (0x048 ≤ off ∧ off ≤ 0x07C ∨ 0x0E0 ≤ off ∧ off ≤ 0x3FFFC)) :=
  ⟨busState .idle [rdAt Config.reference 0x048], busState .idle [wrAt Config.reference 0x07C 5],
    busState .idle [rdAt Config.reference 0x0E0], busState .idle [wrAt Config.reference 0x3FFFC 5], rfl, rfl, rfl, rfl,
    by decide⟩

/-- The four ends of the two ranges past the RAMs of the reference part. -/
theorem witness_WindowOffsetsPastTheRam : ∃ s1 s2 s3 s4 : State, s1.part.nmax = 8 ∧ NextIsRead s1 0x40400 [] ∧
    NextIsWrite s2 0x7FFFC 5 [] ∧ NextIsRead s3 0x80400 [] ∧ NextIsWrite s4 0xBFFFC 5 [] ∧
    (∀ off ∈ [0x40400, 0x7FFFC, 0x80400, 0xBFFFC], off % 4 = 0 ∧
      (0x40000 + 4 * 2 ^ 8 ≤ off ∧ off < 0x80000 ∨ 0x80000 + 4 * 2 ^ 8 ≤ off ∧ off < 0xC0000)) :=
  ⟨busState .idle [rdAt Config.reference 0x40400], busState .idle [wrAt Config.reference 0x7FFFC 5],
    busState .idle [rdAt Config.reference 0x80400], busState .idle [wrAt Config.reference 0xBFFFC 5], rfl, rfl, rfl,
    rfl, rfl, by decide⟩

theorem witness_ConstantRegisters : ∃ s1 s2 s3 s4 : State, NextIsRead s1 0x000 [] ∧ NextIsWrite s2 0x000 5 [] ∧
    NextIsWrite s3 0x004 5 [] ∧ s4.part.wf = true ∧ NextIsRead s4 0x004 [] :=
  ⟨busState .idle [rd Config.reference .id], busState .idle [wr Config.reference .id 5],
    busState .idle [wr Config.reference .cfg 5], busState .idle [rd Config.reference .cfg], rfl, rfl, rfl, by decide,
    rfl⟩

/-- Just below the aperture, just past it, a byte access at its last word, and a misaligned word. -/
theorem witness_AccessesWithoutAMove : ∃ s : Access → State,
    (∀ a, (s a).part = highPart ∧ (s a).inbox = [.access a]) ∧
    0xFFFFF < highPart.base ∧ highPart.base + 0xC0000 ≤ 0x1C0000 ∧ AccessSize.byte ≠ .word ∧
    (highPart.base ≤ 0x100002 ∧ 0x100002 < highPart.base + 0xC0000 ∧ (0x100002 - highPart.base) % 4 ≠ 0) :=
  ⟨fun a => { State.resetFor highPart with inbox := [.access a] }, fun _ => ⟨rfl, rfl⟩, by decide, by decide, by decide,
    by decide⟩

/-- The four cases of RunningOutputsAreFree. -/
theorem witness_RunningOutputsAreFree : ∃ s1 s2 s3 s4 : State,
    (s1.part.wf = true ∧ s1.phase = .busy 0x01 ∧ decodeCommand 0x01 = .ok .bvBit ∧ familyOf .bvBit = .bitVector ∧
      NextIsRead s1 0x040 []) ∧
    (s2.phase = .busy 0x10 ∧ decodeCommand 0x10 = .ok .wht ∧ familyOf .wht = .transform ∧ NextIsRead s2 0x044 []) ∧
    (s3.phase = .busy 0x25 ∧ decodeCommand 0x25 = .ok .bicSac ∧ Metric.bicSac ∈ slotsOf .bicSac s3.regs.sel ∧
      SlotField.aux ≠ .valid ∧ NextIsRead s3 (slotOff .bicSac .aux) []) ∧
    (s4.part.wf = true ∧ s4.phase = .busy 0x10 ∧ 0 < 2 ^ s4.part.nmax ∧ NextIsRead s4 (bufOff 0) [] ∧
      (s4.mem.readWord (bufOff 0)).isSome = true) :=
  ⟨busState (.busy 0x01) [rd Config.reference .bvResult], busState (.busy 0x10) [rd Config.reference .whtMaxAbs],
    busState (.busy 0x25) [rdAt Config.reference (slotOff .bicSac .aux)],
    { bufState 2 [0, 1, 1, 0] with phase := .busy 0x10, inbox := [rdAt Config.reference (bufOff 0)] },
    ⟨by decide, rfl, by decide, rfl, rfl⟩, ⟨rfl, by decide, rfl, rfl⟩, ⟨rfl, by decide, by decide, by decide, rfl⟩,
    by decide, rfl, by decide, rfl, by decide +kernel⟩

theorem witness_ResetDiscardsTheCommand : ∃ s s' : State, (s.phase = .busy 0x22 ∧ s.inbox = [.reset]) ∧
    s'.phase = .idle ∧ s'.inbox = [.reset] :=
  ⟨busState (.busy 0x22) [.reset], busState .idle [.reset], ⟨rfl, rfl⟩, rfl, rfl⟩

/-- A command of another family runs while each result register is read; a write while BUSY. -/
theorem witness_ResultRegisters : ∃ s1 s2 s3 s4 : State,
    (¬FamilyRuns s1 .bitVector ∧ NextIsRead s1 0x040 []) ∧
    (¬FamilyRuns s2 .transform ∧ ¬FamilyRuns s2 .analyzer ∧ NextIsRead s2 0x044 []) ∧
    (isBusy s3 = true ∧ NextIsWrite s3 0x034 5 []) ∧ NextIsRead s4 0x008 [] :=
  ⟨busState (.busy 0x10) [rd Config.reference .bvResult], busState (.busy 0x01) [rd Config.reference .whtMaxAbs],
    busState (.busy 0x10) [wr Config.reference .errExp 5], busState .idle [rd Config.reference .ctrl],
    ⟨fun h => absurd (familyRunning_iff.2 h) (by decide), rfl⟩,
    ⟨fun h => absurd (familyRunning_iff.2 h) (by decide), fun h => absurd (familyRunning_iff.2 h) (by decide), rfl⟩,
    ⟨rfl, rfl⟩, rfl⟩

/-- The first slot while another slot's command runs, the last slot's VALID while its own does, and a write. -/
theorem witness_SlotRegisters : ∃ s1 s2 s3 : State,
    (¬SlotRuns s1 .nl ∧ NextIsRead s1 (slotBase .nl) []) ∧
    (SlotRuns s2 .bicSac ∧ NextIsRead s2 (slotBase .bicSac + 0xC) []) ∧
    NextIsWrite s3 (slotBase .bicSac + 0x8) 5 [] := by
  refine ⟨busState (.busy 0x25) [rdAt Config.reference 0x080], busState (.busy 0x25) [rdAt Config.reference 0x0DC],
    busState (.busy 0x25) [wrAt Config.reference 0x0D8 5], ⟨?_, rfl⟩, ⟨⟨0x25, rfl, by unfold InSlotsOf; decide⟩, rfl⟩, rfl⟩
  rintro ⟨w, hw, h⟩
  cases hw
  exact absurd h (by unfold InSlotsOf; decide)

theorem witness_ResetState_ResetMeetsTheInvariant : (∃ off, off % 4 = 0 ∧ 0x008 ≤ off ∧ off < 0x40000) ∧
    ∃ p : Config.Part, p.wf = true := ⟨⟨0x008, by decide⟩, highPart, by decide⟩

/-- A state of the invariant, one START away from a running command, and its step. -/
theorem witness_StepKeepsTheInvariant : ∃ s t : State, Inv s ∧ step s = .next t := by
  obtain ⟨t, h1, -⟩ := exists_of_endsWith (o := step (busState .idle [wr Config.reference .ctrl 1]))
    (p := fun _ => true) (by decide +kernel)
  refine ⟨busState .idle [wr Config.reference .ctrl 1], t,
    ⟨by decide, List.Pairwise.nil, fun c hc => ?_, fun c hc => ?_, fun k h => ?_, fun k h => ?_, fun k _ _ => ?_,
      fun h => ?_, fun _ => ⟨rfl, rfl⟩⟩, h1⟩
  · simp [busState, State.reset, State.resetFor] at hc
  · simp [busState, State.reset, State.resetFor] at hc
  · cases k <;> cases h
  · cases h
  · cases k <;> rfl
  · cases h

end Sys2Proof.Tests
end

section
/-! Register-block laws: which offset selects which register, and a host access to a named register by its name. They
serve every statement about a register. -/

namespace Sys2Proof.Machine

/-! ### Offsets of the register block (R22, R39, R40) -/

@[simp] theorem targetOf_regOffset (nmax : Nat) (r : RegName) : targetOf nmax (regOffset r) = .reg r := by
  cases r <;> rfl

theorem regOffset_lt (r : RegName) : regOffset r < 0x048 := by cases r <;> decide

theorem regOffset_aligned (r : RegName) : regOffset r % 4 = 0 := by cases r <;> rfl

theorem regOffset_lt_aperture (r : RegName) : regOffset r < 0xC0000 := (regOffset_lt r).trans (by decide)

theorem targetOf_registerBlock {nmax off : Nat} (h : off < 0x40000) : targetOf nmax off = registerTarget off := if_pos h

theorem slotTarget_cases (k f : Nat) : (∃ m g, slotTarget k f = .slot m g) ∨ slotTarget k f = .unmapped := by
  unfold slotTarget
  split
  case h_5 => exact .inr rfl
  all_goals exact .inl ⟨_, _, rfl⟩

/-- All an offset of the register block can select: the named register whose offset it is, a field of a slot in
0x080 to 0x0DF, or nothing. -/
theorem registerTarget_cases (off : Nat) :
    (∃ r, registerTarget off = .reg r ∧ off = regOffset r) ∨
    (∃ k f, registerTarget off = .slot k f ∧ 0x080 ≤ off ∧ off < 0x0E0) ∨ registerTarget off = .unmapped := by
  unfold registerTarget
  split
  case h_19 =>
    split
    next h =>
      obtain ⟨k, f, e⟩ | e := slotTarget_cases ((off - 0x080) / 0x10) ((off - 0x080) % 0x10)
      · exact .inr (.inl ⟨k, f, e, h⟩)
      · exact .inr (.inr e)
    next => exact .inr (.inr rfl)
  all_goals exact .inl ⟨_, rfl, rfl⟩

/-- The reserved offsets of R39 select nothing. -/
theorem registerTarget_reserved {off : Nat} (h : 0x048 ≤ off ∧ off ≤ 0x07C ∨ 0x0E0 ≤ off) :
    registerTarget off = .unmapped := by
  obtain ⟨r, -, rfl⟩ | ⟨_, _, -, hlo, hhi⟩ | e := registerTarget_cases off
  · have := regOffset_lt r
    omega
  · omega
  · exact e

/-! ### Host accesses to a named register (R78, R79) -/

/-- A read of a register that has a value delivers it. -/
theorem delivers_register {s : State} {r : RegName} {v : Word} {rest : List BusEvent} (hr : readReg s r = .value v)
    (hn : NextIsRead s (regOffset r) rest) : Delivers s (regOffset r) v rest :=
  delivers_of_value (regOffset_lt_aperture r) (regOffset_aligned r) (by rw [targetOf_regOffset]; exact hr) hn

/-- A write at a register's offset is the write of that register. -/
theorem step_write_register {s : State} {r : RegName} {v : Word} {rest : List BusEvent}
    (hn : NextIsWrite s (regOffset r) v rest) : step s = .next (writeReg r v { s with inbox := rest }) := by
  rw [step_write hn (regOffset_lt_aperture r) (regOffset_aligned r), busWrite, targetOf_regOffset, writeTarget]

/-- A write to a register that ignores writes does nothing. -/
theorem onlyConsumed_register {s : State} {r : RegName} {v : Word} {rest : List BusEvent}
    (hr : ∀ u, writeReg r v u = u) (hn : NextIsWrite s (regOffset r) v rest) : OnlyConsumed s rest :=
  (step_write_register hn).trans (congrArg _ (hr _))

/-! ### The locked registers (R23) -/

/-- A locked register reads what was last written to it. -/
theorem readReg_writeOperand_same {r : RegName} (h : isLocked r = true) (v : Word) (s : State) :
    readReg (writeOperand r v s) r = .value v := by
  cases r with
  | cmd | nLog | mBits | tblLen | mask | opa | opb | sel => rfl
  | _ => exact absurd h (by decide)

/-- A write of one register leaves what every other register reads. -/
theorem readReg_writeOperand_other {r q : RegName} (h : q ≠ r) (v : Word) (s : State) :
    readReg (writeOperand r v s) q = readReg s q := by
  cases r <;> cases q <;> try rfl
  all_goals exact absurd rfl h

/-- Each row of `operandRegisters` describes a locked register: its offset, what it reads and what a write stores. -/
theorem operandRegisters_spec {off : Nat} {get : OperandRegs → Word} {put : OperandRegs → Word → OperandRegs}
    (h : (off, get, put) ∈ operandRegisters) :
    ∃ r, off = regOffset r ∧ isLocked r = true ∧ (∀ s, readReg s r = .value (get s.regs)) ∧
      ∀ g v, put g v = g.put v r := by
  simp only [operandRegisters, List.mem_cons, List.not_mem_nil, or_false, Prod.mk.injEq] at h
  obtain ⟨rfl, rfl, rfl⟩ | ⟨rfl, rfl, rfl⟩ | ⟨rfl, rfl, rfl⟩ | ⟨rfl, rfl, rfl⟩ | ⟨rfl, rfl, rfl⟩ | ⟨rfl, rfl, rfl⟩ |
    ⟨rfl, rfl, rfl⟩ | ⟨rfl, rfl, rfl⟩ := h
  · exact ⟨.cmd, rfl, rfl, fun _ => rfl, fun _ _ => rfl⟩
  · exact ⟨.nLog, rfl, rfl, fun _ => rfl, fun _ _ => rfl⟩
  · exact ⟨.mBits, rfl, rfl, fun _ => rfl, fun _ _ => rfl⟩
  · exact ⟨.tblLen, rfl, rfl, fun _ => rfl, fun _ _ => rfl⟩
  · exact ⟨.mask, rfl, rfl, fun _ => rfl, fun _ _ => rfl⟩
  · exact ⟨.opa, rfl, rfl, fun _ => rfl, fun _ _ => rfl⟩
  · exact ⟨.opb, rfl, rfl, fun _ => rfl, fun _ _ => rfl⟩
  · exact ⟨.sel, rfl, rfl, fun _ => rfl, fun _ _ => rfl⟩

end Sys2Proof.Machine
end

section
/-! The registers and the reset state of 10_state.md: the statements LockedRegisters, ReservedOffsets,
ConstantRegisters, InterruptEnable and ResetState. -/

namespace Sys2Proof.Machine

/-- Settles O42: a row of `operandRegisters` is a locked register, whose writes the lock refuses or stores, and whose
reads see that write and no other. -/
theorem lockedRegisters : Obligations.LockedRegisters := by
  intro s off get put v rest hmem
  obtain ⟨r, rfl, hl, hget, hput⟩ := operandRegisters_spec hmem
  have hwrite (hn : NextIsWrite s (regOffset r) v rest) :
      step s = .next (lockedWrite (writeOperand r v) { s with inbox := rest }) :=
    step_write_operand hl (targetOf_regOffset _ r) (regOffset_lt_aperture r) (regOffset_aligned r) hn
  refine ⟨delivers_register (hget s), fun hn hb => ?_, fun hn hi => ?_⟩
  · exact (hwrite hn).trans (congrArg _ (lockedWrite_busy hb))
  · refine ⟨writeOperand r v { s with inbox := rest }, ?_, ?_, fun rest' => ?_, fun off' get' put' rest' hmem' hne => ?_⟩
    · exact (hwrite hn).trans (congrArg _ (lockedWrite_idle hi))
    · rw [hput]
      rfl
    · exact delivers_register (readReg_writeOperand_same hl v _)
    · obtain ⟨q, rfl, -, hget', -⟩ := operandRegisters_spec hmem'
      have hqr : q ≠ r := fun e => hne (congrArg regOffset e)
      exact delivers_register ((readReg_writeOperand_other hqr v _).trans (hget' _))

/-- Settles O47: a reserved offset selects nothing. -/
theorem reservedOffsets : Obligations.ReservedOffsets := by
  intro s off v rest h4 hoff
  have ht : targetOf s.part.nmax off = .unmapped := by
    rw [targetOf_registerBlock (by omega), registerTarget_reserved (by omega)]
  exact ⟨delivers_unmapped (by omega) h4 ht, onlyConsumed_unmapped (by omega) h4 ht⟩

/-! ### CFG (R25) -/

/-- The fields of CFG on a legal part: NMAX in 5:0, MMAX in 13:8, the other bits 0. -/
theorem cfgWord_fields {p : Config.Part} (h : p.wf = true) :
    ((cfgWord p).extractLsb' 0 6).toNat = p.nmax ∧ (cfgWord p).extractLsb' 6 2 = 0 ∧
      ((cfgWord p).extractLsb' 8 6).toNat = p.mmax ∧ (cfgWord p).extractLsb' 14 18 = 0 := by
  obtain ⟨-, hn, -, hm⟩ := part_limits h
  unfold cfgWord
  refine ⟨?_, ?_, ?_, ?_⟩
  · rw [BitVec.extractLsb'_append_eq_of_add_le (by decide), BitVec.extractLsb'_eq_self, BitVec.toNat_ofNat]
    omega
  · rw [BitVec.extractLsb'_append_eq_of_le (by decide), BitVec.extractLsb'_append_eq_of_add_le (by decide)]
    rfl
  · rw [BitVec.extractLsb'_append_eq_of_le (by decide), BitVec.extractLsb'_append_eq_of_le (by decide),
      BitVec.extractLsb'_append_eq_of_add_le (by decide), BitVec.extractLsb'_eq_self, BitVec.toNat_ofNat]
    omega
  · rw [BitVec.extractLsb'_append_eq_of_le (by decide), BitVec.extractLsb'_append_eq_of_le (by decide),
      BitVec.extractLsb'_append_eq_of_le (by decide)]
    rfl

/-- Settles O49: ID and CFG are read-only registers, and CFG's fields are the part's parameters. -/
theorem constantRegisters : Obligations.ConstantRegisters := by
  refine ⟨fun s v rest => ⟨?_, ?_, ?_⟩, fun s rest hp hn => ?_, by decide⟩
  · exact delivers_register (r := .id) rfl
  · exact onlyConsumed_register (r := .id) fun _ => rfl
  · exact onlyConsumed_register (r := .cfg) fun _ => rfl
  · exact ⟨cfgWord s.part, delivers_register (r := .cfg) rfl hn, cfgWord_fields hp⟩

/-! ### IRQ_EN (R35) -/

/-- IRQ_EN reads bits 1:0 of what was written, and 0 above. -/
theorem readReg_writeIrqEn (v : Word) (s : State) : readReg (writeIrqEn v s) .irqEn = .value (v &&& 3) := by
  have e : (v.extractLsb' 0 2).setWidth 32 = v &&& 3 := by
    apply BitVec.eq_of_toNat_eq
    have h : v.toNat &&& (3 : Word).toNat = v.toNat % 2 ^ 2 := Nat.and_two_pow_sub_one_eq_mod v.toNat 2
    rw [BitVec.toNat_setWidth, BitVec.extractLsb'_toNat, Nat.shiftRight_zero, BitVec.toNat_and, h]
    omega
  exact congrArg ReadResult.value e

/-- The IRQ line after a write of IRQ_EN (R215). -/
theorem irqLine_writeIrqEn (v : Word) (s : State) :
    irqLine (writeIrqEn v s) = (s.flags.done && v.getLsbD 0 || s.flags.err && v.getLsbD 1) := by
  simp [irqLine]

/-- Settles O52: a write of IRQ_EN is not locked. -/
theorem interruptEnable : Obligations.InterruptEnable := by
  refine ⟨fun s v rest hn => ?_, fun _ => rfl⟩
  refine ⟨writeIrqEn v { s with inbox := rest }, step_write_register (r := .irqEn) hn, rfl, fun _ => ?_, ?_⟩
  · exact delivers_register (r := .irqEn) (readReg_writeIrqEn v _)
  · exact irqLine_writeIrqEn v _

/-! ### Reset (R54) -/

@[simp] theorem resetFor_slots_get (p : Config.Part) (k : Metric) : (State.resetFor p).slots.get k = Slot.zero := by
  cases k <;> rfl

@[simp] theorem runningSlots_resetFor (p : Config.Part) : runningSlots (State.resetFor p) = [] := rfl

@[simp] theorem statusWord_resetFor (p : Config.Part) : statusWord (State.resetFor p) = 0 :=
  calc statusWord (State.resetFor p) = statusWord State.reset := rfl
    _ = 0 := by decide

/-- Every register from CTRL on reads 0 after reset. -/
theorem readReg_resetFor (p : Config.Part) {r : RegName} (h : 0x008 ≤ regOffset r) :
    readReg (State.resetFor p) r = .value 0 := by
  cases r with
  | id | cfg => exact absurd h (by decide)
  | status => exact congrArg ReadResult.value (statusWord_resetFor p)
  | _ => rfl

/-- Every slot register reads 0 after reset. -/
theorem readSlot_resetFor (p : Config.Part) (k : Metric) (f : SlotField) :
    readSlot (State.resetFor p) k f = .value 0 := by
  cases f <;> simp [readSlot, Slot.zero]

/-- Every offset of the register block from CTRL on reads 0 after reset. -/
theorem readTarget_resetFor (p : Config.Part) {off : Nat} (h : 0x008 ≤ off) :
    readTarget (State.resetFor p) (registerTarget off) = .value 0 := by
  obtain ⟨r, e, rfl⟩ | ⟨k, f, e, -⟩ | e := registerTarget_cases off
  · rw [e]; exact readReg_resetFor p h
  · rw [e]; exact readSlot_resetFor p k f
  · rw [e]; rfl

/-- Settles O54: the reset state field by field, its register block by what each offset selects. -/
theorem resetState : Obligations.ResetState := by
  refine ⟨rfl, fun p => ⟨rfl, rfl, fun off _ hlo hhi => ?_, rfl, rfl, resetFor_slots_get p, fun _ => rfl, rfl⟩⟩
  rw [targetOf_registerBlock hhi]
  exact readTarget_resetFor p hlo

end Sys2Proof.Machine
end

section
/-! Laws of the encoding and of START: which words the decoder accepts, said by `opcode`, and what a START of a word
does up to the engine's turn that follows. They serve every statement about command words. -/

namespace Sys2Proof.Machine

/-! ### The opcode map (R100, R101) -/

/-- The commands in the order of the opcode map (R101). -/
def allCommands : List Instr :=
  [.nop, .bvBit, .bvParity, .bvHamming, .wht, .whtRaw, .whtComp, .nl, .sac, .lap, .dap, .bicNl, .bicSac, .runSel]

@[simp] theorem mem_allCommands (i : Instr) : i ∈ allCommands := by cases i <;> decide

/-- A command's row in the opcode map: its opcode, itself and its family (R101). -/
def opcodeRow (i : Instr) : BitVec 8 × Instr × Family := (opcode i, i, familyOf i)

theorem mem_opcodeRows {op : BitVec 8} {i : Instr} :
    (op, i, familyOf i) ∈ allCommands.map opcodeRow ↔ op = opcode i := by
  simp [opcodeRow, eq_comm]

theorem legalOpcodes_eq_map_opcode : legalOpcodes = allCommands.map opcode := rfl

theorem mem_legalOpcodes {op : BitVec 8} : op ∈ legalOpcodes ↔ ∃ i, op = opcode i := by
  simp [legalOpcodes_eq_map_opcode, eq_comm]

theorem decodeOpcode_eq_some {op : Nat} {i : Instr} : decodeOpcode op = some i ↔ op = (opcode i).toNat := by
  constructor
  · unfold decodeOpcode
    split
    case h_15 => exact fun h => nomatch h
    all_goals
      intro h
      cases h
      rfl
  · rintro rfl
    cases i <;> rfl

/-- The words the decoder accepts: the reserved bits zero and the opcode in 7:0 (R100, R101). -/
theorem decodeCommand_eq_ok {w : Word} {i : Instr} :
    decodeCommand w = .ok i ↔ w.extractLsb' 8 24 = 0 ∧ w.extractLsb' 0 8 = opcode i := by
  have hop : decodeOpcode (w.extractLsb' 0 8).toNat = some i ↔ w.extractLsb' 0 8 = opcode i :=
    decodeOpcode_eq_some.trans BitVec.toNat_inj
  rw [← hop, decodeCommand]
  generalize decodeOpcode (w.extractLsb' 0 8).toNat = row
  split
  next hres =>
    rw [and_iff_right hres]
    cases row <;> simp
  next hres => exact iff_of_false nofun fun h => hres h.1

/-- A word is a command exactly when its reserved bits are zero and its opcode is in the map (R101, R102). -/
theorem exists_decodeCommand_eq_ok {w : Word} :
    (∃ i, decodeCommand w = .ok i) ↔ w.extractLsb' 8 24 = 0 ∧ w.extractLsb' 0 8 ∈ legalOpcodes := by
  simp only [decodeCommand_eq_ok, exists_and_left, mem_legalOpcodes]

/-- Nonzero reserved bits or an opcode outside the map make a word illegal (R102). -/
theorem decodeCommand_illegal {w : Word} (h : w.extractLsb' 8 24 ≠ 0 ∨ w.extractLsb' 0 8 ∉ legalOpcodes) :
    ∃ r, decodeCommand w = .error r := by
  cases hd : decodeCommand w with
  | error r => exact ⟨r, rfl⟩
  | ok i => exact absurd (exists_decodeCommand_eq_ok.1 ⟨i, hd⟩) (not_and_or.2 h)

/-! ### START and the end of an illegal word (R102, R191) -/

/-- A CTRL write with START and no ABORT is accepted while IDLE (R191). -/
theorem step_start {s : State} {v : Word} {rest : List BusEvent} (hp : s.phase = .idle)
    (hn : NextIsWrite s 0x008 v rest) (hstart : v.getLsbD 0 = true) (habort : v.getLsbD 1 = false) :
    step s = .next (startCommand { s with inbox := rest }) := by
  rw [step_write_register (r := .ctrl) hn]
  simp only [writeReg, writeCtrl, hp, hstart, habort, Bool.false_eq_true, if_false, if_true]

theorem slotsOfWord_illegal {w : Word} {r : DecodeReject} (h : decodeCommand w = .error r) (sel : Word) :
    slotsOfWord w sel = [] := by
  simp [slotsOfWord, commandOf, h]

/-- An accepted START of an illegal word touches no slot (R102, R191). -/
theorem startCommand_illegal {s : State} {r : DecodeReject} (h : decodeCommand s.regs.cmd = .error r) :
    startCommand s = beginCommand s.regs.cmd s := by
  rw [startCommand, slotsOfWord_illegal h, unspecifySlots]

/-- BAD_OPCODE reports the command word in ERR_ACT (R102). -/
theorem raiseBadOpcode_ended (w : Word) (s : State) :
    EndedWithError .badOpcode 0 w.toNat 0 (raiseBadOpcode w s) := by
  simp [EndedWithError, raiseBadOpcode]

theorem raiseBadOpcode_frame (w : Word) (s : State) : CommandFrame s (raiseBadOpcode w s) :=
  ⟨rfl, rfl, rfl, rfl, rfl, rfl⟩

end Sys2Proof.Machine
end

section
/-! The statements of 30_encoding.md about command words: OpcodeMap and IllegalCommandWord. -/

namespace Sys2Proof.Machine

/-- Settles O2: the rows of the statement are the rows of `allCommands`, and a word decodes to `i` when it holds the
opcode of `i`. -/
theorem opcodeMap : Obligations.OpcodeMap := by
  intro w i
  rw [decodeCommand_eq_ok]
  exact and_congr_right fun _ => mem_opcodeRows.symm

/-- Settles O4: an illegal word owns no slot, so its START only begins the command, and the engine's turn raises
BAD_OPCODE. -/
theorem illegalCommandWord : Obligations.IllegalCommandWord := by
  refine ⟨fun _ => exists_decodeCommand_eq_ok, fun s v rest hp hn hstart habort hill => ?_⟩
  obtain ⟨r, hr⟩ := decodeCommand_illegal hill
  have hstep : step s = .next (beginCommand s.regs.cmd { s with inbox := rest }) :=
    (step_start hp hn hstart habort).trans (congrArg _ (startCommand_illegal hr))
  exact ⟨_, _, hstep, rfl, rfl, engineTurn_illegal rfl hr, raiseBadOpcode_ended _ _, rfl, fun _ => rfl, rfl, rfl,
    raiseBadOpcode_frame _ _⟩

end Sys2Proof.Machine
end

section
/-! The statements of 40_bitvector.md: BvBitResult, BvParityResult, BvHammingResult, on the laws of the bit operators
they need and on the one end the bit-vector commands share. -/

namespace Sys2Proof.Machine

/-! ### The operators of R12 by the bits of their operands -/

theorem bitOf_eq_testBit (v i : Nat) : bitOf v i = (v.testBit i).toNat := by
  rw [bitOf, Nat.and_one_is_mod, Nat.shiftRight_eq_div_pow, Nat.toNat_testBit]

theorem popcount_eq_card (v : Nat) : popcount v = ((Finset.range 32).filter (fun j => v.testBit j = true)).card := by
  rw [popcount_eq_sum, Finset.card_filter]
  exact Finset.sum_congr rfl fun j _ => Bool.cond_eq_ite _ 1 0

theorem popcount_le (v : Nat) : popcount v ≤ 32 := by
  rw [popcount_eq_card]
  exact (Finset.card_filter_le _ _).trans_eq (Finset.card_range 32)

theorem popcount_toNat (w : Word) :
    popcount w.toNat = ((Finset.range 32).filter (fun j => w.getLsbD j = true)).card := by
  simp only [popcount_eq_card, BitVec.testBit_toNat]

theorem parity_toNat (w : Word) :
    parity w.toNat = ((Finset.range 32).filter (fun j => w.getLsbD j = true)).card % 2 := by
  rw [parity, popcount_toNat]

theorem hamming_toNat (a b : Word) :
    hamming a.toNat b.toNat = ((Finset.range 32).filter (fun j => a.getLsbD j ≠ b.getLsbD j)).card := by
  rw [hamming, ← BitVec.toNat_xor, popcount_toNat]
  simp only [BitVec.getLsbD_xor, Bool.xor_iff_ne]

theorem bvBitValue_toNat (w : Word) (i : Nat) :
    bvBitValue w.toNat i = if 32 ≤ i then 0 else (w.getLsbD i).toNat := by
  rw [bvBitValue, bitOf_eq_testBit, BitVec.testBit_toNat]

/-! ### The bit-vector commands -/

/-- A command whose rule only writes BV_RESULT completes, with the value that was written. -/
theorem exec_of_setBvResult {i : Instr} {s : State} {n : Nat}
    (hrule : ruleOf i s = .ok (setBvResult (BitVec.ofNat 32 n) s)) (hn : n < 2 ^ 32) :
    ∃ t, exec i s = .next t ∧ NoOtherOutput s t ∧ t.bvResult.toNat = n := by
  obtain ⟨hframe, hend⟩ := endOk_of_frame (ruleOf_frame hrule)
  exact ⟨_, exec_next.2 (.inl ⟨_, hrule, rfl⟩), ⟨hframe, hend, rfl, rfl, fun _ => rfl⟩,
    (BitVec.toNat_ofNat _ _).trans (Nat.mod_eq_of_lt hn)⟩

/-- Settles O9: the value is one bit, read from the word as from the number. -/
theorem bvBitResult : Obligations.BvBitResult := by
  intro s
  rw [← bvBitValue_toNat]
  refine exec_of_setBvResult rfl ?_
  rw [bvBitValue_toNat]
  have hbit := Bool.toNat_lt (s.regs.opa.getLsbD s.regs.opb.toNat)
  split <;> omega

/-- Settles O10: the sum of the bits that popcount takes is the number of bits set. -/
theorem bvParityResult : Obligations.BvParityResult := by
  intro s
  rw [← parity_toNat]
  exact exec_of_setBvResult rfl ((Nat.mod_lt _ two_pos).trans (by decide))

/-- Settles O11: the bits set in OPA xor OPB are the bits in which OPA and OPB differ. -/
theorem bvHammingResult : Obligations.BvHammingResult := by
  intro s
  rw [← hamming_toNat]
  exact exec_of_setBvResult rfl ((popcount_le _).trans_lt (by decide))

end Sys2Proof.Machine
end

section
/-! The mathematics of 41_wht.md: the Walsh-Hadamard sum split into the two halves of its index (as R130's last stage
does), and what follows of it by induction on the width: the stages reach the closed form (R131), the transform is its
own inverse up to N (R140), the squares keep their sum up to N (R141). The bounds on a spectrum (R138) follow. -/

namespace Sys2Proof.Machine

/-! ### The sign (-1)^popcount(u & x) when the width grows by one bit -/

/-- A bit above both numbers drops out of their conjunction when only one has it. -/
theorem twoPow_add_and {k y z : Nat} (hy : y < 2 ^ k) (hz : z < 2 ^ k) : (2 ^ k + y) &&& z = y &&& z := by
  refine Nat.eq_of_testBit_eq fun j => ?_
  rw [Nat.testBit_and, Nat.testBit_and, testBit_twoPow_add hy]
  rcases eq_or_ne j k with rfl | hj
  · simp [Nat.testBit_lt_two_pow hz]
  · simp [hj]

/-- It stays when both have it. -/
theorem twoPow_add_and_twoPow_add {k y z : Nat} (hy : y < 2 ^ k) (hz : z < 2 ^ k) :
    (2 ^ k + y) &&& (2 ^ k + z) = 2 ^ k + (y &&& z) := by
  refine Nat.eq_of_testBit_eq fun j => ?_
  rw [Nat.testBit_and, testBit_twoPow_add hy, testBit_twoPow_add hz, testBit_twoPow_add (Nat.and_lt_two_pow y hz),
    Nat.testBit_and]
  cases decide (j = k) <;> rfl

/-! ### The closed form: it depends on the table alone, and is linear in it -/

theorem walshSum_congr {n : Nat} {F G : Nat → Int} (h : ∀ x < 2 ^ n, F x = G x) (u : Nat) :
    walshSum n F u = walshSum n G u :=
  Finset.sum_congr rfl fun x hx => by rw [h x (Finset.mem_range.1 hx)]

theorem walshSum_add (n : Nat) (F G : Nat → Int) (u : Nat) :
    walshSum n (fun x => F x + G x) u = walshSum n F u + walshSum n G u := by
  simp only [walshSum, add_mul, Finset.sum_add_distrib]

theorem walshSum_sub (n : Nat) (F G : Nat → Int) (u : Nat) :
    walshSum n (fun x => F x - G x) u = walshSum n F u - walshSum n G u := by
  simp only [walshSum, sub_mul, Finset.sum_sub_distrib]

/-- The block of size 2^k an entry lies in ends inside the buffer. -/
theorem block_end_le {n k x : Nat} (hk : k ≤ n) (hx : x < 2 ^ n) : 2 ^ k * (x / 2 ^ k) + 2 ^ k ≤ 2 ^ n := by
  have hsplit : 2 ^ n = 2 ^ k * 2 ^ (n - k) := by rw [← pow_add, Nat.add_sub_cancel' hk]
  have hblock : x / 2 ^ k < 2 ^ (n - k) := Nat.div_lt_of_lt_mul (hsplit ▸ hx)
  rw [hsplit, ← Nat.mul_succ]
  exact Nat.mul_le_mul_left _ hblock

theorem walshPartial_congr {n k x : Nat} (hk : k ≤ n) (hx : x < 2 ^ n) {F G : Nat → Int}
    (h : ∀ y < 2 ^ n, F y = G y) : walshPartial k F x = walshPartial k G x := by
  have hend := block_end_le hk hx
  refine Finset.sum_congr rfl fun z hz => ?_
  have := Finset.mem_range.1 hz
  rw [h _ (by omega)]

/-! ### The closed form by halves -/

/-- The entries 2^n, 2^n + 1, ... of a table. -/
def upperHalf (n : Nat) (F : Nat → Int) (x : Nat) : Int := F (2 ^ n + x)

/-- The lower half of a transform is the sum of the transforms of the two halves. -/
theorem walshSum_succ_lower {n u : Nat} (hu : u < 2 ^ n) (F : Nat → Int) :
    walshSum (n + 1) F u = walshSum n F u + walshSum n (upperHalf n F) u := by
  simp only [walshSum, upperHalf]
  rw [pow_succ, mul_two, Finset.sum_range_add]
  refine congrArg (_ + ·) (Finset.sum_congr rfl fun x hx => ?_)
  rw [Nat.and_comm, twoPow_add_and (Finset.mem_range.1 hx) hu, Nat.and_comm]

/-- The upper half is the difference. -/
theorem walshSum_succ_upper {n u : Nat} (hn : n < 32) (hu : u < 2 ^ n) (F : Nat → Int) :
    walshSum (n + 1) F (2 ^ n + u) = walshSum n F u - walshSum n (upperHalf n F) u := by
  simp only [walshSum, upperHalf]
  rw [pow_succ, mul_two, Finset.sum_range_add, sub_eq_add_neg, ← Finset.sum_neg_distrib]
  refine congrArg₂ (· + ·) (Finset.sum_congr rfl fun x hx => ?_) (Finset.sum_congr rfl fun x hx => ?_)
  · rw [twoPow_add_and hu (Finset.mem_range.1 hx)]
  · rw [twoPow_add_and_twoPow_add hu (Finset.mem_range.1 hx),
      popcount_twoPow_add hn (Nat.and_lt_two_pow u (Finset.mem_range.1 hx)), pow_succ, mul_neg_one, mul_neg]

/-- An index below 2^(n+1) lies in the lower or in the upper half. -/
theorem lt_twoPow_succ_cases {n u : Nat} (hu : u < 2 ^ (n + 1)) : u < 2 ^ n ∨ ∃ v < 2 ^ n, u = 2 ^ n + v := by
  rw [pow_succ] at hu
  rcases Nat.lt_or_ge u (2 ^ n) with h | h
  · exact .inl h
  · exact .inr ⟨u - 2 ^ n, by omega, by omega⟩

/-- R140: the transform applied twice multiplies by N. -/
theorem walshSum_walshSum {n u : Nat} (hn : n ≤ 32) (hu : u < 2 ^ n) (F : Nat → Int) :
    walshSum n (walshSum n F) u = 2 ^ n * F u := by
  induction n generalizing F u with
  | zero =>
    obtain rfl : u = 0 := by omega
    simp [walshSum]
  | succ n ih =>
    have hlower (u : Nat) : walshSum n (walshSum (n + 1) F) u =
        walshSum n (walshSum n F) u + walshSum n (walshSum n (upperHalf n F)) u := by
      rw [← walshSum_add]
      exact walshSum_congr (fun x hx => walshSum_succ_lower hx F) u
    have hupper (u : Nat) : walshSum n (upperHalf n (walshSum (n + 1) F)) u =
        walshSum n (walshSum n F) u - walshSum n (walshSum n (upperHalf n F)) u := by
      rw [← walshSum_sub]
      exact walshSum_congr (fun x hx => walshSum_succ_upper (by omega) hx F) u
    rcases lt_twoPow_succ_cases hu with hu | ⟨v, hv, rfl⟩
    · rw [walshSum_succ_lower hu, hlower, hupper, ih (by omega) hu]
      ring
    · rw [walshSum_succ_upper (by omega) hv, hlower, hupper, ih (by omega) hv (upperHalf n F), upperHalf]
      ring

/-- R141 for any table: the squares of the transform sum to N times the squares of the table. -/
theorem sum_walshSum_sq {n : Nat} (hn : n ≤ 32) (F : Nat → Int) :
    ∑ u ∈ Finset.range (2 ^ n), walshSum n F u ^ 2 = 2 ^ n * ∑ x ∈ Finset.range (2 ^ n), F x ^ 2 := by
  induction n generalizing F with
  | zero => simp [walshSum]
  | succ n ih =>
    have halves (G : Nat → Int) : ∑ x ∈ Finset.range (2 ^ (n + 1)), G x ^ 2 =
        ∑ x ∈ Finset.range (2 ^ n), (G x ^ 2 + upperHalf n G x ^ 2) := by
      rw [pow_succ, mul_two, Finset.sum_range_add, Finset.sum_add_distrib]
      rfl
    calc ∑ u ∈ Finset.range (2 ^ (n + 1)), walshSum (n + 1) F u ^ 2
        = ∑ u ∈ Finset.range (2 ^ n), 2 * (walshSum n F u ^ 2 + walshSum n (upperHalf n F) u ^ 2) := by
          rw [halves]
          refine Finset.sum_congr rfl fun u hu => ?_
          have hu := Finset.mem_range.1 hu
          rw [upperHalf, walshSum_succ_lower hu, walshSum_succ_upper (by omega) hu]
          ring
      _ = 2 ^ (n + 1) * ∑ x ∈ Finset.range (2 ^ (n + 1)), F x ^ 2 := by
          rw [halves, ← Finset.mul_sum, Finset.sum_add_distrib, Finset.sum_add_distrib, ih (by omega), ih (by omega)]
          ring

/-! ### The stages -/

/-- Inside its block of size 2^k a stage's value is the closed form on that block (R130). -/
theorem walshPartial_block {k q r : Nat} (hr : r < 2 ^ k) (F : Nat → Int) :
    walshPartial k F (2 ^ k * q + r) = walshSum k (fun z => F (2 ^ k * q + z)) r := by
  rw [walshPartial, Nat.mul_add_div (by positivity), Nat.div_eq_of_lt hr, Nat.mul_add_mod, Nat.mod_eq_of_lt hr]
  rfl

/-- All n stages leave the closed form. -/
theorem walshPartial_self {n x : Nat} (hx : x < 2 ^ n) (F : Nat → Int) : walshPartial n F x = walshSum n F x := by
  simpa using walshPartial_block (q := 0) hx F

/-- Stage k of R130 on closed forms: the pairwise sums and differences. -/
theorem walshPartial_succ {k x : Nat} (hk : k < 32) (F : Nat → Int) :
    walshPartial (k + 1) F x =
      if x % 2 ^ (k + 1) < 2 ^ k then walshPartial k F x + walshPartial k F (x + 2 ^ k)
      else walshPartial k F (x - 2 ^ k) - walshPartial k F x := by
  obtain ⟨q, r, hr, rfl⟩ : ∃ q r, r < 2 ^ (k + 1) ∧ x = 2 ^ (k + 1) * q + r :=
    ⟨x / 2 ^ (k + 1), x % 2 ^ (k + 1), Nat.mod_lt _ (by positivity), (Nat.div_add_mod _ _).symm⟩
  have hlow (z : Nat) : 2 ^ (k + 1) * q + z = 2 ^ k * (2 * q) + z := by ring
  have hhigh (z : Nat) : 2 ^ (k + 1) * q + (2 ^ k + z) = 2 ^ k * (2 * q + 1) + z := by ring
  have hupper : upperHalf k (fun z => F (2 ^ (k + 1) * q + z)) = fun z => F (2 ^ k * (2 * q + 1) + z) :=
    funext fun z => congrArg F (hhigh z)
  rw [walshPartial_block hr, Nat.mul_add_mod, Nat.mod_eq_of_lt hr]
  rcases lt_twoPow_succ_cases hr with hr | ⟨v, hv, rfl⟩
  · rw [if_pos hr, walshSum_succ_lower hr, hupper, add_assoc, add_comm r, hhigh, hlow, walshPartial_block hr,
      walshPartial_block hr]
    simp only [hlow]
  · have hpartner : 2 ^ (k + 1) * q + (2 ^ k + v) - 2 ^ k = 2 ^ (k + 1) * q + v := by omega
    rw [if_neg (by omega), walshSum_succ_upper hk hv, hupper, hpartner, hhigh, hlow, walshPartial_block hv,
      walshPartial_block hv]
    simp only [hlow]

/-- The partner of an entry in the lower half of its block is inside the buffer. -/
theorem add_twoPow_lt {n k x : Nat} (hk : k < n) (hx : x < 2 ^ n) (hlow : x % 2 ^ (k + 1) < 2 ^ k) :
    x + 2 ^ k < 2 ^ n := by
  have hend := block_end_le (k := k + 1) hk hx
  have hx' := Nat.div_add_mod x (2 ^ (k + 1))
  have hpow := pow_succ 2 k
  omega

/-- The stages 0 .. k-1 by index (R130, R131). -/
theorem stagesUpTo_getD {n k x : Nat} (hn : n ≤ 32) (hk : k ≤ n) {l : List Int} (hl : l.length = 2 ^ n)
    (hx : x < 2 ^ n) : (stagesUpTo n k l).getD x 0 = walshPartial k (fun x => l.getD x 0) x := by
  induction k generalizing x with
  | zero => simp [stagesUpTo, walshPartial]
  | succ k ih =>
    rw [stagesUpTo_succ, butterflyStage_getD hk (stagesUpTo_length (by omega) hl) hx, walshPartial_succ (by omega),
      ih (by omega) hx]
    split
    next hlow => rw [ih (by omega) (add_twoPow_lt hk hx hlow)]
    next => rw [ih (by omega) (by omega)]

/-- R131: Butterfly(n) by index. -/
theorem butterfly_getD {n u : Nat} (hn : n ≤ 32) {l : List Int} (hl : l.length = 2 ^ n) (hu : u < 2 ^ n) :
    (butterfly n l).getD u 0 = walshSum n (fun x => l.getD x 0) u := by
  rw [butterfly_eq_stages, stagesUpTo_getD hn le_rfl hl hu, walshPartial_self hu]

/-- R140 on buffers. -/
theorem butterfly_butterfly {n : Nat} (hn : n ≤ 32) {l : List Int} (hl : l.length = 2 ^ n) :
    butterfly n (butterfly n l) = l.map (fun v => 2 ^ n * v) := by
  have hl' : (butterfly n l).length = 2 ^ n := butterfly_length hl
  refine List.ext_getElem (by rw [butterfly_length hl', List.length_map, hl]) fun u hu _ => ?_
  rw [butterfly_length hl'] at hu
  calc (butterfly n (butterfly n l))[u]
      = walshSum n (fun x => (butterfly n l).getD x 0) u := by rw [← butterfly_getD hn hl' hu, List.getD_eq_getElem]
    _ = walshSum n (walshSum n fun x => l.getD x 0) u := walshSum_congr (fun x hx => butterfly_getD hn hl hx) u
    _ = 2 ^ n * l.getD u 0 := walshSum_walshSum hn hu _
    _ = (l.map fun v => 2 ^ n * v)[u] := by rw [List.getElem_map, List.getD_eq_getElem]

/-! ### The spectrum of a 0/1 table (R138, R141) -/

theorem plusMinus_emod_two (b : Nat → Nat) (x : Nat) : plusMinus b x % 2 = 1 := by
  rw [plusMinus]; omega

theorem plusMinus_sq {b : Nat → Nat} {x : Nat} (hb : b x ≤ 1) : plusMinus b x ^ 2 = 1 := by
  rcases Nat.le_one_iff_eq_zero_or_eq_one.1 hb with h | h <;> simp [plusMinus, h]

/-- The squares of a ±1 table sum to N. -/
theorem sum_plusMinus_sq {n : Nat} {b : Nat → Nat} (hb : ∀ x < 2 ^ n, b x ≤ 1) :
    ∑ x ∈ Finset.range (2 ^ n), plusMinus b x ^ 2 = 2 ^ n := by
  rw [Finset.sum_congr rfl fun x hx => plusMinus_sq (hb x (Finset.mem_range.1 hx))]
  simp

/-- R141: the spectrum of a 0/1 table has N^2 as the sum of its squares. -/
theorem parseval_plusMinus {n : Nat} (hn : n ≤ 32) {b : Nat → Nat} (hb : ∀ x < 2 ^ n, b x ≤ 1) :
    ∑ u ∈ Finset.range (2 ^ n), walshSum n (plusMinus b) u ^ 2 = (2 ^ n : Int) ^ 2 := by
  rw [sum_walshSum_sq hn, sum_plusMinus_sq hb, sq]

/-- R138: a spectrum of a 0/1 table lies in [-N, N]: its squares are part of a sum that is N^2. -/
theorem abs_walshSum_plusMinus_le {n u : Nat} (hn : n ≤ 32) {b : Nat → Nat} (hb : ∀ x < 2 ^ n, b x ≤ 1)
    (hu : u < 2 ^ n) : |walshSum n (plusMinus b) u| ≤ 2 ^ n := by
  refine abs_le_of_sq_le_sq ?_ (by positivity)
  rw [← parseval_plusMinus hn hb]
  exact Finset.single_le_sum (f := fun u => walshSum n (plusMinus b) u ^ 2) (fun _ _ => sq_nonneg _)
    (Finset.mem_range.2 hu)

/-- R138: every entry is a sum of N odd terms. -/
theorem walshSum_plusMinus_emod_two (n : Nat) (b : Nat → Nat) (u : Nat) :
    walshSum n (plusMinus b) u % 2 = (2 ^ n : Int) % 2 := by
  have hodd (x : Nat) : plusMinus b x * (-1) ^ popcount (u &&& x) % 2 = 1 := by
    have := plusMinus_emod_two b x
    rcases neg_one_pow_eq_or Int (popcount (u &&& x)) with h | h <;> rw [h] <;> omega
  rw [walshSum, Finset.sum_int_mod]
  simp [hodd]

/-- R138: entry 0 counts the ones. -/
theorem walshSum_plusMinus_zero {n : Nat} {b : Nat → Nat} (hb : ∀ x < 2 ^ n, b x ≤ 1) :
    walshSum n (plusMinus b) 0 = 2 * (countBelow n (fun x => b x = 1) : Int) - 2 ^ n := by
  have hcount : ∑ x ∈ Finset.range (2 ^ n), b x = countBelow n (fun x => b x = 1) := by
    rw [countBelow, Finset.card_filter]
    refine Finset.sum_congr rfl fun x hx => ?_
    have := hb x (Finset.mem_range.1 hx)
    split <;> omega
  rw [← hcount]
  simp [walshSum, plusMinus, Finset.sum_sub_distrib, Finset.mul_sum]

/-- A value of a stage is a signed sum over its block, so Cauchy-Schwarz bounds its square. -/
theorem walshPartial_sq_le {n k x : Nat} (hk : k ≤ n) (hx : x < 2 ^ n) (F : Nat → Int) :
    walshPartial k F x ^ 2 ≤ 2 ^ k * ∑ u ∈ Finset.range (2 ^ n), F u ^ 2 := by
  have hblock : 2 ^ k * (x / 2 ^ k) + 2 ^ k ≤ 2 ^ n := block_end_le hk hx
  calc walshPartial k F x ^ 2
      ≤ (Finset.range (2 ^ k)).card * ∑ z ∈ Finset.range (2 ^ k),
          (F (2 ^ k * (x / 2 ^ k) + z) * (-1) ^ popcount ((x % 2 ^ k) &&& z)) ^ 2 := sq_sum_le_card_mul_sum_sq
    _ = 2 ^ k * ∑ u ∈ Finset.Ico (2 ^ k * (x / 2 ^ k)) (2 ^ k * (x / 2 ^ k) + 2 ^ k), F u ^ 2 := by
        rw [Finset.sum_Ico_eq_sum_range, Nat.add_sub_cancel_left, Finset.card_range]
        simp [mul_pow, ← pow_mul, pow_mul']
    _ ≤ 2 ^ k * ∑ u ∈ Finset.range (2 ^ n), F u ^ 2 := by
        gcongr
        intro u hu
        rw [Finset.mem_Ico] at hu
        exact Finset.mem_range.2 (by omega)

end Sys2Proof.Machine
end

section
/-! Laws of the transform commands: a command (of any family) that ends without error ended by its rule, and what the
rules of WHT, WHT_COMP and WHT_RAW make of a buffer or a table they accept. -/

namespace Sys2Proof.Machine

/-! ### A command that ends without error -/

/-- No error this outcome can carry has code 0. -/
def ErrorsHaveCode {α : Type} (r : Except CmdStop α) : Prop := ∀ e, r = .error (.error e) → e.code ≠ .none

theorem errorsHaveCode_ok {α : Type} (a : α) : ErrorsHaveCode (.ok a) := fun _ h => nomatch h

theorem errorsHaveCode_stopWith {α : Type} {code : ErrCode} (h : code ≠ .none) (exp act idx : Nat) :
    ErrorsHaveCode (stopWith (α := α) code exp act idx) := by
  rintro e he
  simp only [stopWith, Except.error.injEq, CmdStop.error.injEq] at he
  exact he ▸ h

/-- An error that is passed on. -/
theorem errorsHaveCode_error {α β : Type} {r : Except CmdStop α} {e : CmdStop} (h : ErrorsHaveCode r)
    (hr : r = .error e) : ErrorsHaveCode (α := β) (.error e) := by
  rintro e' ⟨⟩
  exact h e' hr

/-- A check before the rest of a rule. -/
theorem errorsHaveCode_ite {α : Type} {p : Prop} [Decidable p] {code : ErrCode} {exp act idx : Nat}
    {r : Except CmdStop α} (hcode : code ≠ .none) (hr : ErrorsHaveCode r) :
    ErrorsHaveCode (if p then stopWith code exp act idx else r) := by
  split
  · exact errorsHaveCode_stopWith hcode _ _ _
  · exact hr

theorem errorsHaveCode_checkWidth (s : State) : ErrorsHaveCode (checkWidth s) := by
  by_cases h : LegalWidth s
  · rw [checkWidth_ok h]; exact errorsHaveCode_ok _
  · rw [checkWidth_error h]; exact errorsHaveCode_stopWith (by decide) _ _ _

/-- A scan answers only the errors of its check. -/
theorem errorsHaveCode_scanEntries {m : Memory} {off : Nat → Nat} {bad : Nat → Word → Option CmdError}
    (hbad : ∀ x w e, bad x w = some e → e.code ≠ .none) (x k : Nat) : ErrorsHaveCode (scanEntries m off bad x k) := by
  induction k generalizing x with
  | zero => exact errorsHaveCode_ok _
  | succ k ih =>
    intro e he
    rw [scanEntries] at he
    split at he
    · simp at he
    · split at he
      next hb => simp only [Except.error.injEq, CmdStop.error.injEq] at he; exact he ▸ hbad _ _ _ hb
      next =>
        split at he
        · simp at he
        next e' hscan => exact ih (x + 1) e (by rw [hscan, ← he])

theorem booleanError_eq_none {x : Nat} {w : Word} : booleanError x w = none ↔ w = 0 ∨ w = 1 := by
  unfold booleanError
  split <;> simp_all

theorem booleanError_code {x : Nat} {w : Word} {e : CmdError} (h : booleanError x w = some e) :
    e.code = .notBoolean := by
  unfold booleanError at h
  split at h
  · simp at h
  · simp only [Option.some.injEq] at h; rw [← h]

theorem domainError_code {m x : Nat} {w : Word} {e : CmdError} (h : domainError m x w = some e) : e.code = .domain := by
  unfold domainError at h
  split at h
  · simp only [Option.some.injEq] at h; rw [← h]
  · simp at h

theorem errorsHaveCode_checkTable (ks : List Metric) (s : State) : ErrorsHaveCode (checkTable ks s) := by
  have hscan : ErrorsHaveCode (scanEntries s.mem sboxOff (domainError (opM s)) 0 (2 ^ opN s)) :=
    errorsHaveCode_scanEntries (fun _ _ _ h => by simp [domainError_code h]) _ _
  unfold checkTable
  simp only
  split
  next e he => exact errorsHaveCode_error (errorsHaveCode_checkWidth s) he
  next =>
    iterate 5 refine errorsHaveCode_ite (by decide) ?_
    split
    next => exact errorsHaveCode_ok _
    next e he => exact errorsHaveCode_error hscan he

theorem errorsHaveCode_whtRule (s : State) : ErrorsHaveCode (whtRule s) := by
  have hscan : ErrorsHaveCode (scanEntries s.mem bufOff booleanError 0 (2 ^ opN s)) :=
    errorsHaveCode_scanEntries (fun _ _ _ h => by simp [booleanError_code h]) _ _
  unfold whtRule
  split
  next e he => exact errorsHaveCode_error (errorsHaveCode_checkWidth s) he
  next =>
    split
    next e he => exact errorsHaveCode_error hscan he
    next => exact errorsHaveCode_ok _

theorem errorsHaveCode_whtRawRule (s : State) : ErrorsHaveCode (whtRawRule s) := by
  have hscan : ErrorsHaveCode (scanEntries s.mem bufOff (fun _ _ => none) 0 (2 ^ opN s)) :=
    errorsHaveCode_scanEntries (fun _ _ _ h => (Option.some_ne_none _ h.symm).elim) _ _
  unfold whtRawRule
  split
  next e he => exact errorsHaveCode_error (errorsHaveCode_checkWidth s) he
  next =>
    split
    next e he => exact errorsHaveCode_error hscan he
    next =>
      split
      next => exact errorsHaveCode_stopWith (by decide) _ _ _
      next => exact errorsHaveCode_ok _

theorem errorsHaveCode_whtCompRule (s : State) : ErrorsHaveCode (whtCompRule s) := by
  unfold whtCompRule
  split
  next e he => exact errorsHaveCode_error (errorsHaveCode_checkTable [] s) he
  next => exact errorsHaveCode_ok _

theorem errorsHaveCode_analyzerRule (ks : List Metric) (s : State) : ErrorsHaveCode (analyzerRule ks s) := by
  unfold analyzerRule
  split
  next e he => exact errorsHaveCode_error (errorsHaveCode_checkTable ks s) he
  next => exact errorsHaveCode_ok _

theorem errorsHaveCode_runSelRule (s : State) : ErrorsHaveCode (runSelRule s) := by
  unfold runSelRule
  refine errorsHaveCode_ite (by decide) ?_
  split
  next => exact errorsHaveCode_ok _
  next => exact errorsHaveCode_analyzerRule _ s

/-- No command's error has code 0 (R201). -/
theorem errorsHaveCode_ruleOf (i : Instr) (s : State) : ErrorsHaveCode (ruleOf i s) := by
  cases i with
  | nop | bvBit | bvParity | bvHamming => exact errorsHaveCode_ok _
  | wht => exact errorsHaveCode_whtRule s
  | whtRaw => exact errorsHaveCode_whtRawRule s
  | whtComp => exact errorsHaveCode_whtCompRule s
  | nl | sac | lap | dap | bicNl | bicSac => exact errorsHaveCode_analyzerRule _ s
  | runSel => exact errorsHaveCode_runSelRule s

/-- ERRCODE 0 after a command says that its rule answered (R192). -/
theorem ruleOf_ok_of_errCode_none {i : Instr} {s t : State} (h : exec i s = .next t) (he : t.flags.errCode = .none) :
    ∃ u, ruleOf i s = .ok u ∧ t = endOk u := by
  obtain hok | ⟨e, hrule, rfl⟩ := exec_next.1 h
  · exact hok
  · obtain ⟨-, -, hflags, -⟩ := raiseError_spec i e s
    rw [hflags] at he
    exact absurd he (errorsHaveCode_ruleOf i s e hrule)

/-- A rule that answers is how the command ends, without error (R192). -/
theorem exec_of_ruleOf_ok {i : Instr} {s u : State} (h : ruleOf i s = .ok u) :
    exec i s = .next (endOk u) ∧ CommandFrame s (endOk u) ∧ EndedWithoutError s (endOk u) :=
  ⟨exec_next.2 (.inl ⟨u, h, rfl⟩), endOk_of_frame (ruleOf_frame h)⟩

/-- A command keeps the width it is given (R104). -/
theorem opN_of_frame {s t : State} (h : CommandFrame s t) : opN t = opN s := by
  obtain ⟨-, hregs, -⟩ := h
  rw [opN, hregs, opN]

theorem legalWidth_of_frame {s t : State} (h : CommandFrame s t) (hw : LegalWidth s) : LegalWidth t := by
  rwa [LegalWidth, opN_of_frame h, h.1]

/-! ### What the rules of the transform make of an input they accept (R134, R135, R136) -/

/-- The buffer or table as a list. -/
def listBelow (n : Nat) (F : Nat → Int) : List Int := (List.range (2 ^ n)).map F

theorem listBelow_length (n : Nat) (F : Nat → Int) : (listBelow n F).length = 2 ^ n := by simp [listBelow]

theorem listBelow_getD {n x : Nat} (hx : x < 2 ^ n) (F : Nat → Int) : (listBelow n F).getD x 0 = F x := by
  simp [listBelow, hx]

/-- A scan of entries that are all written and pass the check answers them, read as the values they stand for. -/
theorem exists_scanEntries {m : Memory} {off : Nat → Nat} {bad : Nat → Word → Option CmdError} {n : Nat}
    {value : Word → Int} {F : Nat → Int}
    (h : ∀ x < 2 ^ n, ∃ w, m.readWord (off x) = some w ∧ bad x w = none ∧ value w = F x) :
    ∃ ws, scanEntries m off bad 0 (2 ^ n) = .ok ws ∧ ws.map value = listBelow n F := by
  refine ⟨(List.range (2 ^ n)).map fun x => (m.readWord (off x)).getD 0, scanEntries_ok.2 ⟨by simp, fun x hx => ?_⟩, ?_⟩
  · obtain ⟨w, hread, hbad, -⟩ := h x hx
    exact ⟨w, by simpa using hread, by simp [hx, hread], by simpa using hbad⟩
  · rw [List.map_map, listBelow]
    refine List.map_congr_left fun x hx => ?_
    obtain ⟨w, hread, -, hvalue⟩ := h x (List.mem_range.1 hx)
    simp [hread, hvalue]

/-- A spectrum in the signed range is what the buffer then holds. -/
theorem bufHolds_writeSpectrum {s : State} {l : List Int} {W : Nat → Int} (hl : l.length = 2 ^ opN s)
    (hW : ∀ u < 2 ^ opN s, l.getD u 0 = W u) (hrange : ∀ u < 2 ^ opN s, InSignedRange (W u)) :
    BufHolds (writeSpectrum l s) W := by
  intro u hu
  have hu' : u < 2 ^ opN s := hu
  have hentry : l[u]'(hl ▸ hu') = W u := by rw [← hW u hu', List.getD_eq_getElem]
  exact ⟨_, writeSpectrum_entry (hl ▸ hu'), by rw [hentry, patternOf_toInt (hrange u hu')]⟩

theorem bufHolds_congr {s : State} {F G : Nat → Int} (hF : BufHolds s F) (h : ∀ x < 2 ^ opN s, F x = G x) :
    BufHolds s G := fun x hx => h x hx ▸ hF x hx

/-- The transform of a buffer, written back. -/
theorem bufHolds_butterfly {s : State} {F : Nat → Int} (hn : opN s ≤ 32)
    (hrange : ∀ u < 2 ^ opN s, InSignedRange (walshSum (opN s) F u)) :
    BufHolds (writeSpectrum (butterfly (opN s) (listBelow (opN s) F)) s) (walshSum (opN s) F) := by
  have hl := listBelow_length (opN s) F
  refine bufHolds_writeSpectrum (butterfly_length hl) (fun u hu => ?_) hrange
  rw [butterfly_getD hn hl hu]
  exact walshSum_congr (fun x hx => listBelow_getD hx F) u

/-- WHT on a 0/1 table (R134). -/
theorem whtRule_of_bits {s : State} {b : Nat → Nat} (hw : LegalWidth s) (hb : BufHoldsBits s b) :
    whtRule s = .ok (writeSpectrum (butterfly (opN s) (listBelow (opN s) (plusMinus b))) s) := by
  obtain ⟨ws, hscan, hws⟩ := exists_scanEntries (bad := booleanError) (value := fun w => encodeSign w.toNat)
    (F := plusMinus b) fun x hx => by
      obtain ⟨hread, hle⟩ := hb x hx
      rcases Nat.le_one_iff_eq_zero_or_eq_one.1 hle with h | h <;> rw [h] at hread
      · exact ⟨0, hread, booleanError_eq_none.2 (.inl rfl), by rw [plusMinus, h]; rfl⟩
      · exact ⟨1, hread, booleanError_eq_none.2 (.inr rfl), by rw [plusMinus, h]; rfl⟩
  exact whtRule_ok.2 ⟨hw, ws, hscan, by rw [hws]⟩

/-- WHT_COMP on a legal table (R136): the transform of its component function. -/
theorem whtCompRule_of_table {s : State} {S b : Nat → Nat} (hs : LegalScalars s) (hm : opM s ≤ 32)
    (hS : SboxHolds s S) (hb : ∀ x < 2 ^ opN s, b x = popcount (S x &&& s.regs.mask.toNat) % 2) :
    whtCompRule s = .ok (writeSpectrum (butterfly (opN s) (listBelow (opN s) (plusMinus b))) s) := by
  have hmap : listBelow (opN s) (plusMinus b) =
      (component s.regs.mask.toNat ((List.range (2 ^ opN s)).map S)).map encodeSign := by
    simp only [listBelow, component, List.map_map]
    refine List.map_congr_left fun x hx => ?_
    rw [plusMinus, hb x (List.mem_range.1 hx)]
    rfl
  refine whtCompRule_ok.2 ⟨_, checkTable_of_legal hs hS hm ⟨by simp, by simp⟩, ?_⟩
  rw [spectrum, hmap]

/-- The stages of WHT_RAW answer when each of them stays in the signed range (R135). -/
theorem checkedStages_of_fits {n i k : Nat} {l : List Int}
    (h : ∀ j, i < j → j ≤ i + k → ∀ v ∈ stagesUpTo n j l, fitsSigned v = true) :
    checkedStages n i k (stagesUpTo n i l) = .ok (stagesUpTo n (i + k) l) := by
  induction k generalizing i with
  | zero => rfl
  | succ k ih =>
    have hfits : (stagesUpTo n (i + 1) l).all fitsSigned = true :=
      List.all_eq_true.2 (h (i + 1) (by omega) (by omega))
    simp only [checkedStages]
    rw [← stagesUpTo_succ, if_pos hfits, ih fun j hj hk => h j (by omega) (by omega), Nat.succ_add_eq_add_succ]

theorem fitsSigned_iff {v : Int} : fitsSigned v = true ↔ InSignedRange v := by
  simp [fitsSigned, InSignedRange]

/-- WHT_RAW on a buffer whose stages all stay in the signed range (R135). -/
theorem whtRawRule_of_inRange {s : State} {F : Nat → Int} (hw : LegalWidth s) (hn : opN s ≤ 32) (hF : BufHolds s F)
    (hrange : ∀ k, 1 ≤ k → k ≤ opN s → ∀ x < 2 ^ opN s, InSignedRange (walshPartial k F x)) :
    whtRawRule s = .ok (writeSpectrum (butterfly (opN s) (listBelow (opN s) F)) s) := by
  obtain ⟨ws, hscan, hws⟩ := exists_scanEntries (bad := fun _ _ => none) (value := BitVec.toInt) (F := F)
    fun x hx => by
      obtain ⟨w, hread, hval⟩ := hF x hx
      exact ⟨w, hread, rfl, hval⟩
  refine whtRawRule_ok.2 ⟨hw, ws, _, hscan, ?_, rfl⟩
  rw [hws]
  have hl := listBelow_length (opN s) F
  have hstages := checkedStages_of_fits (n := opN s) (i := 0) (k := opN s) (l := listBelow (opN s) F)
    fun j hj hk v hv => by
      obtain ⟨x, hx, rfl⟩ := List.mem_iff_getElem.1 hv
      have hx' : x < 2 ^ opN s := by rwa [stagesUpTo_length (by omega) hl] at hx
      rw [fitsSigned_iff, ← List.getD_eq_getElem _ 0 hx, stagesUpTo_getD hn (by omega) hl hx',
        walshPartial_congr (by omega) hx' fun y hy => listBelow_getD hy F]
      exact hrange j hj (by omega) x hx'
  rwa [Nat.zero_add] at hstages

/-- WHT_RAW completes when its stages stay in the signed range, and the buffer holds the transform (R135). -/
theorem exec_whtRaw_of_inRange {s : State} {F : Nat → Int} (hw : LegalWidth s) (hn : opN s ≤ 32) (hF : BufHolds s F)
    (hrange : ∀ k, 1 ≤ k → k ≤ opN s → ∀ x < 2 ^ opN s, InSignedRange (walshPartial k F x)) :
    ∃ t, exec .whtRaw s = .next t ∧ CommandFrame s t ∧ EndedWithoutError s t ∧ BufHolds t (walshSum (opN s) F) := by
  obtain ⟨hexec, hframe, hend⟩ := exec_of_ruleOf_ok (i := .whtRaw) (whtRawRule_of_inRange hw hn hF hrange)
  have hlast : ∀ u < 2 ^ opN s, InSignedRange (walshSum (opN s) F u) := fun u hu =>
    walshPartial_self hu F ▸ hrange (opN s) hw.1 le_rfl u hu
  exact ⟨_, hexec, hframe, hend, bufHolds_butterfly hn hlast⟩

end Sys2Proof.Machine
end

section
/-! The statements of 41_wht.md on what a spectrum satisfies: ButterflyClosedForm, SpectrumBounds, ButterflyInvolution,
Parseval. -/

namespace Sys2Proof.Machine

/-- Settles O12: after all n stages the block of every entry is the whole buffer. -/
theorem butterflyClosedForm : Obligations.ButterflyClosedForm := fun _ _ hn hl =>
  ⟨butterfly_length hl, fun _ hu => butterfly_getD (hn.trans (by decide)) hl hu⟩

/-! ### The two commands with a 0/1 input -/

/-- WHT or WHT_COMP answers `t` at `s`, and `b` is the 0/1 table it transforms (R134, R136). -/
def TransformsBits (s t : State) (b : Nat → Nat) : Prop :=
  exec .wht s = .next t ∧ BufHoldsBits s b ∨
    exec .whtComp s = .next t ∧ ∃ S, SboxHolds s S ∧ ∀ x < 2 ^ opN s, b x = popcount (S x &&& s.regs.mask.toNat) % 2

theorem opN_le_of_legal {s : State} (hp : s.part.wf = true) (hw : LegalWidth s) : opN s ≤ 16 :=
  hw.2.trans (part_limits hp).2.1

theorem inSignedRange_of_abs_le {v : Int} {k : Nat} (hk : k < 31) (h : |v| ≤ 2 ^ k) : InSignedRange v := by
  have hpow : (2 : Int) ^ k ≤ 2 ^ 30 := pow_le_pow_right₀ (by norm_num) (by omega)
  obtain ⟨hlo, hhi⟩ := abs_le.1 h
  constructor <;> omega

/-- The spectrum of a 0/1 table fits the buffer of every legal part (R138). -/
theorem inSignedRange_spectrum {n u : Nat} (hn : n ≤ 16) {b : Nat → Nat} (hb : ∀ x < 2 ^ n, b x ≤ 1) (hu : u < 2 ^ n) :
    InSignedRange (walshSum n (plusMinus b) u) :=
  inSignedRange_of_abs_le (by omega) (abs_walshSum_plusMinus_le (by omega) hb hu)

/-- A run on a 0/1 table without error: the table is one of bits, and the buffer holds its spectrum. -/
theorem transformsBits_spectrum {s t : State} {b : Nat → Nat} (hp : s.part.wf = true) (h : TransformsBits s t b)
    (he : t.flags.errCode = .none) :
    opN s ≤ 16 ∧ (∀ x < 2 ^ opN s, b x ≤ 1) ∧ BufHolds t (walshSum (opN s) (plusMinus b)) := by
  obtain ⟨hw, hb, ht⟩ : LegalWidth s ∧ (∀ x < 2 ^ opN s, b x ≤ 1) ∧
      t = endOk (writeSpectrum (butterfly (opN s) (listBelow (opN s) (plusMinus b))) s) := by
    obtain ⟨hexec, hb⟩ | ⟨hexec, S, hS, hb⟩ := h
    · obtain ⟨u, hrule, rfl⟩ := ruleOf_ok_of_errCode_none hexec he
      obtain ⟨hw, -⟩ := whtRule_ok.1 hrule
      have hu : whtRule s = .ok u := hrule
      rw [whtRule_of_bits hw hb, Except.ok.injEq] at hu
      exact ⟨hw, fun x hx => (hb x hx).2, hu ▸ rfl⟩
    · obtain ⟨u, hrule, rfl⟩ := ruleOf_ok_of_errCode_none hexec he
      obtain ⟨table, htable, -⟩ := whtCompRule_ok.1 hrule
      obtain ⟨hs, -⟩ := checkTable_ok.1 htable
      have hu : whtCompRule s = .ok u := hrule
      rw [whtCompRule_of_table hs (hs.2.1.2.trans (part_limits hp).2.2.2) hS hb, Except.ok.injEq] at hu
      exact ⟨hs.1, fun x hx => by rw [hb x hx]; omega, hu ▸ rfl⟩
  have hn := opN_le_of_legal hp hw
  exact ⟨hn, hb, ht ▸ bufHolds_butterfly (by omega) fun u hu => inSignedRange_spectrum hn hb hu⟩

/-- A run of WHT or WHT_COMP without error had a 0/1 table. -/
theorem exists_transformsBits {s t : State} (h : exec .wht s = .next t ∨ exec .whtComp s = .next t)
    (he : t.flags.errCode = .none) : ∃ b, TransformsBits s t b := by
  rcases h with h | h
  · obtain ⟨u, hrule, rfl⟩ := ruleOf_ok_of_errCode_none h he
    obtain ⟨-, ws, hws, -⟩ := whtRule_ok.1 hrule
    refine ⟨fun x => ((s.mem.readWord (bufOff x)).getD 0).toNat, .inl ⟨h, fun x hx => ?_⟩⟩
    obtain ⟨w, hread, -, hbit⟩ := (scanEntries_ok.1 hws).2 x hx
    rw [Nat.zero_add] at hread
    rcases booleanError_eq_none.1 hbit with rfl | rfl <;> simp [hread]
  · obtain ⟨u, hrule, rfl⟩ := ruleOf_ok_of_errCode_none h he
    obtain ⟨table, htable, -⟩ := whtCompRule_ok.1 hrule
    obtain ⟨-, -, -, hentry⟩ := checkTable_ok.1 htable
    refine ⟨_, .inr ⟨h, fun x => ((s.mem.readWord (sboxOff x)).getD 0).toNat, fun x hx => ?_, fun _ _ => rfl⟩⟩
    obtain ⟨w, hread, -, hlt⟩ := hentry x hx
    simp [hread, hlt]

/-- Settles O17: the bounds from Parseval, the parity and entry 0 from the N terms of the closed form. -/
theorem spectrumBounds : Obligations.SpectrumBounds := by
  intro s t b hp h he
  obtain ⟨hn, hb, hbuf⟩ := transformsBits_spectrum hp h he
  refine ⟨_, hbuf, fun u hu => ?_, walshSum_plusMinus_zero hb⟩
  obtain ⟨hlo, hhi⟩ := abs_le.1 (abs_walshSum_plusMinus_le (by omega) hb hu)
  have hmod := walshSum_plusMinus_emod_two (opN s) b u
  refine ⟨hlo, hhi, hmod, fun hpos => ?_⟩
  rw [hmod]
  exact Int.emod_eq_zero_of_dvd (dvd_pow_self 2 (by omega))

/-- Settles O19: Parseval for the spectrum that the buffer holds. -/
theorem parseval : Obligations.Parseval := by
  intro s t hp h he
  obtain ⟨b, hrun⟩ := exists_transformsBits h he
  obtain ⟨hn, hb, hbuf⟩ := transformsBits_spectrum hp hrun he
  exact ⟨_, hbuf, parseval_plusMinus (by omega) hb⟩

/-! ### The transform of a spectrum -/

/-- The stages of a second transform stay in the signed range: Cauchy-Schwarz with Parseval bounds the square of each
value by 2^k N^2, at most 2^48. -/
theorem inSignedRange_walshPartial_spectrum {n k x : Nat} (hn : n ≤ 16) (hk : k ≤ n) {b : Nat → Nat}
    (hb : ∀ x < 2 ^ n, b x ≤ 1) (hx : x < 2 ^ n) : InSignedRange (walshPartial k (walshSum n (plusMinus b)) x) := by
  have hsq : walshPartial k (walshSum n (plusMinus b)) x ^ 2 ≤ (2 ^ 24) ^ 2 := by
    calc walshPartial k (walshSum n (plusMinus b)) x ^ 2
        ≤ 2 ^ k * ∑ u ∈ Finset.range (2 ^ n), walshSum n (plusMinus b) u ^ 2 := walshPartial_sq_le hk hx _
      _ = 2 ^ k * (2 ^ n) ^ 2 := by rw [parseval_plusMinus (by omega) hb]
      _ = 2 ^ (k + n * 2) := by rw [← pow_mul, ← pow_add]
      _ ≤ 2 ^ 48 := pow_le_pow_right₀ (by norm_num) (by omega)
      _ = (2 ^ 24) ^ 2 := by norm_num
  exact inSignedRange_of_abs_le (by omega) (abs_le_of_sq_le_sq hsq (by positivity))

/-- WHT then WHT_RAW on a 0/1 table: both end without error, and the buffer holds N times the ±1 table (R140). -/
theorem exec_wht_whtRaw {s : State} {b : Nat → Nat} (hp : s.part.wf = true) (hw : LegalWidth s)
    (hb : BufHoldsBits s b) :
    ∃ t u, exec .wht s = .next t ∧ EndedWithoutError s t ∧ exec .whtRaw t = .next u ∧ EndedWithoutError t u ∧
      BufHolds u (fun x => 2 ^ opN s * plusMinus b x) := by
  have hn := opN_le_of_legal hp hw
  have hbits : ∀ x < 2 ^ opN s, b x ≤ 1 := fun x hx => (hb x hx).2
  obtain ⟨t, hexec, hframe, hend⟩ : ∃ t, exec .wht s = .next t ∧ CommandFrame s t ∧ EndedWithoutError s t :=
    ⟨_, exec_of_ruleOf_ok (i := .wht) (whtRule_of_bits hw hb)⟩
  have hcode : t.flags.errCode = .none := by
    obtain ⟨-, -, hcode, -⟩ := hend
    exact hcode
  obtain ⟨-, -, hbuf⟩ := transformsBits_spectrum hp (.inl ⟨hexec, hb⟩) hcode
  have hnt := opN_of_frame hframe
  obtain ⟨u, hexec', hframe', hend', hbuf'⟩ := exec_whtRaw_of_inRange (legalWidth_of_frame hframe hw) (by omega) hbuf
    fun k _ hk x hx => inSignedRange_walshPartial_spectrum hn (hnt ▸ hk) hbits (hnt ▸ hx)
  have hnu := (opN_of_frame hframe').trans hnt
  rw [hnt] at hbuf'
  exact ⟨t, u, hexec, hend, hexec', hend', bufHolds_congr hbuf' fun x hx =>
    walshSum_walshSum (by omega) (hnu ▸ hx) (plusMinus b)⟩

/-- Settles O18: the closed form is its own inverse up to N, and transforming a spectrum does not overflow. -/
theorem butterflyInvolution : Obligations.ButterflyInvolution :=
  ⟨fun _ _ hn hl => butterfly_butterfly (hn.trans (by decide)) hl, fun _ _ hp hw hb => exec_wht_whtRaw hp hw hb⟩

end Sys2Proof.Machine
end

section
/-! The statement of 42_analyzers.md on what a result depends on: AnalyzerPurity (R177). The checks, and with them the
table, are a function of the named inputs; so two runs write slots computed from one table, or stop the same way. -/

namespace Sys2Proof.Machine

/-! ### The checks depend on the named inputs alone -/

/-- A scan depends on the scanned entries alone. -/
theorem scanEntries_congr {m m' : Memory} {off : Nat → Nat} {bad : Nat → Word → Option CmdError} {x k : Nat}
    (h : ∀ j < k, m'.readWord (off (x + j)) = m.readWord (off (x + j))) :
    scanEntries m' off bad x k = scanEntries m off bad x k := by
  induction k generalizing x with
  | zero => rfl
  | succ k ih =>
    have hhead : m'.readWord (off x) = m.readWord (off x) := h 0 k.succ_pos
    have htail : scanEntries m' off bad (x + 1) k = scanEntries m off bad (x + 1) k :=
      ih fun j hj => by rw [Nat.add_right_comm]; exact h (j + 1) (Nat.succ_lt_succ hj)
    rw [scanEntries, scanEntries, hhead, htail]

/-- Two states of one part agree on every input that R177 names for the command `i`. -/
structure SameAnalyzerInputs (i : Instr) (s s' : State) : Prop where
  part : s'.part = s.part
  nLog : s'.regs.nLog = s.regs.nLog
  mBits : s'.regs.mBits = s.regs.mBits
  tblLen : s'.regs.tblLen = s.regs.tblLen
  sel : i = .runSel → s'.regs.sel = s.regs.sel
  table : LegalWidth s → ∀ x < 2 ^ opN s, s'.mem.readWord (sboxOff x) = s.mem.readWord (sboxOff x)

namespace SameAnalyzerInputs

variable {i : Instr} {s s' : State}

theorem opN_eq (h : SameAnalyzerInputs i s s') : opN s' = opN s := congrArg BitVec.toNat h.nLog

theorem opM_eq (h : SameAnalyzerInputs i s s') : opM s' = opM s := congrArg BitVec.toNat h.mBits

/-- Only RUNSEL's slots depend on SEL (R191). -/
theorem slotsOf_eq (h : SameAnalyzerInputs i s s') : slotsOf i s'.regs.sel = slotsOf i s.regs.sel := by
  cases i with
  | runSel => rw [h.sel rfl]
  | _ => rfl

theorem checkWidth_eq (h : SameAnalyzerInputs i s s') : checkWidth s' = checkWidth s := by
  rw [checkWidth, checkWidth, h.opN_eq, h.part]

/-- `CheckTable` answers the same: an illegal width ends it before the first entry, a legal one leaves only the table's
entries to be read (R151). -/
theorem checkTable_eq (h : SameAnalyzerInputs i s s') (ks : List Metric) : checkTable ks s' = checkTable ks s := by
  by_cases hw : LegalWidth s
  · have hscan : scanEntries s'.mem sboxOff (domainError (opM s)) 0 (2 ^ opN s) =
        scanEntries s.mem sboxOff (domainError (opM s)) 0 (2 ^ opN s) :=
      scanEntries_congr fun j hj => by simpa only [Nat.zero_add] using h.table hw j hj
    simp only [checkTable, h.checkWidth_eq, h.opN_eq, h.opM_eq, h.tblLen, h.part, hscan]
  · simp only [checkTable, h.checkWidth_eq, checkWidth_error hw, stopWith]

end SameAnalyzerInputs

/-! ### The rules -/

/-- Two outcomes of an analyzer's rule, at `s` and at `s'`: both write the results of one table to the slots `ks`, or both
stop for one reason. -/
def SameResults (ks : List Metric) (s s' : State) (r r' : Except CmdStop State) : Prop :=
  (∃ table, r = .ok (writeResults ks table s) ∧ r' = .ok (writeResults ks table s')) ∨
    ∃ stop, r = .error stop ∧ r' = .error stop

theorem analyzerRule_sameResults {i : Instr} {s s' : State} (h : SameAnalyzerInputs i s s') (ks : List Metric) :
    SameResults ks s s' (analyzerRule ks s) (analyzerRule ks s') := by
  rw [analyzerRule, analyzerRule, h.checkTable_eq]
  cases checkTable ks s with
  | ok table => exact .inl ⟨table, rfl, rfl⟩
  | error stop => exact .inr ⟨stop, rfl, rfl⟩

/-- RUNSEL (R175): reserved bits of SEL stop it, an empty selection writes no slot, and else the selected metrics share
the analyzers' rule. -/
theorem runSelRule_sameResults {s s' : State} (h : SameAnalyzerInputs .runSel s s') :
    SameResults (selectedMetrics s.regs.sel) s s' (runSelRule s) (runSelRule s') := by
  rw [runSelRule, runSelRule, h.sel rfl]
  split
  next => exact .inr ⟨_, rfl, rfl⟩
  next =>
    cases selectedMetrics s.regs.sel with
    | nil => exact .inl ⟨[], rfl, rfl⟩
    | cons k ks => exact analyzerRule_sameResults h (k :: ks)

/-- Every analyzer's rule goes the same way at both states. -/
theorem ruleOf_sameResults {i : Instr} {s s' : State} (hi : familyOf i = .analyzer) (h : SameAnalyzerInputs i s s') :
    SameResults (slotsOf i s.regs.sel) s s' (ruleOf i s) (ruleOf i s') := by
  cases i with
  | nl | sac | lap | dap | bicNl | bicSac => exact analyzerRule_sameResults h _
  | runSel => exact runSelRule_sameResults h
  | nop | bvBit | bvParity | bvHamming | wht | whtRaw | whtComp => cases hi

/-! ### The results -/

theorem endOk_writeResults_slots_get {ks : List Metric} {k : Metric} (hk : k ∈ ks) (table : List Nat) (s : State) :
    (endOk (writeResults ks table s)).slots.get k = metricSlot (opN s) (opM s) table k := by
  rw [endOk_slots, writeResults_slots, slots_get_setAll, if_pos hk]

theorem raiseError_errCode (i : Instr) (e : CmdError) (s : State) : (raiseError i e s).flags.errCode = e.code := by
  obtain ⟨-, -, hflags, -⟩ := raiseError_spec i e s
  rw [hflags]

theorem raiseError_slots_get {i : Instr} {k : Metric} {s : State} (hk : k ∈ slotsOf i s.regs.sel) (e : CmdError) :
    (raiseError i e s).slots.get k = Slot.zero := by
  obtain ⟨-, -, -, -, -, hslots⟩ := raiseError_spec i e s
  rw [hslots, if_pos hk]

/-- Settles O36: the rule goes the same way at both states; results are computed from the table, N_LOG and M_BITS, and an
error leaves its own code and slots of zeros. -/
theorem analyzerPurity : Obligations.AnalyzerPurity := by
  intro i s s' t hi hpart hn hm hlen hsel htable hexec
  have h : SameAnalyzerInputs i s s' := ⟨hpart, hn, hm, hlen, hsel, htable⟩
  rw [exec_eq_endCommand] at hexec ⊢
  obtain ⟨table, hr, hr'⟩ | ⟨stop, hr, hr'⟩ := ruleOf_sameResults hi h
  · rw [hr] at hexec
    cases hexec
    rw [hr']
    refine ⟨_, rfl, rfl, fun k hk => ?_⟩
    rw [endOk_writeResults_slots_get hk, endOk_writeResults_slots_get hk, h.opN_eq, h.opM_eq]
  · rw [hr] at hexec
    rw [hr']
    cases stop with
    | unwritten off => exact nomatch hexec
    | error e =>
      cases hexec
      refine ⟨_, rfl, ?_, fun k hk => ?_⟩
      · rw [raiseError_errCode, raiseError_errCode]
      · rw [raiseError_slots_get hk, raiseError_slots_get (h.slotsOf_eq ▸ hk)]

end Sys2Proof.Machine
end

section
/-! Laws of CTRL and of a run: a CTRL write in each of its cases beside an accepted START (R193 to R195), one step of
`Host.Core.run`, and the path from a START of NOP to its end step (R196). -/

namespace Sys2Proof.Machine

variable {s t : State} {v w : Word} {rest : List BusEvent}

/-! ### CTRL writes (R193, R194, R195) -/

theorem step_writeCtrl (hn : NextIsWrite s 0x008 v rest) :
    step s = .next (writeCtrl v { s with inbox := rest }) :=
  step_write_register (r := .ctrl) hn

/-- ABORT while IDLE does nothing, whatever the START bit is (R194). -/
theorem writeCtrl_abort_idle (hp : s.phase = .idle) (habort : v.getLsbD 1 = true) : writeCtrl v s = s := by
  simp only [writeCtrl, hp, habort, if_true]

/-- ABORT while BUSY aborts, whatever the START bit is (R193, R194). -/
theorem writeCtrl_abort_busy (hp : s.phase = .busy w) (habort : v.getLsbD 1 = true) :
    writeCtrl v s = abortCommand w s := by
  simp only [writeCtrl, hp, habort, if_true]

/-- START while BUSY is refused (R195). -/
theorem writeCtrl_start_busy (hp : s.phase = .busy w) (hstart : v.getLsbD 0 = true) (habort : v.getLsbD 1 = false) :
    writeCtrl v s = setAccErr s := by
  simp only [writeCtrl, hp, hstart, habort, Bool.false_eq_true, if_false, if_true]

/-- A write with neither bit does nothing in either phase (R194). -/
theorem writeCtrl_neither (hstart : v.getLsbD 0 = false) (habort : v.getLsbD 1 = false) : writeCtrl v s = s := by
  cases hp : s.phase <;> simp only [writeCtrl, hp, hstart, habort, Bool.false_eq_true, if_false]

/-- An ABORT leaves the end with ABORTED and no context, and ACCERR as it was (R193). -/
theorem abortCommand_ended (w : Word) (s : State) :
    EndedWithError .aborted 0 0 0 (abortCommand w s) ∧ (abortCommand w s).flags.accErr = s.flags.accErr := by
  obtain ⟨-, hphase, hflags, hctx, -, -⟩ := abortCommand_spec w s
  exact ⟨⟨hphase, by rw [hflags], by rw [hflags], by rw [hflags], hctx⟩, by rw [hflags]⟩

/-! ### Runs -/

/-- A run whose first step answers `t` goes on from `t`. -/
theorem run_succ_of_next (k : Nat) (h : step s = .next t) : Host.Core.run core (k + 1) s = Host.Core.run core k t := by
  have hcore : core.step s = .next t := h
  simp only [Host.Core.run, hcore]

/-! ### A run of NOP (R196) -/

theorem decodeCommand_encode_nop : decodeCommand (encode .nop) = .ok .nop := by
  obtain ⟨-, hreserved, hopcode, -⟩ := Laws.Encoding.nop
  exact decodeCommand_eq_ok.2 ⟨hreserved, hopcode⟩

/-- NOP owns no slot, so its START only begins the command (R191). -/
theorem startCommand_nop (hcmd : s.regs.cmd = encode .nop) : startCommand s = beginCommand (encode .nop) s := by
  have hslots (sel : Word) : slotsOfWord (encode .nop) sel = [] := by
    simp only [slotsOfWord, commandOf, decodeCommand_encode_nop, slotsOf]
  rw [startCommand, hcmd, hslots, unspecifySlots]

/-- The engine's turn while a NOP runs is the end step without error (R192, R196). -/
theorem engineTurn_nop (hp : s.phase = .busy (encode .nop)) : engineTurn s = .next (endOk s) :=
  engineTurn_command hp decodeCommand_encode_nop

/-- STATUS after an end without error, with ERR and ACCERR clear: DONE alone (R27). -/
theorem statusWord_endOk (herr : s.flags.err = false) (hacc : s.flags.accErr = false) :
    statusWord (endOk s) = 0x00000002 := by
  simp only [statusWord, isBusy, endOk_phase, endOk_flags, herr, hacc]
  decide

/-- A START of NOP and the engine's turn after it: STATUS reads DONE alone. -/
theorem run_start_nop (hp : s.phase = .idle) (hacc : s.flags.accErr = false) (hcmd : s.regs.cmd = encode .nop)
    (hin : s.inbox = [wr s.part .ctrl 1]) :
    ∃ t, Host.Core.run core 2 s = .next t ∧ statusWord t = 0x00000002 := by
  have hstart : step s = .next (beginCommand (encode .nop) { s with inbox := [] }) :=
    (step_start hp hin (by decide) (by decide)).trans (congrArg _ (startCommand_nop hcmd))
  have hend : step (beginCommand (encode .nop) { s with inbox := [] }) = .next (endOk _) :=
    (step_engine rfl).trans (engineTurn_nop rfl)
  have hrun : Host.Core.run core 2 s = .next (endOk (beginCommand (encode .nop) { s with inbox := [] })) :=
    (run_succ_of_next 1 hstart).trans (run_succ_of_next 0 hend)
  exact ⟨_, hrun, statusWord_endOk (s := beginCommand (encode .nop) { s with inbox := [] }) rfl hacc⟩

end Sys2Proof.Machine
end

section
/-! The statements of 43_control.md on NOP and on CTRL: NopOnlySetsDone, ControlWritesWithoutStart and
StartWhileBusyRefused. -/

namespace Sys2Proof.Machine

/-- Settles O8: NOP's rule answers the state itself, so only the end step acts; the word 0 is NOP's, so the reset state
and the state after the write of CMD both start a NOP; 0x100 has a reserved bit set. -/
theorem nopOnlySetsDone : Obligations.NopOnlySetsDone := by
  refine ⟨fun _ => rfl, fun p => ?_, fun s hp => ?_, fun s hp hacc hin => ?_⟩
  · exact run_start_nop (s := { State.resetFor p with inbox := [wr p .ctrl 1] }) rfl rfl rfl rfl
  · have hreserved : decodeCommand 0x00000100#32 = .error .reservedBits := by decide
    exact ⟨_, engineTurn_illegal hp hreserved, raiseBadOpcode_ended _ _⟩
  · have hidle : isBusy { s with inbox := [wr s.part .ctrl 1] } = false := by simp only [isBusy, hp]
    have hwrite : step s = .next (writeOperand .cmd (encode .nop) { s with inbox := [wr s.part .ctrl 1] }) :=
      (step_write_register (r := .cmd) hin).trans (congrArg _ (lockedWrite_idle hidle))
    obtain ⟨t, hrun, hstatus⟩ :=
      run_start_nop (s := writeOperand .cmd (encode .nop) { s with inbox := [wr s.part .ctrl 1] }) hp hacc rfl rfl
    exact ⟨t, (run_succ_of_next 2 hwrite).trans hrun, hstatus⟩

/-- Settles O40: ABORT is looked at before START, so the START bit does not matter beside it. -/
theorem controlWritesWithoutStart : Obligations.ControlWritesWithoutStart := by
  refine ⟨fun s v rest hp hn habort => ?_, fun s s' w v v' rest hp hs' hn _ habort _ habort' => ?_,
    fun s v rest hn hstart habort => ?_⟩
  · exact (step_writeCtrl hn).trans (congrArg _ (writeCtrl_abort_idle hp habort))
  · have hn' : NextIsWrite s' 0x008 v' rest := by subst hs'; rfl
    subst hs'
    obtain ⟨hend, hacc⟩ := abortCommand_ended w { s with inbox := rest }
    refine ⟨_, ?_, ?_, hend, hacc⟩
    · exact (step_writeCtrl hn).trans (congrArg _ (writeCtrl_abort_busy hp habort))
    · exact (step_writeCtrl hn').trans (congrArg _ (writeCtrl_abort_busy hp habort'))
  · exact (step_writeCtrl hn).trans (congrArg _ (writeCtrl_neither hstart habort))

/-- Settles O41: while BUSY a START without ABORT is an access refused with ACCERR. -/
theorem startWhileBusyRefused : Obligations.StartWhileBusyRefused := by
  intro s w v rest hp hn hstart habort
  exact (step_writeCtrl hn).trans (congrArg _ (writeCtrl_start_busy hp hstart habort))

end Sys2Proof.Machine
end

section
/-! Laws of the command errors (60_exceptions.md): how a rule that stops with an error ends its command, which rules stop
as `CheckTable` does, what each failing check of `CheckTable` answers (R151, R211), and which errors a command that
does not check the table can end with. -/

namespace Sys2Proof.Machine

variable {i : Instr} {s t : State} {e : CmdError} {stop : CmdStop} {ks : List Metric}
  {code : ErrCode} {exp act idx : Nat}

/-! ### The end of a command whose rule stops (R192, R210) -/

/-- The error that `stopWith` stops with. -/
def errorOf (code : ErrCode) (exp act idx : Nat) : CmdError :=
  { code := code, exp := BitVec.ofNat 32 exp, act := BitVec.ofNat 32 act, idx := BitVec.ofNat 32 idx }

theorem stopWith_eq_error {α : Type} :
    stopWith (α := α) code exp act idx = .error (.error e) ↔ e = errorOf code exp act idx := by
  simp [stopWith, errorOf, eq_comm]

/-- A rule that stops with an error ends its command with that error. -/
theorem exec_raiseError (hrule : ruleOf i s = stopWith code exp act idx) :
    exec i s = .next (raiseError i (errorOf code exp act idx) s) ∧
      CommandFrame s (raiseError i (errorOf code exp act idx) s) ∧
      EndedWithError code exp act idx (raiseError i (errorOf code exp act idx) s) := by
  obtain ⟨hframe, hphase, hflags, hctx, -, -⟩ := raiseError_spec i (errorOf code exp act idx) s
  exact ⟨exec_next.2 (.inr ⟨_, hrule, rfl⟩), hframe, hphase, by rw [hflags], by rw [hflags], by rw [hflags]; rfl, hctx⟩

/-- An error other than OVERFLOW leaves the outputs as R210 has them. -/
theorem exec_of_stopWith (hrule : ruleOf i s = stopWith code exp act idx) (hcode : code ≠ .overflow) :
    ∃ t, exec i s = .next t ∧ ErrorEnd i code exp act idx s t := by
  obtain ⟨hexec, hframe, hended⟩ := exec_raiseError hrule
  exact ⟨_, hexec, hframe, hended, raiseError_outputs i _ s hcode⟩

/-- After a command ERRCODE is 0, or ERRCODE and ERR_IDX are those of the error its rule stopped with (R192). -/
theorem errCode_cases_of_exec (h : exec i s = .next t) :
    t.flags.errCode = .none ∨ ∃ e, ruleOf i s = .error (.error e) ∧ t.flags.errCode = e.code ∧ t.errCtx.idx = e.idx := by
  obtain ⟨u, -, rfl⟩ | ⟨e, hrule, rfl⟩ := exec_next.1 h
  · exact .inl rfl
  · exact .inr ⟨e, hrule, raiseError_errCode i e s, rfl⟩

/-! ### The commands that check the table (R151, R175) -/

/-- A legal SEL that is not 0 selects a metric (R34). -/
theorem selectedMetrics_ne_nil {sel : Word} (hres : sel.extractLsb' 6 26 = 0) (hne : sel ≠ 0) :
    selectedMetrics sel ≠ [] := by
  intro hnil
  have hlow (k : Metric) : sel.getLsbD (slotIndex k) = false :=
    Bool.eq_false_iff.2 fun h => List.not_mem_nil (hnil ▸ (mem_selectedMetrics sel k).2 h)
  refine hne (BitVec.eq_of_getLsbD_eq fun j hj => ?_)
  show sel.getLsbD j = (0#32).getLsbD j
  rw [BitVec.getLsbD_zero]
  rcases Nat.lt_or_ge j 6 with h | h
  · interval_cases j
    · exact hlow .nl
    · exact hlow .sac
    · exact hlow .lap
    · exact hlow .dap
    · exact hlow .bicNl
    · exact hlow .bicSac
  · have hhigh := congrArg (·.getLsbD (j - 6)) hres
    simpa [show j - 6 < 26 by omega, show 6 + (j - 6) = j by omega] using hhigh

theorem analyzerRule_error : analyzerRule ks s = .error stop ↔ checkTable ks s = .error stop := by
  unfold analyzerRule
  split <;> simp_all

theorem whtCompRule_error : whtCompRule s = .error stop ↔ checkTable [] s = .error stop := by
  unfold whtCompRule
  split <;> simp_all

/-- RUNSEL with reserved bits of SEL set (R202). -/
theorem runSelRule_reserved (h : s.regs.sel.extractLsb' 6 26 ≠ 0) :
    runSelRule s = stopWith .param 0x3F s.regs.sel.toNat 2 := if_pos h

/-- RUNSEL with nothing selected (R175). -/
theorem runSelRule_empty (h : s.regs.sel = 0) : runSelRule s = .ok (clobberBuffer s) := by
  rw [runSelRule, h]
  rfl

/-- RUNSEL with a legal selection is the analyzers' rule for the selected metrics (R175). -/
theorem runSelRule_selected (hres : s.regs.sel.extractLsb' 6 26 = 0) (hne : s.regs.sel ≠ 0) :
    runSelRule s = analyzerRule (selectedMetrics s.regs.sel) s := by
  have hsel := selectedMetrics_ne_nil hres hne
  rw [runSelRule, if_neg (not_not.2 hres)]
  cases h : selectedMetrics s.regs.sel with
  | nil => exact absurd h hsel
  | cons k ks => rfl

/-- A command that checks the table stops exactly as `CheckTable` for its slots does. -/
theorem ruleOf_error_iff_checkTable (hi : ChecksTable i s.regs.sel) :
    ruleOf i s = .error stop ↔ checkTable (slotsOf i s.regs.sel) s = .error stop := by
  cases i with
  | nop | bvBit | bvParity | bvHamming | wht | whtRaw => exact hi.elim
  | whtComp => exact whtCompRule_error
  | nl | sac | lap | dap | bicNl | bicSac => exact analyzerRule_error
  | runSel =>
    obtain ⟨hres, hne⟩ := hi
    rw [ruleOf, runSelRule_selected hres hne]
    exact analyzerRule_error

/-- An error of `CheckTable` ends a command that runs it. -/
theorem exec_of_checkTable_stopWith (hi : ChecksTable i s.regs.sel)
    (h : checkTable (slotsOf i s.regs.sel) s = stopWith code exp act idx) (hcode : code ≠ .overflow) :
    ∃ t, exec i s = .next t ∧ ErrorEnd i code exp act idx s t :=
  exec_of_stopWith ((ruleOf_error_iff_checkTable hi).2 h) hcode

/-! ### The checks of `CheckTable`, each after those before it passed (R151, R211) -/

theorem checkTable_illegalWidth (hw : ¬LegalWidth s) :
    checkTable ks s = stopWith .param s.part.nmax (opN s) 0 := by
  simp only [checkTable, checkWidth_error hw, stopWith]

theorem checkTable_illegalOutputWidth (hw : LegalWidth s) (hm : ¬LegalOutputWidth s) :
    checkTable ks s = stopWith .param s.part.mmax (opM s) 1 := by
  simp only [checkTable, checkWidth_ok hw]
  exact if_pos hm

/-- The checks that are left when n and m are legal: the length, the degenerate metrics, the entries. -/
theorem checkTable_legalWidths (hw : LegalWidth s) (hm : LegalOutputWidth s) :
    checkTable ks s =
      if isPowerOfTwo s.regs.tblLen.toNat = false then stopWith .lenNotPow2 (2 ^ opN s) s.regs.tblLen.toNat 0
      else if s.regs.tblLen.toNat ≠ 2 ^ opN s then stopWith .lenMismatch (2 ^ opN s) s.regs.tblLen.toNat 0
      else if Metric.bicNl ∈ ks ∧ opN s < 2 then stopWith .degenerate 2 (opN s) 4
      else if Metric.bicSac ∈ ks ∧ 2 ^ opN s < 256 then stopWith .degenerate 256 (2 ^ opN s) 5
      else (scanEntries s.mem sboxOff (domainError (opM s)) 0 (2 ^ opN s)).map (List.map BitVec.toNat) := by
  have hm' : ¬¬(1 ≤ opM s ∧ opM s ≤ s.part.mmax) := not_not.2 hm
  simp only [checkTable, checkWidth_ok hw, if_neg hm']
  cases scanEntries s.mem sboxOff (domainError (opM s)) 0 (2 ^ opN s) <;> rfl

theorem checkTable_lenNotPow2 (hw : LegalWidth s) (hm : LegalOutputWidth s)
    (hlen : ∀ j, s.regs.tblLen.toNat ≠ 2 ^ j) :
    checkTable ks s = stopWith .lenNotPow2 (2 ^ opN s) s.regs.tblLen.toNat 0 := by
  have hpow : ¬isPowerOfTwo s.regs.tblLen.toNat = true := fun h =>
    not_exists.2 hlen ((isPowerOfTwo_iff s.regs.tblLen.isLt).1 h)
  rw [checkTable_legalWidths hw hm, if_pos (Bool.eq_false_iff.2 hpow)]

theorem checkTable_lenMismatch (hw : LegalWidth s) (hm : LegalOutputWidth s)
    (hpow : ∃ j, s.regs.tblLen.toNat = 2 ^ j) (hlen : s.regs.tblLen.toNat ≠ 2 ^ opN s) :
    checkTable ks s = stopWith .lenMismatch (2 ^ opN s) s.regs.tblLen.toNat 0 := by
  rw [← isPowerOfTwo_iff s.regs.tblLen.isLt] at hpow
  rw [checkTable_legalWidths hw hm, if_neg (by simp [hpow]), if_pos hlen]

/-- The checks that are left when the scalars are legal. -/
theorem checkTable_legalScalars (hs : LegalScalars s) :
    checkTable ks s =
      if Metric.bicNl ∈ ks ∧ opN s < 2 then stopWith .degenerate 2 (opN s) 4
      else if Metric.bicSac ∈ ks ∧ 2 ^ opN s < 256 then stopWith .degenerate 256 (2 ^ opN s) 5
      else (scanEntries s.mem sboxOff (domainError (opM s)) 0 (2 ^ opN s)).map (List.map BitVec.toNat) := by
  obtain ⟨hw, hm, hlen⟩ := hs
  have hpow := (isPowerOfTwo_iff s.regs.tblLen.isLt).2 ⟨_, hlen⟩
  rw [checkTable_legalWidths hw hm, if_neg (by simp [hpow]), if_neg (not_not.2 hlen)]

/-- With no degenerate metric `CheckTable` stops where the scan of the entries does. -/
theorem checkTable_scan_error (hs : LegalScalars s) (hk : NotDegenerate ks (opN s))
    (hscan : scanEntries s.mem sboxOff (domainError (opM s)) 0 (2 ^ opN s) = .error stop) :
    checkTable ks s = .error stop := by
  obtain ⟨hnl, hsac⟩ := hk
  rw [checkTable_legalScalars hs, if_neg fun h => absurd (hnl h.1) (by omega),
    if_neg fun h => absurd (hsac h.1) (by omega), hscan]
  rfl

/-! ### The entry scans -/

theorem domainError_eq_none {m x : Nat} {w : Word} : domainError m x w = none ↔ w.toNat < 2 ^ m := by
  simp [domainError]

/-- The error of an entry outside the domain (R205). -/
theorem domainError_eq_some {m x : Nat} {w : Word} (h : 2 ^ m ≤ w.toNat) :
    domainError m x w = some (errorOf .domain (2 ^ m - 1) w.toNat x) := by
  simp [domainError, errorOf, h]

/-- The error of an entry that is no bit (R207). -/
theorem booleanError_eq_some {x : Nat} {w : Word} (h0 : w ≠ 0) (h1 : w ≠ 1) :
    booleanError x w = some (errorOf .notBoolean 1 w.toNat x) := by
  rw [booleanError, if_neg (not_or.2 ⟨h0, h1⟩), errorOf, BitVec.ofNat_toNat, BitVec.setWidth_eq]
  rfl

/-- A scan from entry 0 stops with the error of the first entry that is objected to (R211). -/
theorem scanEntries_first_error {m : Memory} {off : Nat → Nat} {bad : Nat → Word → Option CmdError} {x k : Nat}
    {w : Word} (hx : x < k) (hbefore : ∀ y < x, ∃ v, m.readWord (off y) = some v ∧ bad y v = none)
    (hread : m.readWord (off x) = some w) (hbad : bad x w = some e) :
    scanEntries m off bad 0 k = .error (.error e) := by
  obtain ⟨-, herror⟩ := scanEntries_stop (x := 0) hx (by simpa only [Nat.zero_add] using hbefore)
  rw [Nat.zero_add] at herror
  exact herror w e hread hbad

/-- A scan answers no error but those of its check. -/
theorem scanEntries_error {m : Memory} {off : Nat → Nat} {bad : Nat → Word → Option CmdError} {x k : Nat}
    (h : scanEntries m off bad x k = .error (.error e)) : ∃ y w, bad y w = some e := by
  induction k generalizing x with
  | zero => exact nomatch h
  | succ k ih =>
    rw [scanEntries] at h
    split at h
    next => exact nomatch h
    next w _ =>
      split at h
      next hbad => cases h; exact ⟨x, w, hbad⟩
      next =>
        split at h
        next => exact nomatch h
        next hscan => cases h; exact ih hscan

/-! ### Which errors a command can end with (R200, R202, R207, R208) -/

theorem code_of_stopWith {α : Type} (h : stopWith (α := α) code exp act idx = .error (.error e)) : e.code = code := by
  rw [stopWith_eq_error.1 h, errorOf]

/-- `CheckTable` never answers OVERFLOW (R151). -/
theorem checkTable_error_code_ne_overflow (h : checkTable ks s = .error (.error e)) : e.code ≠ .overflow := by
  by_cases hw : LegalWidth s
  · by_cases hm : LegalOutputWidth s
    · rw [checkTable_legalWidths hw hm] at h
      split_ifs at h
      iterate 4 simp [code_of_stopWith h]
      cases hscan : scanEntries s.mem sboxOff (domainError (opM s)) 0 (2 ^ opN s) with
      | ok ws => rw [hscan] at h; exact nomatch h
      | error stop =>
        rw [hscan] at h
        cases h
        obtain ⟨y, w, hbad⟩ := scanEntries_error hscan
        simp [domainError_code hbad]
    · rw [checkTable_illegalOutputWidth hw hm] at h
      simp [code_of_stopWith h]
  · rw [checkTable_illegalWidth hw] at h
    simp [code_of_stopWith h]

theorem whtRule_illegalWidth (hw : ¬LegalWidth s) : whtRule s = stopWith .param s.part.nmax (opN s) 0 := by
  simp only [whtRule, checkWidth_error hw, stopWith]

theorem whtRawRule_illegalWidth (hw : ¬LegalWidth s) : whtRawRule s = stopWith .param s.part.nmax (opN s) 0 := by
  simp only [whtRawRule, checkWidth_error hw, stopWith]

/-- WHT stops where the scan of its entries does (R134). -/
theorem whtRule_error (hw : LegalWidth s) :
    whtRule s = .error stop ↔ scanEntries s.mem bufOff booleanError 0 (2 ^ opN s) = .error stop := by
  simp only [whtRule, checkWidth_ok hw]
  split <;> simp_all

/-- WHT_RAW stops where the scan of its entries does, and at the stage that overflows (R135). -/
theorem whtRawRule_error (hw : LegalWidth s) :
    whtRawRule s = .error stop ↔
      scanEntries s.mem bufOff (fun _ _ => none) 0 (2 ^ opN s) = .error stop ∨
        ∃ ws j, scanEntries s.mem bufOff (fun _ _ => none) 0 (2 ^ opN s) = .ok ws ∧
          checkedStages (opN s) 0 (opN s) (ws.map BitVec.toInt) = .error j ∧
          stopWith (α := State) .overflow 0 0 j = .error stop := by
  simp only [whtRawRule, checkWidth_ok hw]
  split
  next hscan => simp [hscan]
  next hscan => split <;> simp_all

/-- A command that does not check the table ends with PARAM on n or on SEL, NOT_BOOLEAN or, WHT_RAW alone, OVERFLOW. -/
theorem ruleOf_error_cases (hi : ¬ChecksTable i s.regs.sel) (h : ruleOf i s = .error (.error e)) :
    (e.code = .param ∧ (e.idx = 0 ∨ e.idx = 2)) ∨ e.code = .notBoolean ∨ (i = .whtRaw ∧ e.code = .overflow) := by
  cases i with
  | nop | bvBit | bvParity | bvHamming => exact nomatch h
  | whtComp | nl | sac | lap | dap | bicNl | bicSac => exact absurd trivial hi
  | wht =>
    by_cases hw : LegalWidth s
    · obtain ⟨y, w, hbad⟩ := scanEntries_error ((whtRule_error hw).1 h)
      exact .inr (.inl (booleanError_code hbad))
    · rw [ruleOf, whtRule_illegalWidth hw, stopWith_eq_error] at h
      simp [h, errorOf]
  | whtRaw =>
    by_cases hw : LegalWidth s
    · obtain hscan | ⟨ws, j, -, -, hover⟩ := (whtRawRule_error hw).1 h
      · obtain ⟨y, w, hbad⟩ := scanEntries_error hscan
        exact nomatch hbad
      · exact .inr (.inr ⟨rfl, code_of_stopWith hover⟩)
    · rw [ruleOf, whtRawRule_illegalWidth hw, stopWith_eq_error] at h
      simp [h, errorOf]
  | runSel =>
    by_cases hres : s.regs.sel.extractLsb' 6 26 = 0
    · have hsel : s.regs.sel = 0 := by_contra fun hne => hi ⟨hres, hne⟩
      rw [ruleOf, runSelRule_empty hsel] at h
      exact nomatch h
    · rw [ruleOf, runSelRule_reserved hres, stopWith_eq_error] at h
      simp [h, errorOf]

end Sys2Proof.Machine
end

section
/-! The statements of 60_exceptions.md on the errors of the checks: NotBooleanError, ParamErrors, LengthErrors,
DegenerateErrors, DomainError. -/

namespace Sys2Proof.Machine

/-- Settles O20: the scan of the buffer stops at the first entry that is no bit. -/
theorem notBooleanError : Obligations.NotBooleanError := by
  intro s x w hw hx hbefore hread h0 h1
  have hpass : ∀ y < x, ∃ v, s.mem.readWord (bufOff y) = some v ∧ booleanError y v = none := fun y hy =>
    (hbefore y hy).elim (fun h => ⟨0, h, booleanError_eq_none.2 (.inl rfl)⟩)
      fun h => ⟨1, h, booleanError_eq_none.2 (.inr rfl)⟩
  have hscan := scanEntries_first_error hx hpass hread (booleanError_eq_some h0 h1)
  exact exec_of_stopWith (i := .wht) ((whtRule_error hw).2 hscan) (by decide)

/-- A command that checks the width ends with PARAM on an illegal one (R202). -/
theorem ruleOf_illegalWidth {i : Instr} {s : State} (hi : ChecksWidth i s.regs.sel) (hw : ¬LegalWidth s) :
    ruleOf i s = stopWith .param s.part.nmax (opN s) 0 := by
  obtain rfl | rfl | hi := hi
  · exact whtRule_illegalWidth hw
  · exact whtRawRule_illegalWidth hw
  · exact (ruleOf_error_iff_checkTable hi).2 (checkTable_illegalWidth hw)

/-- Only a command that checks the table ends with PARAM on m (R202). -/
theorem checksTable_of_param_one {i : Instr} {s t : State} (h : exec i s = .next t) (hcode : t.flags.errCode = .param)
    (hidx : t.errCtx.idx = 1) : ChecksTable i s.regs.sel := by
  by_contra hi
  obtain hnone | ⟨e, hrule, hcode', hidx'⟩ := errCode_cases_of_exec h
  · rw [hnone] at hcode; exact nomatch hcode
  · rw [hcode] at hcode'
    rw [hidx] at hidx'
    obtain ⟨-, h | h⟩ | h | ⟨-, h⟩ := ruleOf_error_cases hi hrule
    · exact absurd (hidx'.trans h) (by decide)
    · exact absurd (hidx'.trans h) (by decide)
    · exact nomatch hcode'.trans h
    · exact nomatch hcode'.trans h

/-- Settles O21: n is the first check of every command that makes it, m the second of `CheckTable`, and SEL's reserved
bits the first of RUNSEL. -/
theorem paramErrors : Obligations.ParamErrors := by
  refine ⟨fun i s hi hw => ?_, fun i s hi hw hm => ?_, fun i s t => checksTable_of_param_one, fun s hres => ?_⟩
  · exact exec_of_stopWith (ruleOf_illegalWidth hi hw) (by decide)
  · exact exec_of_checkTable_stopWith hi (checkTable_illegalOutputWidth hw hm) (by decide)
  · exact exec_of_stopWith (i := .runSel) (runSelRule_reserved hres) (by decide)

/-- Settles O22: with legal n and m the length is checked next, first for being a power of two. -/
theorem lengthErrors : Obligations.LengthErrors := by
  refine fun i s hi hw hm => ⟨fun hlen => ?_, fun hpow hlen => ?_⟩
  · exact exec_of_checkTable_stopWith hi (checkTable_lenNotPow2 hw hm hlen) (by decide)
  · exact exec_of_checkTable_stopWith hi (checkTable_lenMismatch hw hm hpow hlen) (by decide)

/-- Settles O23: with legal scalars BIC-NL is checked next, then BIC-SAC. -/
theorem degenerateErrors : Obligations.DegenerateErrors := by
  refine fun i s hi hs => ⟨fun hk hn => ?_, fun hnl hk hn => ?_⟩
  · refine exec_of_checkTable_stopWith hi ?_ (by decide)
    rw [checkTable_legalScalars hs, if_pos ⟨hk, hn⟩]
  · refine exec_of_checkTable_stopWith hi ?_ (by decide)
    rw [checkTable_legalScalars hs, if_neg hnl, if_pos ⟨hk, hn⟩]

/-- Settles O24: the scan of the table stops at the first entry outside the domain. (The name `domainError` is that of the
check of one entry.) -/
theorem domainErrors : Obligations.DomainError := by
  intro i s x w hi hs hk hx hbefore hread hdom
  have hpass : ∀ y < x, ∃ v, s.mem.readWord (sboxOff y) = some v ∧ domainError (opM s) y v = none := by
    intro y hy
    obtain ⟨v, hv, hlt⟩ := hbefore y hy
    exact ⟨v, hv, domainError_eq_none.2 hlt⟩
  have hscan := scanEntries_first_error hx hpass hread (domainError_eq_some hdom)
  exact exec_of_checkTable_stopWith hi (checkTable_scan_error hs hk hscan) (by decide)

end Sys2Proof.Machine
end

section
/-! The statement of 60_exceptions.md on OVERFLOW (R208): WhtRawOverflow. The checked stages stop at the lowest stage that
leaves the signed range, and no other rule answers OVERFLOW. -/

namespace Sys2Proof.Machine

/-- The entries after k stages are the closed form on blocks of size 2^k (R130). -/
theorem mem_stagesUpTo_listBelow {n k : Nat} (hn : n ≤ 32) (hk : k ≤ n) {F : Nat → Int} {v : Int} :
    v ∈ stagesUpTo n k (listBelow n F) ↔ ∃ x < 2 ^ n, walshPartial k F x = v := by
  have hlen := stagesUpTo_length hk (listBelow_length n F)
  have hentry {x : Nat} (hx : x < 2 ^ n) : (stagesUpTo n k (listBelow n F))[x]'(hlen ▸ hx) = walshPartial k F x := by
    rw [← List.getD_eq_getElem _ 0, stagesUpTo_getD hn hk (listBelow_length n F) hx]
    exact walshPartial_congr hk hx fun y hy => listBelow_getD hy F
  constructor
  · intro hv
    obtain ⟨x, hx, rfl⟩ := List.mem_iff_getElem.1 hv
    exact ⟨x, hlen ▸ hx, (hentry (hlen ▸ hx)).symm⟩
  · rintro ⟨x, hx, rfl⟩
    exact hentry hx ▸ List.getElem_mem _

/-- A checked stage that stays in the signed range goes on with the next one (R135). -/
theorem checkedStages_succ_of_fits {n i c : Nat} {l : List Int}
    (h : ∀ v ∈ stagesUpTo n (i + 1) l, fitsSigned v = true) :
    checkedStages n i (c + 1) (stagesUpTo n i l) = checkedStages n (i + 1) c (stagesUpTo n (i + 1) l) := by
  rw [checkedStages, ← stagesUpTo_succ]
  exact if_pos (List.all_eq_true.2 h)

/-- A checked stage that leaves the signed range is the answer (R135). -/
theorem checkedStages_succ_of_not_fits {n i c : Nat} {l : List Int}
    (h : ∃ v ∈ stagesUpTo n (i + 1) l, ¬fitsSigned v = true) :
    checkedStages n i (c + 1) (stagesUpTo n i l) = .error i := by
  obtain ⟨v, hv, hbad⟩ := h
  rw [checkedStages, ← stagesUpTo_succ]
  exact if_neg fun hall => hbad (List.all_eq_true.1 hall v hv)

/-- The checked stages from i on stop at stage i + k when the stages before it stay in the signed range and it does not
(R135, R208). -/
theorem checkedStages_overflow {n i k c : Nat} {l : List Int} (hk : k < c)
    (hfits : ∀ j, i < j → j ≤ i + k → ∀ v ∈ stagesUpTo n j l, fitsSigned v = true)
    (hover : ∃ v ∈ stagesUpTo n (i + k + 1) l, ¬fitsSigned v = true) :
    checkedStages n i c (stagesUpTo n i l) = .error (i + k) := by
  obtain ⟨c, rfl⟩ : ∃ c', c = c' + 1 := ⟨c - 1, by omega⟩
  induction k generalizing i c with
  | zero => exact checkedStages_succ_of_not_fits hover
  | succ k ih =>
    rw [checkedStages_succ_of_fits (hfits (i + 1) (by omega) (by omega))]
    obtain ⟨c, rfl⟩ : ∃ c', c = c' + 1 := ⟨c - 1, by omega⟩
    have hnext : i + 1 + k = i + (k + 1) := by omega
    rw [← hnext]
    exact ih (fun j hj hle => hfits j (by omega) (by omega)) (hnext ▸ hover) c (by omega)

/-- WHT_RAW on a buffer whose lowest stage outside the signed range is stage i (R135, R208). -/
theorem whtRawRule_overflow {s : State} {F : Nat → Int} {i x : Nat} (hw : LegalWidth s) (hn : opN s ≤ 32)
    (hF : BufHolds s F) (hi : i < opN s) (hx : x < 2 ^ opN s)
    (hrange : ∀ k, 1 ≤ k → k ≤ i → ∀ y < 2 ^ opN s, InSignedRange (walshPartial k F y))
    (hover : ¬InSignedRange (walshPartial (i + 1) F x)) : whtRawRule s = stopWith .overflow 0 0 i := by
  obtain ⟨ws, hscan, hws⟩ := exists_scanEntries (bad := fun _ _ => none) (value := BitVec.toInt) (F := F)
    fun y hy => by
      obtain ⟨w, hread, hval⟩ := hF y hy
      exact ⟨w, hread, rfl, hval⟩
  refine (whtRawRule_error hw).2 (.inr ⟨ws, i, hscan, ?_, rfl⟩)
  have hstages := checkedStages_overflow (n := opN s) (i := 0) (l := listBelow (opN s) F) hi
    (fun j hj hk v hv => by
      obtain ⟨y, hy, rfl⟩ := (mem_stagesUpTo_listBelow hn (by omega)).1 hv
      exact fitsSigned_iff.2 (hrange j hj (by omega) y hy))
    ⟨walshPartial (i + 1) F x, (mem_stagesUpTo_listBelow hn (by omega)).2 ⟨x, hx, by rw [Nat.zero_add]⟩,
      fun h => hover (fitsSigned_iff.1 h)⟩
  rwa [Nat.zero_add, ← hws] at hstages

/-- No command but WHT_RAW answers OVERFLOW (R208). -/
theorem ruleOf_error_code_ne_overflow {i : Instr} {s : State} {e : CmdError} (hi : i ≠ .whtRaw)
    (h : ruleOf i s = .error (.error e)) : e.code ≠ .overflow := by
  by_cases hc : ChecksTable i s.regs.sel
  · exact checkTable_error_code_ne_overflow ((ruleOf_error_iff_checkTable hc).1 h)
  · obtain ⟨hcode, -⟩ | hcode | ⟨hraw, -⟩ := ruleOf_error_cases hc h
    · simp [hcode]
    · simp [hcode]
    · exact absurd hraw hi

/-- OVERFLOW of WHT_RAW, with the outputs it leaves (R208, R210). -/
theorem exec_whtRaw_overflow {s : State} {i : Nat} (hw : LegalWidth s)
    (hrule : whtRawRule s = stopWith .overflow 0 0 i) :
    ∃ t, exec .whtRaw s = .next t ∧ CommandFrame s t ∧ EndedWithError .overflow 0 0 i t ∧ t.whtMaxAbs = 0 ∧
      t.slots = s.slots ∧ t.bvResult = s.bvResult ∧ BufWritten (2 ^ opN s) t ∧
      SameMemoryButBuf (2 ^ opN s) s t := by
  obtain ⟨hexec, hframe, hended⟩ := exec_raiseError (i := .whtRaw) hrule
  obtain ⟨-, -, -, -, hbv, hslots⟩ := raiseError_spec .whtRaw (errorOf .overflow 0 0 i) s
  obtain ⟨hmax, hbuf, hmem⟩ := raiseError_overflow (errorOf .overflow 0 0 i) s rfl
  rw [bufSpan_of_legal hw] at hbuf hmem
  exact ⟨_, hexec, hframe, hended, hmax, slots_ext fun k => hslots k, hbv, hbuf, hmem⟩

/-- Settles O15: the checked stages stop at the first stage outside the signed range; OVERFLOW is no error of a check. -/
theorem whtRawOverflow : Obligations.WhtRawOverflow := by
  refine ⟨fun s F i x hp hw hF hi hx hrange hover => ?_, fun i s t hi h hcode => ?_⟩
  · have hn := opN_le_of_legal hp hw
    exact exec_whtRaw_overflow hw (whtRawRule_overflow hw (by omega) hF hi hx hrange hover)
  · obtain hnone | ⟨e, hrule, he, -⟩ := errCode_cases_of_exec h
    · rw [hnone] at hcode
      exact nomatch hcode
    · exact ruleOf_error_code_ne_overflow hi hrule (he.symm.trans hcode)

end Sys2Proof.Machine
end

section
/-! Reset and hazards (70_reset_and_hazards.md): a reset event discards whatever the engine is doing. -/

namespace Sys2Proof.Machine

/-- Settles O55: `step_reset` asks nothing of the phase, and `resetMachine` keeps of the state only the part, the draws, the
events after the reset and the replies. -/
theorem resetDiscardsTheCommand : Obligations.ResetDiscardsTheCommand := fun s rest hreset =>
  ⟨s.draws, rest, s.replies, calc
    step s = .next (resetMachine { s with inbox := rest }) := step_reset hreset
    _ = .next { State.resetFor s.part with draws := s.draws, inbox := rest, replies := s.replies } := rfl⟩

end Sys2Proof.Machine
end

section
/-! The inverse of the decoder (30_encoding.md, R76, R100, R103): a word decodes to a command exactly when it is that
command's word, and four bytes are a word's bytes exactly when they make that word. -/

namespace Sys2Proof.Machine

/-- A command word is its two fields (R100). -/
theorem opcodeField_append (w : Word) : w.extractLsb' 8 24 ++ w.extractLsb' 0 8 = w :=
  (BitVec.extractLsb'_append_extractLsb'_eq_extractLsb' (start₁ := 0) rfl).trans BitVec.extractLsb'_eq_self

/-- The words of the decoder and of the encoder are the same (R100, R101). -/
theorem decodeCommand_eq_ok_iff_encode {w : Word} {i : Instr} : decodeCommand w = .ok i ↔ w = encode i := by
  rw [decodeCommand_eq_ok]
  constructor
  · rintro ⟨hres, hop⟩
    rw [← opcodeField_append w, hres, hop]
    rfl
  · rintro rfl
    cases i <;> decide

/-- Four bytes make a word exactly when they are its bytes in order (R76). -/
theorem wordOfBytes_eq_iff {b0 b1 b2 b3 : Byte} {w : Word} :
    wordOfBytes b0 b1 b2 b3 = w ↔ [b0, b1, b2, b3] = bytesOfWord w := by
  constructor
  · rintro rfl
    exact (bytesOfWord_wordOfBytes b0 b1 b2 b3).symm
  · intro h
    simp only [bytesOfWord, List.cons.injEq] at h
    obtain ⟨rfl, rfl, rfl, rfl, -⟩ := h
    exact wordOfBytes_bytes w

/-- Four or more bytes decode as their word does, and the others are left (R103). -/
theorem decodeBytes_cons_eq_ok {b0 b1 b2 b3 : Byte} {tail rest : List Byte} {i : Instr} :
    decodeBytes (b0 :: b1 :: b2 :: b3 :: tail) = .ok (i, rest) ↔
      decodeCommand (wordOfBytes b0 b1 b2 b3) = .ok i ∧ tail = rest := by
  rw [decodeBytes]
  cases decodeCommand (wordOfBytes b0 b1 b2 b3) <;> simp

/-- Settles O3: fewer than four bytes are neither decoded nor an encoding; four are a command's bytes exactly when their
word is its word. -/
theorem decodeIsInverseOfEncode : Obligations.DecodeIsInverseOfEncode := by
  intro bytes rest i _
  match bytes with
  | [] | [_] | [_, _] | [_, _, _] =>
    exact iff_of_false nofun fun h => by simpa [encodeBytes, bytesOfWord] using congrArg List.length h
  | b0 :: b1 :: b2 :: b3 :: tail =>
    rw [decodeBytes_cons_eq_ok, decodeCommand_eq_ok_iff_encode, wordOfBytes_eq_iff, ← encodeBytes]
    constructor
    · rintro ⟨h, rfl⟩
      rw [← h]
      rfl
    · exact fun h => List.append_inj (s₁ := [b0, b1, b2, b3]) h rfl

end Sys2Proof.Machine
end

section
/-! Laws of what a command's end leaves in memory and in the slots, whichever way it ends (by its rule, with an error,
by ABORT): words written from BUF[0] on, and slots of the invariant's form. They serve the invariant and the statements
about the metrics. -/

namespace Sys2Proof.Machine

variable {i : Instr} {s t u : State} {ks : List Metric} {k : Metric} {table : List Nat} {n m : Nat}

/-! ### What is running -/

theorem runningSlots_idle (hp : s.phase = .idle) : runningSlots s = [] := by
  rw [runningSlots, runningCommand, hp]

theorem runningSlots_busy {w : Word} (hp : s.phase = .busy w) : runningSlots s = slotsOfWord w s.regs.sel := by
  rw [runningSlots, runningCommand, hp]
  rfl

theorem isBusy_idle (hp : s.phase = .idle) : isBusy s = false := by rw [isBusy, hp]

theorem isBusy_busy {w : Word} (hp : s.phase = .busy w) : isBusy s = true := by rw [isBusy, hp]

theorem isBusy_iff : isBusy s = true ↔ ∃ w, s.phase = .busy w := by
  cases hp : s.phase with
  | idle => simp [isBusy_idle hp]
  | busy w => simp [isBusy_busy hp]

theorem phase_of_isBusy_false (h : isBusy s = false) : s.phase = .idle := by
  cases hp : s.phase with
  | idle => rfl
  | busy w => rw [isBusy_busy hp] at h; exact nomatch h

theorem slotsOfWord_command {w sel : Word} (hd : decodeCommand w = .ok i) : slotsOfWord w sel = slotsOf i sel := by
  simp only [slotsOfWord, commandOf, hd]

/-! ### ABORT by family (R193) -/

theorem abortCommand_command {w : Word} (hd : decodeCommand w = .ok i) :
    abortCommand w s = endError .aborted 0 0 0 (abortOutputs i s) := by
  simp only [abortCommand, commandOf, hd]

theorem abortCommand_illegal {w : Word} {r : DecodeReject} (hd : decodeCommand w = .error r) :
    abortCommand w s = endError .aborted 0 0 0 s := by
  simp only [abortCommand, commandOf, hd]

theorem abortOutputs_control (hf : familyOf i = .control) : abortOutputs i s = s := by
  rw [abortOutputs, hf]

theorem abortOutputs_bitVector (hf : familyOf i = .bitVector) : abortOutputs i s = setBvResult 0 s := by
  rw [abortOutputs, hf]

theorem abortOutputs_transform (hf : familyOf i = .transform) :
    abortOutputs i s = setMaxAbs 0 (unspecifyBuf (bufSpan s) s) := by
  rw [abortOutputs, hf]

theorem abortOutputs_analyzer (hf : familyOf i = .analyzer) :
    abortOutputs i s = clobberBuffer (zeroSlots (slotsOf i s.regs.sel) s) := by
  rw [abortOutputs, hf]

/-! ### Memory -/

/-- `t` has the memory of `s`, but for words written from BUF[0] on. -/
def WritesOnlyBuf (s t : State) : Prop :=
  t.mem = s.mem ∨ ∃ ws : List Word, ws.length ≤ 2 ^ s.part.nmax ∧ t.mem = s.mem.writeWords (bufOff 0) ws

theorem writesOnlyBuf_freeWords {k : Nat} (hk : k ≤ 2 ^ s.part.nmax)
    (hu : u.mem = s.mem.writeWords (bufOff 0) (freeWords k t)) : WritesOnlyBuf s u :=
  .inr ⟨freeWords k t, by rwa [freeWords_length], hu⟩

theorem writesOnlyBuf_writeResults (ks : List Metric) (table : List Nat) (s : State) :
    WritesOnlyBuf s (writeResults ks table s) :=
  writesOnlyBuf_freeWords le_rfl (writeResults_mem s ks table)

theorem writesOnlyBuf_spectrum {l : List Int} (hw : LegalWidth s) (hl : l.length = 2 ^ opN s) :
    WritesOnlyBuf s (writeSpectrum l s) :=
  .inr ⟨l.map patternOf, by rw [List.length_map, hl]; exact Nat.pow_le_pow_right two_pos hw.2, rfl⟩

/-- A command that answers without error writes memory in the buffer alone (R104). -/
theorem writesOnlyBuf_ruleOf (h : ruleOf i s = .ok u) : WritesOnlyBuf s u := by
  cases i with
  | nop =>
    simp only [ruleOf, Except.ok.injEq] at h
    exact .inl (congrArg State.mem h.symm)
  | bvBit | bvParity | bvHamming =>
    simp only [ruleOf, Except.ok.injEq] at h
    rw [← h]
    exact .inl (setBvResult_mem s _)
  | wht =>
    obtain ⟨hw, ws, hws, rfl⟩ := whtRule_ok.1 h
    exact writesOnlyBuf_spectrum hw (butterfly_length (by simpa using (scanEntries_ok.1 hws).1))
  | whtRaw =>
    obtain ⟨hw, ws, l, hws, hl, rfl⟩ := whtRawRule_ok.1 h
    refine writesOnlyBuf_spectrum hw ?_
    rw [checkedStages_butterfly hl]
    exact butterfly_length (by simpa using (scanEntries_ok.1 hws).1)
  | whtComp =>
    obtain ⟨table, ht, rfl⟩ := whtCompRule_ok.1 h
    obtain ⟨⟨hw, -, -⟩, -, hlen, -⟩ := checkTable_ok.1 ht
    exact writesOnlyBuf_spectrum hw (butterfly_length (by simpa [component] using hlen))
  | nl | sac | lap | dap | bicNl | bicSac =>
    obtain ⟨table, -, rfl⟩ := analyzerRule_ok.1 h
    exact writesOnlyBuf_writeResults _ table s
  | runSel =>
    obtain ⟨-, ⟨-, rfl⟩ | ⟨-, ha⟩⟩ := runSelRule_ok.1 h
    · exact writesOnlyBuf_freeWords le_rfl (clobberBuffer_mem s)
    · obtain ⟨table, -, rfl⟩ := analyzerRule_ok.1 ha
      exact writesOnlyBuf_writeResults _ table s

/-- So does an error (R210). -/
theorem writesOnlyBuf_raiseError (i : Instr) (e : CmdError) (s : State) : WritesOnlyBuf s (raiseError i e s) := by
  unfold raiseError errorOutputs
  cases familyOf i with
  | control | bitVector => exact .inl rfl
  | transform =>
    by_cases hc : e.code = .overflow
    · exact writesOnlyBuf_freeWords (t := s) (bufSpan_le s) (by simp [hc])
    · exact .inl (by simp)
  | analyzer => exact writesOnlyBuf_freeWords le_rfl (clobberBuffer_mem (zeroSlots _ s))

/-- So does an ABORT (R193). -/
theorem writesOnlyBuf_abortCommand (w : Word) (s : State) : WritesOnlyBuf s (abortCommand w s) := by
  cases hd : decodeCommand w with
  | error r => rw [abortCommand_illegal hd]; exact .inl rfl
  | ok i =>
    rw [abortCommand_command hd]
    cases hf : familyOf i with
    | control => rw [abortOutputs_control hf]; exact .inl rfl
    | bitVector => rw [abortOutputs_bitVector hf]; exact .inl rfl
    | transform =>
      rw [abortOutputs_transform hf]
      exact writesOnlyBuf_freeWords (bufSpan_le s) (unspecifyBuf_mem s _)
    | analyzer =>
      rw [abortOutputs_analyzer hf]
      exact writesOnlyBuf_freeWords le_rfl (clobberBuffer_mem (zeroSlots _ s))

/-! ### The slots of an analyzer -/

/-- An analyzer that answers without error wrote the results of a legal table to its slots, or had none (R150, R175). -/
theorem ruleOf_analyzer_ok (hi : familyOf i = .analyzer) (h : ruleOf i s = .ok u) :
    (slotsOf i s.regs.sel = [] ∧ u = clobberBuffer s) ∨ ∃ table, checkTable (slotsOf i s.regs.sel) s = .ok table ∧
      u = writeResults (slotsOf i s.regs.sel) table s := by
  cases i with
  | nl | sac | lap | dap | bicNl | bicSac => exact .inr (analyzerRule_ok.1 h)
  | runSel =>
    obtain ⟨-, hempty | ⟨-, ha⟩⟩ := runSelRule_ok.1 h
    · exact .inl hempty
    · exact .inr (analyzerRule_ok.1 ha)
  | nop | bvBit | bvParity | bvHamming | wht | whtRaw | whtComp => cases hi

/-- Only analyzers own slots (R191). -/
theorem familyOf_of_mem_slotsOf {sel : Word} (hk : k ∈ slotsOf i sel) : familyOf i = .analyzer := by
  cases i with
  | nop | bvBit | bvParity | bvHamming | wht | whtRaw | whtComp => exact absurd hk List.not_mem_nil
  | _ => rfl

/-- A slot after its command ended without error (R154). -/
theorem ruleOf_ok_slot (h : ruleOf i s = .ok u) (hk : k ∈ slotsOf i s.regs.sel) :
    ∃ table, checkTable (slotsOf i s.regs.sel) s = .ok table ∧
      u.slots.get k = metricSlot (opN s) (opM s) table k := by
  obtain ⟨hnil, -⟩ | ⟨table, htable, rfl⟩ := ruleOf_analyzer_ok (familyOf_of_mem_slotsOf hk) h
  · rw [hnil] at hk
    exact absurd hk List.not_mem_nil
  · exact ⟨table, htable, endOk_writeResults_slots_get hk table s⟩

/-! ### DEN and AUX (R154, R174) -/

/-- DEN of a metric as a number (R154). -/
def metricDen (n : Nat) : Metric → Nat
  | .nl => 1
  | .sac => n * 2 ^ n * n
  | .lap => 2 ^ n
  | .dap => 2 ^ n
  | .bicNl => n * (n - 1) / 2
  | .bicSac => 224 * 2 ^ n

theorem metricSlot_den (n m : Nat) (table : List Nat) (k : Metric) :
    (metricSlot n m table k).den = BitVec.ofNat 32 (metricDen n k) := by cases k <;> rfl

theorem metricSlot_valid (n m : Nat) (table : List Nat) (k : Metric) : (metricSlot n m table k).valid = true := by
  cases k <;> rfl

theorem metricSlot_aux_eq_zero (n m : Nat) (table : List Nat) (hk : k ≠ .bicSac) :
    (metricSlot n m table k).aux = 0 := by
  cases k with
  | bicSac => exact absurd rfl hk
  | _ => rfl

theorem twoPow_le_65536 (hn : n ≤ 16) : 2 ^ n ≤ 65536 := Nat.pow_le_pow_right two_pos hn

/-- Every DEN of a legal part fits its register (R10). -/
theorem metricDen_lt (hn : n ≤ 16) (k : Metric) : metricDen n k < 2 ^ 32 := by
  have hpow := twoPow_le_65536 hn
  have hsac : n * 2 ^ n * n ≤ 16 * 65536 * 16 := Nat.mul_le_mul (Nat.mul_le_mul hn hpow) hn
  have hbic : n * (n - 1) ≤ 16 * 15 := Nat.mul_le_mul hn (by omega)
  cases k <;> simp only [metricDen] <;> omega

/-- No DEN is 0 when the metric is not degenerate (R40, R206). -/
theorem metricDen_pos (hn : 1 ≤ n) (hk : k = .bicNl → 2 ≤ n) : 0 < metricDen n k := by
  cases k with
  | nl => exact one_pos
  | sac => exact Nat.mul_pos (Nat.mul_pos hn (Nat.two_pow_pos n)) hn
  | lap | dap => exact Nat.two_pow_pos n
  | bicNl =>
    have hprod : 2 * 1 ≤ n * (n - 1) := Nat.mul_le_mul (hk rfl) (by have := hk rfl; omega)
    exact Nat.div_pos (by omega) two_pos
  | bicSac => exact Nat.mul_pos (by decide) (Nat.two_pow_pos n)

theorem metricSlot_den_toNat (hn : n ≤ 16) (m : Nat) (table : List Nat) (k : Metric) :
    (metricSlot n m table k).den.toNat = metricDen n k := by
  rw [metricSlot_den, BitVec.toNat_ofNat, Nat.mod_eq_of_lt (metricDen_lt hn k)]

/-- No slot a command fills has DEN 0 (R40). -/
theorem metricSlot_den_ne_zero (hp : s.part.wf = true) (htable : checkTable ks s = .ok table) (hk : k ∈ ks) :
    (metricSlot (opN s) (opM s) table k).den ≠ 0 := by
  obtain ⟨⟨hw, -, -⟩, ⟨hnl, -⟩, -, -⟩ := checkTable_ok.1 htable
  have hpos : 0 < metricDen (opN s) k := metricDen_pos hw.1 fun h => hnl (h ▸ hk)
  intro h0
  rw [← metricSlot_den_toNat (opN_le_of_legal hp hw) (opM s) table, h0] at hpos
  exact absurd hpos (by decide)

end Sys2Proof.Machine
end

section
/-! The invariant (StepKeepsTheInvariant): block writes keep memory in form; then one lemma for a step that ends a
command, one for a step that leaves everything the invariant speaks of, and each move of the machine by one of them. -/

namespace Sys2Proof.Machine

variable {i : Instr} {s t u : State} {w v : Word}

/-! ### Memory made of whole entries -/

/-- The byte at `a` belongs to an entry of the S-box RAM or of the buffer (R72). -/
def InWindow (nmax a : Nat) : Prop :=
  (sboxOff 0 ≤ a ∧ a < sboxOff (2 ^ nmax)) ∨ (bufOff 0 ≤ a ∧ a < bufOff (2 ^ nmax))

/-- What the invariant says of memory. -/
structure MemoryInv (nmax : Nat) (m : Memory) : Prop where
  wf : m.wf
  mapped : ∀ c ∈ m, InWindow nmax c.1
  whole : ∀ c ∈ m, (m.readWord (c.1 - c.1 % 4)).isSome = true

theorem Inv.memory (h : Inv s) : MemoryInv s.part.nmax s.mem := ⟨h.mem_wf, h.mem_mapped, h.mem_whole⟩

/-- Words written from an aligned offset on, inside the windows, keep it (R75, R77). -/
theorem MemoryInv.writeWords {nmax a : Nat} {m : Memory} {ws : List Word} (h : MemoryInv nmax m) (ha : a % 4 = 0)
    (hin : ∀ b, a ≤ b → b < a + 4 * ws.length → InWindow nmax b) : MemoryInv nmax (m.writeWords a ws) := by
  have hwf := wf_writeWords h.wf a ws
  have hold (c : Host.Cell) (hc : c ∈ m.writeWords a ws) (hout : c.1 < a ∨ a + 4 * ws.length ≤ c.1) : c ∈ m :=
    mem_of_readByte (by rw [← readByte_writeWords_outside m a ws _ hout, readByte_of_mem hwf hc])
  refine ⟨hwf, fun c hc => ?_, fun c hc => ?_⟩
  · by_cases hnew : a ≤ c.1 ∧ c.1 < a + 4 * ws.length
    · exact hin c.1 hnew.1 hnew.2
    · exact h.mapped c (hold c hc (by omega))
  · by_cases hnew : a ≤ c.1 ∧ c.1 < a + 4 * ws.length
    · have hx : (c.1 - a) / 4 < ws.length := by omega
      rw [show c.1 - c.1 % 4 = a + 4 * ((c.1 - a) / 4) by omega, readWord_writeWords_inside _ _ _ _ hx,
        List.getElem?_eq_getElem hx]
      rfl
    · rw [readWord_writeWords_outside _ _ _ _ (by omega)]
      exact h.whole c (hold c hc (by omega))

/-- A command's writes keep it: they are entries of the buffer (R104). -/
theorem MemoryInv.of_writesOnlyBuf (h : MemoryInv s.part.nmax s.mem) (ht : WritesOnlyBuf s t) :
    MemoryInv s.part.nmax t.mem := by
  obtain hm | ⟨ws, hlen, hm⟩ := ht
  · rwa [hm]
  · rw [hm]
    refine h.writeWords rfl fun b hlo hhi => .inr ⟨hlo, ?_⟩
    simp only [bufOff] at *
    omega

/-- The host's write of an entry keeps it (R79). -/
theorem MemoryInv.writeEntry {x off : Nat} (h : MemoryInv s.part.nmax s.mem) (hx : x < 2 ^ s.part.nmax)
    (hoff : off = sboxOff x ∨ off = bufOff x) (v : Word) : MemoryInv s.part.nmax (writeEntry off v s).mem := by
  rw [writeEntry_mem]
  refine h.writeWords ?_ fun b hlo hhi => ?_
  · rcases hoff with rfl | rfl <;> simp only [sboxOff, bufOff] <;> omega
  · rw [List.length_singleton] at hhi
    rcases hoff with rfl | rfl
    · exact .inl (by simp only [sboxOff] at *; omega)
    · exact .inr (by simp only [bufOff] at *; omega)

/-! ### The two shapes of a step -/

/-- What the invariant says of a slot that no running command owns. -/
def SlotInv (k : Metric) (sl : Slot) : Prop := (sl.valid = true → sl.den ≠ 0) ∧ (k ≠ .bicSac → sl.aux = 0)

theorem slotInv_zero (k : Metric) : SlotInv k Slot.zero := ⟨nofun, fun _ => rfl⟩

/-- A step that ends a command, or any that answers an IDLE state: the slots the command owned are new, the others as
before. -/
theorem Inv.of_idle (h : Inv s) (hpart : t.part = s.part) (hphase : t.phase = .idle) (hmem : WritesOnlyBuf s t)
    (hslots : ∀ k ∈ runningSlots s, SlotInv k (t.slots.get k))
    (hrest : ∀ k, k ∉ runningSlots s → t.slots.get k = s.slots.get k)
    (herr : t.flags.errCode = .none → t.flags.err = false ∧ t.errCtx = { exp := 0, act := 0, idx := 0 }) : Inv t := by
  obtain ⟨hwf, hmapped, hwhole⟩ := h.memory.of_writesOnlyBuf hmem
  have hslot (k : Metric) : SlotInv k (t.slots.get k) := by
    by_cases hk : k ∈ runningSlots s
    · exact hslots k hk
    · rw [hrest k hk]
      exact ⟨h.slot_den k, fun hne => h.slot_aux k hne hk⟩
  exact {
    part_wf := hpart ▸ h.part_wf
    mem_wf := hwf
    mem_mapped := hpart ▸ hmapped
    mem_whole := hwhole
    slot_den := fun k => (hslot k).1
    slot_running := fun k hk => absurd hk (runningSlots_idle hphase ▸ List.not_mem_nil)
    slot_aux := fun k hne _ => (hslot k).2 hne
    busy_clear := fun hb => absurd hb (by simp [isBusy_idle hphase])
    no_error := herr }

/-- A step that leaves the part, the phase, the slots and the error code, and sets neither DONE nor ERR. -/
theorem Inv.of_same (h : Inv s) (hpart : t.part = s.part) (hphase : t.phase = s.phase)
    (hrunning : runningSlots t = runningSlots s) (hslots : t.slots = s.slots) (hctx : t.errCtx = s.errCtx)
    (hmem : MemoryInv s.part.nmax t.mem) (hcode : t.flags.errCode = s.flags.errCode)
    (hdone : s.flags.done = false → t.flags.done = false) (herr : s.flags.err = false → t.flags.err = false) :
    Inv t where
  part_wf := hpart ▸ h.part_wf
  mem_wf := hmem.wf
  mem_mapped := hpart ▸ hmem.mapped
  mem_whole := hmem.whole
  slot_den := hslots ▸ h.slot_den
  slot_running := hslots ▸ hrunning ▸ h.slot_running
  slot_aux := hslots ▸ hrunning ▸ h.slot_aux
  busy_clear := fun hb => by
    obtain ⟨hd, he, hc⟩ := h.busy_clear (by rwa [isBusy, ← hphase])
    exact ⟨hdone hd, herr he, hcode.trans hc⟩
  no_error := fun hc => by
    obtain ⟨he, hx⟩ := h.no_error (hcode ▸ hc)
    exact ⟨herr he, hctx.trans hx⟩

/-- The model's own fields, and the registers the invariant does not speak of, do not matter. -/
theorem Inv.of_ownFields (h : Inv s) (hpart : t.part = s.part) (hphase : t.phase = s.phase) (hregs : t.regs = s.regs)
    (hslots : t.slots = s.slots) (hctx : t.errCtx = s.errCtx) (hmem : t.mem = s.mem) (hflags : t.flags = s.flags) :
    Inv t :=
  h.of_same hpart hphase (by simp only [runningSlots, runningCommand, hphase, hregs]) hslots hctx (hmem ▸ h.memory)
    (by rw [hflags]) (by rw [hflags]; exact id) (by rw [hflags]; exact id)

theorem Inv.withInbox (h : Inv s) (rest : List BusEvent) : Inv { s with inbox := rest } :=
  h.of_ownFields rfl rfl rfl rfl rfl rfl rfl

/-! ### The end of a command -/

theorem writesOnlyBuf_endOk (h : WritesOnlyBuf s u) : WritesOnlyBuf s (endOk u) := h

/-- A command that ends without error keeps the invariant: a slot it filled has a DEN, and no error was pending. -/
theorem inv_endOk (h : Inv s) (hp : s.phase = .busy w) (hd : decodeCommand w = .ok i) (hr : ruleOf i s = .ok u) :
    Inv (endOk u) := by
  have hf := ruleOf_frame hr
  have hrun : runningSlots s = slotsOf i s.regs.sel := (runningSlots_busy hp).trans (slotsOfWord_command hd)
  obtain ⟨-, herr, hcode⟩ := h.busy_clear (isBusy_busy hp)
  obtain ⟨-, hctx⟩ := h.no_error hcode
  refine h.of_idle hf.part rfl (writesOnlyBuf_endOk (writesOnlyBuf_ruleOf hr)) (fun k hk => ?_)
    (fun k hk => hf.slots k (hrun ▸ hk)) fun _ => ?_
  · obtain ⟨table, htable, hslot⟩ := ruleOf_ok_slot hr (hrun ▸ hk)
    rw [endOk_slots, hslot]
    exact ⟨fun _ => metricSlot_den_ne_zero h.part_wf htable (hrun ▸ hk), metricSlot_aux_eq_zero _ _ table⟩
  · simp [hf.flags, hf.errCtx, herr, hctx]

/-- A command that ends with an error keeps it: its slots are zero, and its code is not 0. -/
theorem inv_raiseError {e : CmdError} (h : Inv s) (hp : s.phase = .busy w) (hd : decodeCommand w = .ok i)
    (hr : ruleOf i s = .error (.error e)) : Inv (raiseError i e s) := by
  have hrun : runningSlots s = slotsOf i s.regs.sel := (runningSlots_busy hp).trans (slotsOfWord_command hd)
  obtain ⟨⟨hpart, -⟩, hphase, hflags, -, -, hslots⟩ := raiseError_spec i e s
  refine h.of_idle hpart hphase (writesOnlyBuf_raiseError i e s) (fun k hk => ?_) (fun k hk => ?_) fun hc => ?_
  · rw [hslots, if_pos (hrun ▸ hk)]
    exact slotInv_zero k
  · rw [hslots, if_neg (hrun ▸ hk)]
  · rw [hflags] at hc
    exact absurd hc (errorsHaveCode_ruleOf i s e hr)

theorem inv_abortCommand (h : Inv s) (hp : s.phase = .busy w) : Inv (abortCommand w s) := by
  have hrun := runningSlots_busy hp
  obtain ⟨⟨hpart, -⟩, hphase, hflags, -, hslots, -⟩ := abortCommand_spec w s
  refine h.of_idle hpart hphase (writesOnlyBuf_abortCommand w s) (fun k hk => ?_) (fun k hk => ?_) fun hc => ?_
  · rw [hslots, if_pos (hrun ▸ hk)]
    exact slotInv_zero k
  · rw [hslots, if_neg (hrun ▸ hk)]
  · rw [hflags] at hc
    exact nomatch hc

/-- An illegal word owns no slot, so its end changes none (R102). -/
theorem inv_raiseBadOpcode {r : DecodeReject} (h : Inv s) (hp : s.phase = .busy w) (hd : decodeCommand w = .error r) :
    Inv (raiseBadOpcode w s) :=
  h.of_idle rfl rfl (.inl rfl)
    (fun k hk => absurd hk (by rw [runningSlots_busy hp, slotsOfWord_illegal hd]; exact List.not_mem_nil))
    (fun _ _ => rfl) (fun hc => nomatch hc)

theorem inv_engineTurn (h : Inv s) (ht : engineTurn s = .next t) : Inv t := by
  cases hp : s.phase with
  | idle =>
    rw [engineTurn_idle hp] at ht
    cases ht
    exact h
  | busy w =>
    cases hd : decodeCommand w with
    | error r =>
      rw [engineTurn_illegal hp hd] at ht
      cases ht
      exact inv_raiseBadOpcode h hp hd
    | ok i =>
      rw [engineTurn_command hp hd] at ht
      obtain ⟨u, hr, rfl⟩ | ⟨e, hr, rfl⟩ := exec_next.1 ht
      · exact inv_endOk h hp hd hr
      · exact inv_raiseError h hp hd hr

/-! ### The host's accesses -/

/-- A read changes the replies and the draws at most (R78). -/
theorem inv_busRead {addr off : Nat} (h : Inv s) (ht : busRead addr off s = .next t) : Inv t := by
  unfold busRead at ht
  split at ht
  · cases ht
    exact h.of_ownFields rfl rfl rfl rfl rfl rfl rfl
  · cases ht
    exact h.of_ownFields rfl rfl rfl rfl rfl rfl rfl
  · exact nomatch ht

theorem inv_setAccErr (h : Inv s) : Inv (setAccErr s) :=
  h.of_same rfl rfl rfl rfl rfl h.memory rfl id id

/-- START of an IDLE engine: the slots it hands over are not valid, and of the others AUX is as before (R191). -/
theorem inv_startCommand (h : Inv s) (hp : s.phase = .idle) : Inv (startCommand s) := by
  obtain ⟨sl, heq, hin, hout⟩ := startCommand_spec s
  have hrun : runningSlots (startCommand s) = slotsOfWord s.regs.cmd s.regs.sel := by rw [heq]; rfl
  rw [heq] at hrun ⊢
  exact {
    part_wf := h.part_wf
    mem_wf := h.mem_wf
    mem_mapped := h.mem_mapped
    mem_whole := h.mem_whole
    slot_den := fun k hv => by
      by_cases hk : k ∈ slotsOfWord s.regs.cmd s.regs.sel
      · exact absurd hv (by simp [hin k hk])
      · simp only [hout k hk] at hv ⊢
        exact h.slot_den k hv
    slot_running := fun k hk => hin k (hrun ▸ hk)
    slot_aux := fun k hne hk => by
      rw [hrun] at hk
      simp only [hout k hk]
      exact h.slot_aux k hne (by simp [runningSlots_idle hp])
    busy_clear := fun _ => ⟨rfl, rfl, rfl⟩
    no_error := fun _ => ⟨rfl, rfl⟩ }

theorem inv_writeCtrl (h : Inv s) (v : Word) : Inv (writeCtrl v s) := by
  unfold writeCtrl
  split
  next hp =>
    split_ifs
    · exact h
    · exact inv_startCommand h hp
    · exact h
  next w hp =>
    split_ifs
    · exact inv_abortCommand h hp
    · exact inv_setAccErr h
    · exact h

/-- A locked write: refused while BUSY; while IDLE it is of an operand register or of an entry. -/
theorem inv_lockedWrite {f : State → State} (h : Inv s) (hf : s.phase = .idle → Inv (f s)) : Inv (lockedWrite f s) := by
  cases hb : isBusy s with
  | true =>
    rw [lockedWrite_busy hb]
    exact inv_setAccErr h
  | false =>
    rw [lockedWrite_idle hb]
    exact hf (phase_of_isBusy_false hb)

/-- No command runs while an operand register is written, so SEL hands no slot over. -/
theorem inv_writeOperand (h : Inv s) (hp : s.phase = .idle) (r : RegName) (v : Word) : Inv (writeOperand r v s) :=
  h.of_same rfl rfl ((runningSlots_idle (s := writeOperand r v s) hp).trans (runningSlots_idle hp).symm) rfl rfl
    h.memory rfl id id

theorem inv_writeReg (h : Inv s) (r : RegName) (v : Word) : Inv (writeReg r v s) := by
  cases r with
  | ctrl => exact inv_writeCtrl h v
  | status =>
    exact h.of_same rfl rfl rfl rfl rfl h.memory rfl (fun hd => by simp [writeReg, hd])
      (fun he => by simp [writeReg, he])
  | irqEn => exact h.of_ownFields rfl rfl rfl rfl rfl rfl rfl
  | cmd | nLog | mBits | tblLen | mask | opa | opb | sel => exact inv_lockedWrite h fun hp => inv_writeOperand h hp _ v
  | id | cfg | errExp | errAct | errIdx | bvResult | whtMaxAbs => exact h

theorem inv_writeEntry {x off : Nat} (h : Inv s) (hx : x < 2 ^ s.part.nmax)
    (hoff : off = sboxOff x ∨ off = bufOff x) (v : Word) : Inv (lockedWrite (writeEntry off v) s) :=
  inv_lockedWrite h fun _ => h.of_same rfl rfl rfl rfl rfl (h.memory.writeEntry hx hoff v) rfl id id

/-- An offset selects only entries that the part has (R72). -/
theorem targetOf_entry {nmax off x : Nat} (h : targetOf nmax off = .sbox x ∨ targetOf nmax off = .buf x) :
    x < 2 ^ nmax := by
  unfold targetOf at h
  split_ifs at h with _ _ hsbox _ hbuf
  · obtain ⟨r, e, -⟩ | ⟨k, f, e, -⟩ | e := registerTarget_cases off <;> simp [e] at h
  · simp only [Target.sbox.injEq, or_false] at h
    exact h ▸ hsbox
  · simp at h
  · simp only [Target.buf.injEq, false_or] at h
    exact h ▸ hbuf
  · simp at h
  · simp at h

theorem inv_busWrite (h : Inv s) (off : Nat) (v : Word) : Inv (busWrite off v s) := by
  unfold busWrite
  cases ht : targetOf s.part.nmax off with
  | reg r => exact inv_writeReg h r v
  | slot k f => exact h
  | sbox x => exact inv_writeEntry h (targetOf_entry (.inl ht)) (.inl rfl) v
  | buf x => exact inv_writeEntry h (targetOf_entry (.inr ht)) (.inr rfl) v
  | unmapped => exact h

theorem inv_hostAccess {a : Access} (h : Inv s) (ht : hostAccess a s = .next t) : Inv t := by
  unfold hostAccess at ht
  cases a with
  | read addr sz =>
    simp only at ht
    split_ifs at ht
    exact inv_busRead h ht
  | write addr sz v =>
    simp only at ht
    split_ifs at ht
    cases ht
    exact inv_busWrite h _ v

/-! ### Reset -/

theorem inv_resetFor {p : Config.Part} (hp : p.wf = true) : Inv (State.resetFor p) where
  part_wf := hp
  mem_wf := List.Pairwise.nil
  mem_mapped := fun _ hc => absurd hc List.not_mem_nil
  mem_whole := fun _ hc => absurd hc List.not_mem_nil
  slot_den := fun k => by simp [Slot.zero]
  slot_running := fun k => by simp
  slot_aux := fun k => by simp [Slot.zero]
  busy_clear := nofun
  no_error := fun _ => ⟨rfl, rfl⟩

/-- Settles O56: nothing is written, valid or running after reset. -/
theorem resetMeetsTheInvariant : Obligations.ResetMeetsTheInvariant :=
  ⟨inv_resetFor (by decide), fun _ hp => inv_resetFor hp⟩

/-- Settles O57: the engine's turn, a host access and a reset each keep the invariant. -/
theorem stepKeepsTheInvariant : Obligations.StepKeepsTheInvariant := by
  intro s t h ht
  match hin : s.inbox with
  | [] => exact inv_engineTurn h (step_engine hin ▸ ht)
  | .engine :: rest => exact inv_engineTurn (h.withInbox rest) (step_engine_event hin ▸ ht)
  | .access a :: rest => exact inv_hostAccess (h.withInbox rest) (step_access hin ▸ ht)
  | .reset :: rest =>
    rw [step_reset hin] at ht
    cases ht
    exact (inv_resetFor h.part_wf).of_ownFields rfl rfl rfl rfl rfl rfl rfl

end Sys2Proof.Machine
end

section
/-! Laws of host reads and of running commands, beside those of the register block: what each kind of read can answer,
which slots the running command owns, and STATUS bit by bit. -/

namespace Sys2Proof.Machine

variable {s t : State} {i : Instr} {k : Metric} {f : SlotField} {off x : Nat} {v w sel : Word} {rest : List BusEvent}

/-! ### What a read answers (R78) -/

/-- A read of an UNSPECIFIED place delivers the next free value. -/
theorem step_read_unspecified (h1 : off < 0xC0000) (h2 : off % 4 = 0)
    (hr : readTarget s (targetOf s.part.nmax off) = .unspecified) (hn : NextIsRead s off rest) :
    step s = .next { s with
      inbox := rest
      draws := s.draws + 1
      replies := { addr := s.part.base + off, value := Config.freeWord s.draws } :: s.replies } := by
  have hr' := (readTarget_inbox s rest (targetOf s.part.nmax off)).trans hr
  rw [step_read hn h1 h2, busRead]
  simp only [hr']
  rfl

/-- A read of an unwritten entry faults there (R46). -/
theorem step_read_unwritten {o : Nat} (h1 : off < 0xC0000) (h2 : off % 4 = 0)
    (hr : readTarget s (targetOf s.part.nmax off) = .unwritten o) (hn : NextIsRead s off rest) :
    step s = .fault (.unwrittenRead o) := by
  have hr' := (readTarget_inbox s rest (targetOf s.part.nmax off)).trans hr
  rw [step_read hn h1 h2, busRead]
  simp only [hr']

theorem readEntry_written (h : s.mem.readWord off = some w) : readEntry s off = .value w := by
  rw [readEntry, h]

theorem readEntry_unwritten (h : s.mem.readWord off = none) : readEntry s off = .unwritten off := by
  rw [readEntry, h]

theorem readBuf_unwritten (h : s.mem.readWord (bufOff x) = none) : readBuf s x = .unwritten (bufOff x) := by
  rw [readBuf, readEntry_unwritten h]

/-- A written buffer entry reads UNSPECIFIED while a command that owns the buffer runs (A11). -/
theorem readBuf_running (h : s.mem.readWord (bufOff x) = some w)
    (hf : FamilyRuns s .transform ∨ FamilyRuns s .analyzer) : readBuf s x = .unspecified := by
  rw [readBuf, readEntry_written h]
  exact if_pos (by simpa only [Bool.or_eq_true, familyRunning_iff] using hf)

theorem readBuf_written (h : s.mem.readWord (bufOff x) = some w) (ht : ¬FamilyRuns s .transform)
    (ha : ¬FamilyRuns s .analyzer) : readBuf s x = .value w := by
  rw [readBuf, readEntry_written h]
  simp [familyRunning_false ht, familyRunning_false ha]

theorem not_familyRuns_of_idle (hp : s.phase = .idle) (f : Family) : ¬FamilyRuns s f := by
  rintro ⟨w, i, hb, -⟩
  rw [hp] at hb
  exact nomatch hb

theorem readReg_ne_unwritten (s : State) (r : RegName) (o : Nat) : readReg s r ≠ .unwritten o := by
  cases r with
  | bvResult | whtMaxAbs => simp only [readReg]; split <;> exact nofun
  | _ => exact nofun

theorem readSlot_ne_unwritten (s : State) (k : Metric) (f : SlotField) (o : Nat) : readSlot s k f ≠ .unwritten o := by
  cases f with
  | valid => exact nofun
  | num | den => simp only [readSlot]; split <;> exact nofun
  | aux => simp only [readSlot]; split_ifs <;> exact nofun

theorem readEntry_eq_unwritten {o : Nat} : readEntry s off = .unwritten o ↔ s.mem.readWord off = none ∧ o = off := by
  unfold readEntry
  cases s.mem.readWord off <;> simp [eq_comm]

/-- Only an unwritten entry reads as unwritten. -/
theorem readTarget_unwritten {tg : Target} {o : Nat} (h : readTarget s tg = .unwritten o) :
    s.mem.readWord o = none := by
  cases tg with
  | reg r => exact absurd h (readReg_ne_unwritten s r o)
  | slot k f => exact absurd h (readSlot_ne_unwritten s k f o)
  | sbox x =>
    obtain ⟨hnone, rfl⟩ := readEntry_eq_unwritten.1 h
    exact hnone
  | buf x =>
    simp only [readTarget, readBuf] at h
    split at h
    next o' ho =>
      cases h
      obtain ⟨hnone, rfl⟩ := readEntry_eq_unwritten.1 ho
      exact hnone
    next hne =>
      split at h
      · exact nomatch h
      · exact absurd h (hne o)
  | unmapped => exact nomatch h

/-! ### The windows (R72) -/

theorem nmax_le_of_wf (hp : s.part.wf = true) : s.part.nmax ≤ 16 := by
  obtain ⟨-, hn16, -, -⟩ := part_limits hp
  exact hn16

theorem sboxOff_lt_aperture {nmax : Nat} (hn : nmax ≤ 16) (hx : x < 2 ^ nmax) : sboxOff x < 0xC0000 := by
  have := twoPow_le_65536 hn
  simp only [sboxOff]
  omega

theorem bufOff_lt_aperture {nmax : Nat} (hn : nmax ≤ 16) (hx : x < 2 ^ nmax) : bufOff x < 0xC0000 := by
  have := twoPow_le_65536 hn
  simp only [bufOff]
  omega

theorem sboxOff_aligned (x : Nat) : sboxOff x % 4 = 0 := by simp only [sboxOff]; omega

theorem bufOff_aligned (x : Nat) : bufOff x % 4 = 0 := by simp only [bufOff]; omega

/-- An offset of a window past the RAM selects nothing. -/
theorem targetOf_past {nmax : Nat} (h : 0x40000 + 4 * 2 ^ nmax ≤ off ∧ off < 0x80000 ∨
    0x80000 + 4 * 2 ^ nmax ≤ off ∧ off < 0xC0000) : targetOf nmax off = .unmapped := by
  unfold targetOf
  rcases h with ⟨hlo, hhi⟩ | ⟨hlo, hhi⟩
  · rw [if_neg (by omega), if_pos hhi, if_neg (by omega)]
  · rw [if_neg (by omega), if_neg (by omega), if_pos hhi, if_neg (by omega)]

/-! ### Slot registers (R40) -/

@[simp] theorem targetOf_slotOff (nmax : Nat) (k : Metric) (f : SlotField) :
    targetOf nmax (slotOff k f) = .slot k f := by
  cases k <;> cases f <;> rfl

theorem slotOff_lt_aperture (k : Metric) (f : SlotField) : slotOff k f < 0xC0000 := by cases k <;> cases f <;> decide

theorem slotOff_aligned (k : Metric) (f : SlotField) : slotOff k f % 4 = 0 := by cases k <;> cases f <;> rfl

theorem slotBase_add (k : Metric) (f : SlotField) : slotBase k + fieldOffset f = slotOff k f := by cases k <;> rfl

theorem delivers_slot (hr : readSlot s k f = .value v) (hn : NextIsRead s (slotOff k f) rest) :
    Delivers s (slotOff k f) v rest :=
  delivers_of_value (slotOff_lt_aperture k f) (slotOff_aligned k f) (by rw [targetOf_slotOff]; exact hr) hn

theorem onlyConsumed_slot (hn : NextIsWrite s (slotOff k f) v rest) : OnlyConsumed s rest :=
  onlyConsumed_readOnly (slotOff_lt_aperture k f) (slotOff_aligned k f)
    (fun _ => by rw [targetOf_slotOff, writeTarget]) hn

/-- A slot register whose command runs reads UNSPECIFIED, but for VALID (R41, A10). -/
theorem readSlot_running (hk : k ∈ runningSlots s) (hf : f ≠ .valid) : readSlot s k f = .unspecified := by
  cases f with
  | valid => exact absurd rfl hf
  | num | den | aux => simp only [readSlot, if_pos hk]

/-! ### The slots of a command word (R191) -/

/-- The command of a metric alone (R101). -/
def singleCommand : Metric → Instr
  | .nl => .nl
  | .sac => .sac
  | .lap => .lap
  | .dap => .dap
  | .bicNl => .bicNl
  | .bicSac => .bicSac

@[simp] theorem opcode_singleCommand (k : Metric) : opcode (singleCommand k) = metricOpcode k := by cases k <;> rfl

@[simp] theorem slotsOf_singleCommand (k : Metric) (sel : Word) : slotsOf (singleCommand k) sel = [k] := by
  cases k <;> rfl

theorem ruleOf_singleCommand (k : Metric) (s : State) : ruleOf (singleCommand k) s = analyzerRule [k] s := by
  cases k <;> rfl

theorem opcode_injective : Function.Injective opcode := by
  intro i j
  cases i <;> cases j <;> decide

/-- A command owns slot k when it is that of metric k, or RUNSEL with SEL[k]. -/
theorem mem_slotsOf : k ∈ slotsOf i sel ↔ i = singleCommand k ∨ (i = .runSel ∧ sel.getLsbD (slotIndex k) = true) := by
  by_cases hrun : i = .runSel
  · subst hrun
    have hne : Instr.runSel ≠ singleCommand k := by cases k <;> decide
    simp [slotsOf, hne]
  · simp only [hrun, false_and, or_false]
    cases i with
    | runSel => exact absurd rfl hrun
    | nop | bvBit | bvParity | bvHamming | wht | whtRaw | whtComp =>
      exact iff_of_false List.not_mem_nil (by cases k <;> decide)
    | nl | sac | lap | dap | bicNl | bicSac => rw [slotsOf, List.mem_singleton]; cases k <;> decide

/-- `Slots(c)` as the spec has it and as the model computes it. -/
theorem mem_slotsOfWord : k ∈ slotsOfWord w sel ↔ InSlotsOf w sel k := by
  have hin : InSlotsOf w sel k ↔ decodeCommand w = .ok (singleCommand k) ∨
      (decodeCommand w = .ok .runSel ∧ sel.getLsbD (slotIndex k) = true) := by
    rw [decodeCommand_eq_ok, decodeCommand_eq_ok, opcode_singleCommand, and_assoc, ← and_or_left]
    rfl
  rw [hin]
  cases hd : decodeCommand w with
  | error r => simp [slotsOfWord_illegal hd]
  | ok i => simp [slotsOfWord_command hd, mem_slotsOf]

theorem mem_runningSlots : k ∈ runningSlots s ↔ SlotRuns s k := by
  unfold SlotRuns
  cases hp : s.phase with
  | idle => simp [runningSlots_idle hp]
  | busy w => simp [runningSlots_busy hp, mem_slotsOfWord]

/-! ### STATUS bit by bit (R27) -/

theorem statusWord_fields (s : State) : (statusWord s).extractLsb' 4 4 = 0 ∧
    (statusWord s).extractLsb' 8 8 = s.flags.errCode.code ∧ (statusWord s).extractLsb' 16 16 = 0 := by
  unfold statusWord
  refine ⟨?_, ?_, ?_⟩
  · iterate 4 rw [BitVec.extractLsb'_append_eq_of_le (by decide)]
    rw [BitVec.extractLsb'_append_eq_of_add_le (by decide), BitVec.extractLsb'_eq_self]
    rfl
  · iterate 5 rw [BitVec.extractLsb'_append_eq_of_le (by decide)]
    rw [BitVec.extractLsb'_append_eq_of_add_le (by decide), BitVec.extractLsb'_eq_self]
  · iterate 6 rw [BitVec.extractLsb'_append_eq_of_le (by decide)]
    rw [BitVec.extractLsb'_eq_self]
    rfl

theorem getLsbD_statusWord (s : State) (j : Nat) :
    (statusWord s).getLsbD j =
      if j = 0 then isBusy s else if j = 1 then s.flags.done else if j = 2 then s.flags.err
      else if j = 3 then s.flags.accErr else decide (8 ≤ j) && s.flags.errCode.code.getLsbD (j - 8) := by
  show BitVec.getLsbD (w := 16 + 8 + 4 + 1 + 1 + 1 + 1) ((0#16) ++ s.flags.errCode.code ++ (0#4) ++
    BitVec.ofBool s.flags.accErr ++ BitVec.ofBool s.flags.err ++ BitVec.ofBool s.flags.done ++
    BitVec.ofBool (isBusy s)) j = _
  simp only [BitVec.getLsbD_append, BitVec.getLsbD_ofBool, BitVec.getLsbD_zero, Nat.sub_sub]
  match j with
  | 0 | 1 | 2 | 3 => simp
  | j + 4 =>
    rcases Nat.lt_or_ge j 4 with h4 | h4
    · simp [h4, show ¬ 8 ≤ j + 4 by omega]
    · rcases Nat.lt_or_ge j 12 with h12 | h12
      · simp [h4, show ¬ j < 4 by omega, show j - 4 < 8 by omega]
      · simp [show ¬ j < 4 by omega, show ¬ j - 4 < 8 by omega, BitVec.getLsbD_of_ge _ _ (show 8 ≤ j - 4 by omega)]

/-- STATUS after a write of `v` (R27). -/
theorem statusWord_clearStatus (v : Word) (s : State) :
    statusWord (clearStatus v s) = statusWord s &&& ~~~(v &&& 0x0000000E) := by
  refine BitVec.eq_of_getLsbD_eq fun j hj => ?_
  have hmask : (0x0000000E : Word).getLsbD j = (decide (1 ≤ j) && decide (j ≤ 3)) := by
    interval_cases j <;> rfl
  simp only [BitVec.getLsbD_and, BitVec.getLsbD_not, getLsbD_statusWord, hmask, clearStatus_flags, hj, decide_true,
    Bool.true_and]
  match j with
  | 0 => simp; rfl
  | 1 | 2 | 3 => simp
  | j + 4 => simp

end Sys2Proof.Machine
end

section
/-! The statements of 10_state.md and 20_memory.md on what the host reads and writes: EntryWriteThenRead,
StatusWriteOneToClear, StatusLayout, ReadsHaveNoSideEffect, WindowOffsetsPastTheRam, AccessesWithoutAMove,
InterruptLine, RunningOutputsAreFree, ResultRegisters and SlotRegisters. -/

namespace Sys2Proof.Machine

/-- Settles O44: a STATUS write is not locked. -/
theorem statusWriteOneToClear : Obligations.StatusWriteOneToClear := fun s v rest hn =>
  ⟨clearStatus v { s with inbox := rest }, step_write_register (r := .status) hn, rfl,
    statusWord_clearStatus v { s with inbox := rest }⟩

/-- Settles O45: STATUS read as a register, field by field. -/
theorem statusLayout : Obligations.StatusLayout := by
  intro s rest hn
  obtain ⟨hlow, hcode, hhigh⟩ := statusWord_fields s
  refine ⟨statusWord s, delivers_register (r := .status) rfl hn, ?_, ?_, ?_, ?_, hlow, hhigh, ?_⟩
  · rw [getLsbD_statusWord]
    exact isBusy_iff
  · rw [getLsbD_statusWord]
    rfl
  · rw [getLsbD_statusWord]
    rfl
  · rw [getLsbD_statusWord]
    rfl
  · rw [hcode]
    cases s.flags.errCode <;> decide

/-- Settles O46: a read is a value, a draw or a fault at an unwritten entry, and nothing else. -/
theorem readsHaveNoSideEffect : Obligations.ReadsHaveNoSideEffect := by
  intro s off rest h1 h2 hn
  cases hr : readTarget s (targetOf s.part.nmax off) with
  | value v => exact .inl ⟨v, s.draws, delivers_of_value h1 h2 hr hn⟩
  | unspecified => exact .inl ⟨_, _, step_read_unspecified h1 h2 hr hn⟩
  | unwritten o => exact .inr ⟨o, step_read_unwritten h1 h2 hr hn, readTarget_unwritten hr⟩

/-- Settles O48: such an offset selects nothing. -/
theorem windowOffsetsPastTheRam : Obligations.WindowOffsetsPastTheRam := by
  intro s off v rest h4 hoff
  have ht := targetOf_past hoff
  exact ⟨delivers_unmapped (by omega) h4 ht, onlyConsumed_unmapped (by omega) h4 ht⟩

/-- Settles O50: the two checks that every access passes first. -/
theorem accessesWithoutAMove : Obligations.AccessesWithoutAMove := by
  intro s addr sz v rest hin
  refine ⟨fun hout => ?_, fun hlo hhi hbad => ?_⟩
  · have hout' : ¬(s.part.base ≤ addr ∧ addr < s.part.base + 0xC0000) := by omega
    rcases hin with hin | hin <;> exact (step_access hin).trans (if_pos hout')
  · have hmove : ¬(sz = .word ∧ (addr - s.part.base) % 4 = 0) := not_and_or.2 hbad
    rcases hin with hin | hin <;>
      exact (step_access hin).trans ((if_neg (not_not.2 ⟨hlo, hhi⟩)).trans (if_pos hmove))

/-- Settles O51: DONE and ERR are bits 1 and 2 of STATUS, and an accepted START clears both. -/
theorem interruptLine : Obligations.InterruptLine := by
  refine ⟨fun s => ?_, fun _ => rfl, fun s t v rest hp hn hstart habort ht => ?_, fun _ _ => rfl⟩
  · rw [getLsbD_statusWord, getLsbD_statusWord]
    simp [irqLine]
  · rw [step_start hp hn hstart habort] at ht
    obtain ⟨sl, heq, -⟩ := startCommand_spec { s with inbox := rest }
    rw [heq] at ht
    cases ht
    rfl

/-- Settles O58: each of these registers reads its field, BV_RESULT and WHT_MAXABS while no command that writes them
runs. -/
theorem resultRegisters : Obligations.ResultRegisters := by
  intro s v rest
  refine ⟨delivers_register (r := .ctrl) rfl, fun hn => ?_, delivers_register (r := .errExp) rfl,
    delivers_register (r := .errAct) rfl, delivers_register (r := .errIdx) rfl, fun hb => ?_, fun ht ha => ?_, ?_⟩
  · refine ⟨s.irqEn.setWidth 32, delivers_register (r := .irqEn) rfl hn, ?_, ?_⟩
    · ext j hj
      simp [BitVec.getElem_extractLsb', BitVec.getLsbD_eq_getElem hj, show j < 32 by omega]
    · ext j hj
      simp [BitVec.getElem_extractLsb']
  · exact delivers_register (r := .bvResult) (by simp [readReg, familyRunning_false hb])
  · exact delivers_register (r := .whtMaxAbs) (by simp [readReg, familyRunning_false ht, familyRunning_false ha])
  · intro off hoff
    simp only [List.mem_cons, List.not_mem_nil, or_false] at hoff
    obtain rfl | rfl | rfl | rfl | rfl := hoff
    · exact onlyConsumed_register (r := .errExp) fun _ => rfl
    · exact onlyConsumed_register (r := .errAct) fun _ => rfl
    · exact onlyConsumed_register (r := .errIdx) fun _ => rfl
    · exact onlyConsumed_register (r := .bvResult) fun _ => rfl
    · exact onlyConsumed_register (r := .whtMaxAbs) fun _ => rfl

/-- Settles O59: the four registers of a slot by their fields. -/
theorem slotRegisters : Obligations.SlotRegisters := by
  intro s k v rest
  refine ⟨fun hk => ?_, ?_, fun f hf => ?_⟩
  · rw [← mem_runningSlots] at hk
    refine ⟨?_, ?_, ?_⟩
    · have hnum : slotBase k = slotOff k .num := slotBase_add k .num
      rw [hnum]
      exact delivers_slot (if_neg hk)
    · exact slotBase_add k .den ▸ delivers_slot (f := .den) (if_neg hk)
    · refine slotBase_add k .aux ▸ delivers_slot (f := .aux) ((if_neg hk).trans ?_)
      split <;> rfl
  · exact slotBase_add k .valid ▸ delivers_slot (f := .valid) rfl
  · have hfield : ∃ g, f = fieldOffset g := by
      simp only [List.mem_cons, List.not_mem_nil, or_false] at hf
      obtain rfl | rfl | rfl | rfl := hf
      exacts [⟨.num, rfl⟩, ⟨.den, rfl⟩, ⟨.aux, rfl⟩, ⟨.valid, rfl⟩]
    obtain ⟨g, rfl⟩ := hfield
    exact slotBase_add k g ▸ onlyConsumed_slot

/-- Settles O53: each output of the running command reads as UNSPECIFIED. -/
theorem runningOutputsAreFree : Obligations.RunningOutputsAreFree := by
  intro s w i off rest hp hphase hd hn hcase
  have hruns (f : Family) (hf : familyOf i = f) : familyRunning f s = true := familyRunning_iff.2 ⟨w, i, hphase, hd, hf⟩
  have hn16 := nmax_le_of_wf hp
  obtain ⟨hf, rfl⟩ | ⟨hf, rfl⟩ | ⟨k, f, hk, hfield, rfl⟩ | ⟨hf, x, hx, rfl, hw⟩ := hcase
  · exact step_read_unspecified (off := 0x040) (by decide) rfl (if_pos (hruns _ hf)) hn
  · refine step_read_unspecified (off := 0x044) (by decide) rfl (if_pos ?_) hn
    rcases hf with hf | hf <;> simp [hruns _ hf]
  · refine step_read_unspecified (slotOff_lt_aperture k f) (slotOff_aligned k f) ?_ hn
    rw [targetOf_slotOff]
    exact readSlot_running (by rwa [runningSlots_busy hphase, slotsOfWord_command hd]) hfield
  · obtain ⟨v, hv⟩ := Option.isSome_iff_exists.1 hw
    refine step_read_unspecified (bufOff_lt_aperture hn16 hx) (bufOff_aligned x) ?_ hn
    rw [targetOf_buf hn16 hx]
    exact readBuf_running hv (hf.imp (fun hf => ⟨w, i, hphase, hd, hf⟩) fun hf => ⟨w, i, hphase, hd, hf⟩)

/-! ### The windows -/

/-- A write of an entry the part has, BUSY or IDLE. -/
theorem step_write_entry {s : State} {off x : Nat} {v : Word} {rest : List BusEvent} (hn16 : s.part.nmax ≤ 16)
    (hx : x < 2 ^ s.part.nmax) (hoff : off = sboxOff x ∨ off = bufOff x) (hn : NextIsWrite s off v rest) :
    step s = .next (lockedWrite (writeEntry off v) { s with inbox := rest }) := by
  rcases hoff with rfl | rfl
  · rw [step_write hn (sboxOff_lt_aperture hn16 hx) (sboxOff_aligned x)]
    exact congrArg (fun tg => Host.Outcome.next (writeTarget v { s with inbox := rest } tg)) (targetOf_sbox hn16 hx)
  · rw [step_write hn (bufOff_lt_aperture hn16 hx) (bufOff_aligned x)]
    exact congrArg (fun tg => Host.Outcome.next (writeTarget v { s with inbox := rest } tg)) (targetOf_buf hn16 hx)

theorem delivers_sbox {s : State} {x : Nat} {w : Word} {rest : List BusEvent} (hn16 : s.part.nmax ≤ 16)
    (hx : x < 2 ^ s.part.nmax) (hw : s.mem.readWord (sboxOff x) = some w) (hn : NextIsRead s (sboxOff x) rest) :
    Delivers s (sboxOff x) w rest :=
  delivers_of_value (sboxOff_lt_aperture hn16 hx) (sboxOff_aligned x)
    (by rw [targetOf_sbox hn16 hx]; exact readEntry_written hw) hn

theorem delivers_buf {s : State} {x : Nat} {w : Word} {rest : List BusEvent} (hn16 : s.part.nmax ≤ 16)
    (hx : x < 2 ^ s.part.nmax) (hw : s.mem.readWord (bufOff x) = some w) (ht : ¬FamilyRuns s .transform)
    (ha : ¬FamilyRuns s .analyzer) (hn : NextIsRead s (bufOff x) rest) : Delivers s (bufOff x) w rest :=
  delivers_of_value (bufOff_lt_aperture hn16 hx) (bufOff_aligned x)
    (by rw [targetOf_buf hn16 hx]; exact readBuf_written hw ht ha) hn

/-- The word written at an offset is what is there, and no byte outside it changes. -/
theorem writeEntry_memory (off : Nat) (v : Word) (s : State) : (writeEntry off v s).mem.readWord off = some v ∧
    ∀ a, ¬(off ≤ a ∧ a < off + 4) → (writeEntry off v s).mem.readByte a = s.mem.readByte a :=
  ⟨readWord_writeWords_inside s.mem off [v] 0 one_pos, fun a ha =>
    readByte_writeWords_outside s.mem off [v] a (by simp only [List.length_singleton]; omega)⟩

/-- Settles O43: an entry's write is locked, and its read depends on the word written alone. -/
theorem entryWriteThenRead : Obligations.EntryWriteThenRead := by
  refine ⟨fun s off x v rest hp hx hoff hn => ?_, fun s x w rest hp hx => ?_⟩
  · have hn16 := nmax_le_of_wf hp
    have hstep := step_write_entry hn16 hx hoff hn
    refine ⟨fun hb => hstep.trans (congrArg _ (lockedWrite_busy hb)), fun hi => ?_⟩
    obtain ⟨hword, hbytes⟩ := writeEntry_memory off v { s with inbox := rest }
    have hidle := not_familyRuns_of_idle (s := writeEntry off v { s with inbox := rest }) (phase_of_isBusy_false hi)
    refine ⟨_, hstep.trans (congrArg _ (lockedWrite_idle hi)), rfl, hword, hbytes, fun rest' hn' => ?_⟩
    rcases hoff with rfl | rfl
    · exact delivers_sbox hn16 hx hword hn'
    · exact delivers_buf hn16 hx hword (hidle _) (hidle _) hn'
  · have hn16 := nmax_le_of_wf hp
    exact ⟨delivers_sbox hn16 hx, delivers_buf hn16 hx⟩

end Sys2Proof.Machine
end

section
/-! Laws of a command's end and of a run: what every command leaves alone, where a command faults, what the engine's
turn can answer, and that a step takes the oldest event off the inbox. -/

namespace Sys2Proof.Machine

variable {i : Instr} {s t u : State} {w : Word} {ks : List Metric} {rest : List BusEvent}

/-! ### The frame of a command (R104) -/

theorem sameMemoryButBuf_of_writesOnlyBuf (h : WritesOnlyBuf s t) : SameMemoryButBuf (2 ^ s.part.nmax) s t := by
  intro a ha
  obtain hm | ⟨ws, hlen, hm⟩ := h
  · rw [hm]
  · rw [hm]
    refine readByte_writeBuf _ _ a fun hin => ha ⟨hin.1, ?_⟩
    simp only [bufOff] at *
    omega

/-- A control or bit-vector command answers without error, and writes BV_RESULT at most. -/
theorem ruleOf_control_bitVector (hf : familyOf i = .control ∨ familyOf i = .bitVector) :
    ∃ v, ruleOf i s = .ok (setBvResult v s) := by
  cases i with
  | nop => exact ⟨s.bvResult, rfl⟩
  | bvBit | bvParity | bvHamming => exact ⟨_, rfl⟩
  | wht | whtRaw | whtComp | nl | sac | lap | dap | bicNl | bicSac | runSel => simp [familyOf] at hf

/-- How every command ends (R192). -/
theorem exec_ended (h : exec i s = .next t) : CommandFrame s t ∧ t.phase = .idle ∧ t.flags.done = true := by
  obtain ⟨u, hr, rfl⟩ | ⟨e, -, rfl⟩ := exec_next.1 h
  · obtain ⟨hframe, hphase, hdone, -⟩ := endOk_of_frame (ruleOf_frame hr)
    exact ⟨hframe, hphase, hdone⟩
  · obtain ⟨hframe, hphase, hflags, -⟩ := raiseError_spec i e s
    exact ⟨hframe, hphase, by rw [hflags]⟩

/-! ### Faults (R46, R211) -/

/-- A scan comes to rest only at an unwritten entry. -/
theorem scanEntries_unwritten {m : Memory} {off : Nat → Nat} {bad : Nat → Word → Option CmdError} {x k o : Nat}
    (h : scanEntries m off bad x k = .error (.unwritten o)) : m.readWord o = none := by
  induction k generalizing x with
  | zero => exact nomatch h
  | succ k ih =>
    rw [scanEntries] at h
    split at h
    next hread => cases h; exact hread
    next =>
      split at h
      next => exact nomatch h
      next =>
        split at h
        next => exact nomatch h
        next hscan => cases h; exact ih hscan

theorem checkTable_unwritten {o : Nat} (h : checkTable ks s = .error (.unwritten o)) : s.mem.readWord o = none := by
  by_cases hw : LegalWidth s
  · by_cases hm : LegalOutputWidth s
    · rw [checkTable_legalWidths hw hm] at h
      split_ifs at h
      iterate 4 exact nomatch h
      cases hscan : scanEntries s.mem sboxOff (domainError (opM s)) 0 (2 ^ opN s) with
      | ok ws => rw [hscan] at h; exact nomatch h
      | error stop =>
        rw [hscan] at h
        cases h
        exact scanEntries_unwritten hscan
    · rw [checkTable_illegalOutputWidth hw hm] at h
      exact nomatch h
  · rw [checkTable_illegalWidth hw] at h
    exact nomatch h

/-- A command that stops at an entry stops at an unwritten one. -/
theorem ruleOf_unwritten {o : Nat} (h : ruleOf i s = .error (.unwritten o)) : s.mem.readWord o = none := by
  by_cases hi : ChecksTable i s.regs.sel
  · exact checkTable_unwritten ((ruleOf_error_iff_checkTable hi).1 h)
  · cases i with
    | nop | bvBit | bvParity | bvHamming => exact nomatch h
    | whtComp | nl | sac | lap | dap | bicNl | bicSac => exact absurd trivial hi
    | wht =>
      by_cases hw : LegalWidth s
      · exact scanEntries_unwritten ((whtRule_error hw).1 h)
      · rw [ruleOf, whtRule_illegalWidth hw] at h
        exact nomatch h
    | whtRaw =>
      by_cases hw : LegalWidth s
      · obtain hscan | ⟨ws, j, -, -, hover⟩ := (whtRawRule_error hw).1 h
        · exact scanEntries_unwritten hscan
        · exact nomatch hover
      · rw [ruleOf, whtRawRule_illegalWidth hw] at h
        exact nomatch h
    | runSel =>
      by_cases hres : s.regs.sel.extractLsb' 6 26 = 0
      · have hsel : s.regs.sel = 0 := by_contra fun hne => hi ⟨hres, hne⟩
        rw [ruleOf, runSelRule_empty hsel] at h
        exact nomatch h
      · rw [ruleOf, runSelRule_reserved hres] at h
        exact nomatch h

/-- A command whose rule comes to an unwritten entry faults there. -/
theorem exec_of_unwritten {o : Nat} (h : ruleOf i s = .error (.unwritten o)) :
    exec i s = .fault (.unwrittenRead o) := exec_fault.2 ⟨o, h, rfl⟩

/-- A scan from entry 0 stops at the first unwritten entry (R211). -/
theorem scanEntries_first_unwritten {m : Memory} {off : Nat → Nat} {bad : Nat → Word → Option CmdError} {x k : Nat}
    (hx : x < k) (hbefore : ∀ y < x, ∃ v, m.readWord (off y) = some v ∧ bad y v = none)
    (hread : m.readWord (off x) = none) : scanEntries m off bad 0 k = .error (.unwritten (off x)) := by
  obtain ⟨hstop, -⟩ := scanEntries_stop (x := 0) hx (by simpa only [Nat.zero_add] using hbefore)
  rw [Nat.zero_add] at hstop
  exact hstop hread

/-! ### The engine's turn and the inbox -/

/-- The engine's turn ends IDLE with the inbox as it was, or faults at an unwritten entry; a running command ends with
DONE (R192, R242). -/
theorem engineTurn_cases (s : State) :
    (∃ t, engineTurn s = .next t ∧ t.phase = .idle ∧ t.inbox = s.inbox ∧ (s.phase ≠ .idle → t.flags.done = true)) ∨
      ∃ o, engineTurn s = .fault (.unwrittenRead o) ∧ s.mem.readWord o = none := by
  cases hp : s.phase with
  | idle => exact .inl ⟨s, engineTurn_idle hp, hp, rfl, fun h => absurd rfl h⟩
  | busy w =>
    cases hd : decodeCommand w with
    | error r => exact .inl ⟨_, engineTurn_illegal hp hd, rfl, rfl, fun _ => rfl⟩
    | ok i =>
      rw [engineTurn_command hp hd]
      cases hx : exec i s with
      | next t =>
        obtain ⟨⟨-, -, -, -, hinbox, -⟩, hphase, hdone⟩ := exec_ended hx
        exact .inl ⟨t, rfl, hphase, hinbox, fun _ => hdone⟩
      | fault f =>
        obtain ⟨o, hr, rfl⟩ := exec_fault.1 hx
        exact .inr ⟨o, rfl, ruleOf_unwritten hr⟩
      | refused r => exact absurd hx exec_not_refused

theorem lockedWrite_inbox {f : State → State} (hf : (f s).inbox = s.inbox) : (lockedWrite f s).inbox = s.inbox := by
  unfold lockedWrite
  split
  · rfl
  · exact hf

theorem startCommand_inbox (s : State) : (startCommand s).inbox = s.inbox := by
  obtain ⟨sl, heq, -⟩ := startCommand_spec s
  rw [heq]

theorem abortCommand_inbox (w : Word) (s : State) : (abortCommand w s).inbox = s.inbox := by
  obtain ⟨⟨-, -, -, -, hinbox, -⟩, -⟩ := abortCommand_spec w s
  exact hinbox

theorem writeCtrl_inbox (v : Word) (s : State) : (writeCtrl v s).inbox = s.inbox := by
  unfold writeCtrl
  split
  · split_ifs
    · rfl
    · exact startCommand_inbox s
    · rfl
  · split_ifs
    · exact abortCommand_inbox _ s
    · rfl
    · rfl

theorem busWrite_inbox (off : Nat) (v : Word) (s : State) : (busWrite off v s).inbox = s.inbox := by
  unfold busWrite
  cases targetOf s.part.nmax off with
  | reg r =>
    cases r with
    | ctrl => exact writeCtrl_inbox v s
    | cmd | nLog | mBits | tblLen | mask | opa | opb | sel => exact lockedWrite_inbox rfl
    | status | irqEn | id | cfg | errExp | errAct | errIdx | bvResult | whtMaxAbs => rfl
  | sbox x | buf x => exact lockedWrite_inbox rfl
  | slot k f => rfl
  | unmapped => rfl

theorem busRead_inbox {addr off : Nat} (h : busRead addr off s = .next t) : t.inbox = s.inbox := by
  unfold busRead at h
  split at h
  · cases h; rfl
  · cases h; rfl
  · exact nomatch h

/-- No host access adds or takes an event. -/
theorem hostAccess_inbox {a : Access} (h : hostAccess a s = .next t) : t.inbox = s.inbox := by
  unfold hostAccess at h
  cases a with
  | read addr sz =>
    simp only at h
    split_ifs at h
    exact busRead_inbox h
  | write addr sz v =>
    simp only at h
    split_ifs at h
    cases h
    exact busWrite_inbox _ v s

/-- A step takes the oldest event off the inbox (A2). -/
theorem step_inbox {e : BusEvent} (hin : s.inbox = e :: rest) (h : step s = .next t) : t.inbox = rest := by
  cases e with
  | engine =>
    rw [step_engine_event hin] at h
    obtain ⟨t', ht, -, hinbox, -⟩ | ⟨o, hfault, -⟩ := engineTurn_cases { s with inbox := rest }
    · cases ht.symm.trans h
      exact hinbox
    · exact nomatch hfault.symm.trans h
  | access a =>
    rw [step_access hin] at h
    exact hostAccess_inbox h
  | reset =>
    rw [step_reset hin] at h
    cases h
    rfl

/-! ### Runs -/

theorem run_succ_of_fault (k : Nat) {f : Fault} (h : step s = .fault f) : Host.Core.run core (k + 1) s = .fault f := by
  have hcore : core.step s = .fault f := h
  simp only [Host.Core.run, hcore]

theorem run_succ_of_refused (k : Nat) {r : Refusal} (h : step s = .refused r) :
    Host.Core.run core (k + 1) s = .refused r := by
  have hcore : core.step s = .refused r := h
  simp only [Host.Core.run, hcore]

end Sys2Proof.Machine
end

section
/-! The statements of 30_encoding.md, 43_control.md and 60_exceptions.md on how commands start, run and end:
DecodedWords, StepRunsDecodedCommand, EndStepEndsTheCommand, EveryScriptEndsIdle, CommandsChangeOnlyTheirOutputs,
StartAccepted, AbortRunningCommand, UnwrittenReadFaults and RunSelEmpty. -/

namespace Sys2Proof.Machine

/-- Settles O1: the words written out are the words of the encoder. -/
theorem decodedWords : Obligations.DecodedWords := by
  refine ⟨?_, ?_, ?_, ?_, ?_, decodeBytes_cons_eq_ok.2 ⟨?_, rfl⟩⟩ <;> exact decodeCommand_eq_ok_iff_encode.2 (by decide)

/-- The engine's step is its turn at the state with its event, if there is one, taken off. -/
theorem step_of_engineIsNext {s t : State} (h : EngineIsNext s t) : step s = engineTurn t := by
  obtain ⟨hin, rfl⟩ | ⟨rest, hin, rfl⟩ := h
  · exact step_engine hin
  · exact step_engine_event hin

theorem engineIsNext_same {s t : State} (h : EngineIsNext s t) : t.phase = s.phase ∧ t.flags = s.flags := by
  obtain ⟨-, rfl⟩ | ⟨rest, -, rfl⟩ := h <;> exact ⟨rfl, rfl⟩

/-- Settles O5: the engine's turn by the phase and by what cur_cmd decodes to. -/
theorem stepRunsDecodedCommand : Obligations.StepRunsDecodedCommand := by
  intro s t hnext
  obtain ⟨hphase, hflags⟩ := engineIsNext_same hnext
  rw [step_of_engineIsNext hnext, ← hphase, ← hflags]
  refine ⟨fun w i hp hd _ => engineTurn_command hp hd, fun w hp hill => ?_, engineTurn_idle⟩
  cases hd : decodeCommand w with
  | ok i => exact absurd hd (hill i)
  | error r => exact engineTurn_illegal hp hd

/-- Settles O6: the engine's turn is never refused. -/
theorem endStepEndsTheCommand : Obligations.EndStepEndsTheCommand := by
  intro s w hp
  obtain ⟨t, ht, hidle, -, hdone⟩ | hfault := engineTurn_cases s
  · exact .inl ⟨t, ht, hidle, hdone (by simp [hp])⟩
  · exact .inr hfault

/-- Settles O7: every step takes an event, and with none left the turn is the engine's. -/
theorem everyScriptEndsIdle : Obligations.EveryScriptEndsIdle := by
  intro s
  generalize hin : s.inbox = events
  induction events generalizing s with
  | nil =>
    obtain ⟨t, ht, hidle, hinbox, -⟩ | ⟨o, hfault, -⟩ := engineTurn_cases s
    · exact .inl ⟨t, run_succ_of_next 0 (step_engine hin ▸ ht), hidle, hinbox.trans hin⟩
    · exact .inr (.inl ⟨_, run_succ_of_fault 0 (step_engine hin ▸ hfault)⟩)
  | cons e rest ih =>
    cases hstep : step s with
    | next t =>
      rw [List.length_cons, run_succ_of_next _ hstep]
      exact ih t (step_inbox hin hstep)
    | fault f => exact .inr (.inl ⟨f, run_succ_of_fault _ hstep⟩)
    | refused r => exact .inr (.inr ⟨r, run_succ_of_refused _ hstep⟩)

/-- Settles O37: the frame of the rule, and of the error it may stop with. -/
theorem commandsChangeOnlyTheirOutputs : Obligations.CommandsChangeOnlyTheirOutputs := by
  intro i s t h
  obtain ⟨hframe, hphase, hdone⟩ := exec_ended h
  refine ⟨hframe, hphase, hdone, ?_⟩
  obtain ⟨u, hr, rfl⟩ | ⟨e, hr, rfl⟩ := exec_next.1 h
  · obtain ⟨-, -, -, -, -, -, -, -, hslots, hmem, hbv⟩ := ruleOf_frame hr
    refine ⟨hslots, hmem, hbv, fun hf => ?_⟩
    obtain ⟨v, hv⟩ := ruleOf_control_bitVector (s := s) hf
    cases hr.symm.trans hv
    exact ⟨rfl, fun _ => rfl⟩
  · obtain ⟨-, -, -, -, hbv, hslots⟩ := raiseError_spec i e s
    refine ⟨fun k hk => by rw [hslots, if_neg hk], sameMemoryButBuf_of_writesOnlyBuf (writesOnlyBuf_raiseError i e s),
      fun _ => hbv, fun hf => ?_⟩
    obtain ⟨v, hv⟩ := ruleOf_control_bitVector (s := s) hf
    exact nomatch hr.symm.trans hv

/-- Settles O38: `startCommand_spec` field by field; a slot handed over is a slot of the running command. -/
theorem startAccepted : Obligations.StartAccepted := by
  intro s v rest hp hn hstart habort
  obtain ⟨sl, heq, hin, hout⟩ := startCommand_spec { s with inbox := rest }
  refine ⟨_, (step_start hp hn hstart habort).trans (congrArg _ heq), rfl, rfl, rfl, rfl,
    fun k hk => ⟨?_, fun f hf => ?_⟩, fun k hk => ?_, rfl, rfl, rfl, rfl, rfl, rfl, rfl, rfl⟩
  · exact hin k (mem_slotsOfWord.2 hk)
  · exact readSlot_running (mem_runningSlots.2 ⟨_, rfl, hk⟩) hf
  · exact hout k (mt mem_slotsOfWord.1 hk)

/-- Settles O39: what ABORT leaves alone in every family, and its outputs family by family. -/
theorem abortRunningCommand : Obligations.AbortRunningCommand := by
  intro s w v rest hp hn habort
  obtain ⟨hframe, -, -, -, hslots, -⟩ := abortCommand_spec w { s with inbox := rest }
  obtain ⟨hended, -⟩ := abortCommand_ended w { s with inbox := rest }
  refine ⟨_, (step_writeCtrl hn).trans (congrArg _ (writeCtrl_abort_busy hp habort)), hframe, hended,
    fun k hk => ?_, fun k hk => ?_, fun i hd hf => ?_, fun i hd hf => ?_, fun i hd hf => ?_, fun hctl => ?_⟩
  · rw [hslots, if_pos (mem_slotsOfWord.2 hk)]
  · rw [hslots, if_neg (mt mem_slotsOfWord.1 hk)]
  · rw [abortCommand_command hd, abortOutputs_bitVector hf]
    exact ⟨rfl, rfl, fun _ => rfl⟩
  · have hmem := sameMemoryButBuf_of_writesOnlyBuf (writesOnlyBuf_abortCommand w { s with inbox := rest })
    rw [abortCommand_command hd, abortOutputs_transform hf] at hmem ⊢
    refine ⟨rfl, rfl, hmem, fun hw => ?_⟩
    have hspan : bufSpan { s with inbox := rest } = 2 ^ opN s := bufSpan_of_legal hw
    rw [← hspan]
    exact unspecifyBuf_spec _ { s with inbox := rest }
  · rw [abortCommand_command hd, abortOutputs_analyzer hf]
    exact ⟨rfl, clobberBuffer_spec (zeroSlots _ { s with inbox := rest })⟩
  · cases hd : decodeCommand w with
    | error r =>
      rw [abortCommand_illegal hd]
      exact ⟨rfl, rfl, fun _ => rfl⟩
    | ok i =>
      rw [abortCommand_command hd, abortOutputs_control (hctl i hd)]
      exact ⟨rfl, rfl, fun _ => rfl⟩

/-- Settles O25: each scan passes the entries before and stops at this one; so does a read of the host. -/
theorem unwrittenReadFaults : Obligations.UnwrittenReadFaults := by
  refine ⟨fun s x hw hx hread hbefore => ?_, fun s x hw hx hread hbefore => ?_,
    fun i s x hi hs hk hx hread hbefore => ?_, fun s x rest hp hx => ⟨fun hn hread => ?_, fun hn hread => ?_⟩⟩
  · have hpass : ∀ y < x, ∃ v, s.mem.readWord (bufOff y) = some v ∧ booleanError y v = none := fun y hy =>
      (hbefore y hy).elim (fun h => ⟨0, h, booleanError_eq_none.2 (.inl rfl)⟩)
        fun h => ⟨1, h, booleanError_eq_none.2 (.inr rfl)⟩
    exact exec_of_unwritten (i := .wht) ((whtRule_error hw).2 (scanEntries_first_unwritten hx hpass hread))
  · have hpass : ∀ y < x, ∃ v, s.mem.readWord (bufOff y) = some v ∧ (none : Option CmdError) = none := fun y hy =>
      (hbefore y hy).imp fun _ h => ⟨h, rfl⟩
    exact exec_of_unwritten (i := .whtRaw)
      ((whtRawRule_error hw).2 (.inl (scanEntries_first_unwritten hx hpass hread)))
  · have hpass : ∀ y < x, ∃ v, s.mem.readWord (sboxOff y) = some v ∧ domainError (opM s) y v = none := fun y hy =>
      (hbefore y hy).imp fun _ h => ⟨h.1, domainError_eq_none.2 h.2⟩
    exact exec_of_unwritten ((ruleOf_error_iff_checkTable hi).2
      (checkTable_scan_error hs hk (scanEntries_first_unwritten hx hpass hread)))
  · have hn16 := nmax_le_of_wf hp
    exact step_read_unwritten (sboxOff_lt_aperture hn16 hx) (sboxOff_aligned x)
      (by rw [targetOf_sbox hn16 hx]; exact readEntry_unwritten hread) hn
  · have hn16 := nmax_le_of_wf hp
    exact step_read_unwritten (bufOff_lt_aperture hn16 hx) (bufOff_aligned x)
      (by rw [targetOf_buf hn16 hx]; exact readBuf_unwritten hread) hn

/-- Settles O33: nothing is selected, so the rule only clobbers the buffer. -/
theorem runSelEmpty : Obligations.RunSelEmpty := by
  intro s hsel
  obtain ⟨hexec, hframe, hend⟩ := exec_of_ruleOf_ok (i := .runSel) (runSelRule_empty hsel)
  obtain ⟨hbuf, hmem⟩ := clobberBuffer_spec s
  exact ⟨_, hexec, hframe, hend, fun _ _ => rfl, rfl, hmem, hbuf⟩

end Sys2Proof.Machine
end

section
/-! The results of the transform commands (41_wht.md): a butterfly as a table of closed forms, WHT_MAXABS as its
maximum, and WhtResult, WhtRawResult, WhtCompResult. -/

namespace Sys2Proof.Machine

/-! ### The maximum of a table (R139) -/

/-- The largest of the first k values is their supremum. -/
theorem maxOf_map_range (f : Nat → Nat) (k : Nat) : maxOf ((List.range k).map f) = (Finset.range k).sup f := by
  induction k with
  | zero => rfl
  | succ k ih =>
    rw [List.range_succ, List.map_append, maxOf, List.foldl_append, ← maxOf, ih, Finset.range_add_one,
      Finset.sup_insert]
    exact max_comm _ _

/-- R131 on tables: the butterfly of a table is the table of its closed form. -/
theorem butterfly_listBelow {n : Nat} (hn : n ≤ 32) (F : Nat → Int) :
    butterfly n (listBelow n F) = listBelow n (walshSum n F) := by
  have hl := listBelow_length n F
  refine List.ext_getElem (by rw [butterfly_length hl, listBelow_length]) fun u hu hu' => ?_
  rw [butterfly_length hl] at hu
  rw [← List.getD_eq_getElem _ 0, ← List.getD_eq_getElem _ 0, butterfly_getD hn hl hu, listBelow_getD hu]
  exact walshSum_congr (fun x hx => listBelow_getD hx F) u

/-- WHT_MAXABS of a transformed table is the largest absolute value of its spectrum (R139). -/
theorem maxAbs_butterfly {n : Nat} (hn : n ≤ 32) (F : Nat → Int) :
    maxAbs (butterfly n (listBelow n F)) = spectrumMax n F := by
  rw [butterfly_listBelow hn, maxAbs, listBelow, List.map_map, maxOf_map_range]
  rfl

theorem natAbs_le_of_inSignedRange {v : Int} (h : InSignedRange v) : v.natAbs ≤ 2 ^ 31 := by
  obtain ⟨hlo, hhi⟩ := h
  omega

/-! ### The end of a transform -/

theorem opM_le_of_legal {s : State} (hp : s.part.wf = true) (hs : LegalScalars s) : opM s ≤ 32 := by
  obtain ⟨-, ⟨-, hm⟩, -⟩ := hs
  obtain ⟨-, -, -, hmmax⟩ := part_limits hp
  exact hm.trans hmmax

/-- A rule that writes the transform of a table, in the signed range, ends its command with that spectrum. -/
theorem exec_of_butterfly {i : Instr} {s : State} {F : Nat → Int} (hn : opN s ≤ 32)
    (hrange : ∀ u < 2 ^ opN s, InSignedRange (walshSum (opN s) F u))
    (hrule : ruleOf i s = .ok (writeSpectrum (butterfly (opN s) (listBelow (opN s) F)) s)) :
    ∃ t, exec i s = .next t ∧ TransformEnd s t ∧ BufHolds t (walshSum (opN s) F) ∧
      t.whtMaxAbs.toNat = spectrumMax (opN s) F := by
  obtain ⟨hexec, hframe, hend⟩ := exec_of_ruleOf_ok hrule
  have hmem := writeSpectrum_memory (butterfly_length (listBelow_length (opN s) F)) s
  have hmax : spectrumMax (opN s) F ≤ 2 ^ 31 := Finset.sup_le fun u hu =>
    natAbs_le_of_inSignedRange (hrange u (Finset.mem_range.1 hu))
  refine ⟨_, hexec, ⟨hframe, hend, rfl, rfl, hmem⟩, bufHolds_butterfly hn hrange, ?_⟩
  rw [endOk_whtMaxAbs, writeSpectrum_whtMaxAbs, maxAbs_butterfly hn, BitVec.toNat_ofNat]
  omega

/-- Settles O13: the rule answers the transform of the ±1 table, which fits the buffer. -/
theorem whtResult : Obligations.WhtResult := by
  intro s b hp hw hb
  have hn := opN_le_of_legal hp hw
  exact exec_of_butterfly (i := .wht) (by omega) (fun u hu => inSignedRange_spectrum hn (fun x hx => (hb x hx).2) hu)
    (whtRule_of_bits hw hb)

/-- Settles O14: the last of the stages, all in range, is the transform. -/
theorem whtRawResult : Obligations.WhtRawResult := by
  intro s F hp hw hF hrange
  have hn := opN_le_of_legal hp hw
  refine exec_of_butterfly (i := .whtRaw) (by omega) (fun u hu => ?_) (whtRawRule_of_inRange hw (by omega) hF hrange)
  exact walshPartial_self hu F ▸ hrange (opN s) hw.1 le_rfl u hu

/-- Settles O16: the component function is a 0/1 table, whose spectrum fits the buffer. -/
theorem whtCompResult : Obligations.WhtCompResult := by
  intro s S hp hs hS
  have hn := opN_le_of_legal hp hs.1
  refine exec_of_butterfly (i := .whtComp) (by omega)
    (fun u hu => inSignedRange_spectrum hn (fun x _ => Nat.le_of_lt_succ (Nat.mod_lt _ two_pos)) hu) ?_
  exact whtCompRule_of_table hs (opM_le_of_legal hp hs) hS fun _ _ => rfl

end Sys2Proof.Machine
end

section
/-! Laws of the metrics (42_analyzers.md): each metric of a table in the terms of the spec, as sums, counts and extrema
of a function S below 2^n, and its range (R154). -/

namespace Sys2Proof.Machine

variable {n m k : Nat} {S : Nat → Nat}

/-! ### Tables -/

/-- The table of the values S(0) .. S(2^n - 1). -/
def tableOf (n : Nat) (S : Nat → Nat) : List Nat := (List.range (2 ^ n)).map S

theorem tableOf_getD {x : Nat} (hx : x < 2 ^ n) (S : Nat → Nat) : (tableOf n S).getD x 0 = S x := by
  simp [tableOf, hx]

theorem map_tableOf (n : Nat) (S g : Nat → Nat) : (tableOf n S).map g = tableOf n (fun x => g (S x)) := by
  rw [tableOf, List.map_map]
  rfl

theorem eq_tableOf {table : List Nat} (hl : table.length = 2 ^ n) : table = tableOf n (fun x => table.getD x 0) := by
  refine List.ext_getElem (by simp [tableOf, hl]) fun x hx _ => ?_
  simp [tableOf, List.getElem?_eq_getElem hx]

theorem xor_twoPow_lt {x i : Nat} (hx : x < 2 ^ n) (hi : i < n) : x ^^^ 2 ^ i < 2 ^ n :=
  Nat.xor_lt_two_pow hx (Nat.pow_lt_pow_right one_lt_two hi)

/-! ### Sums and counts over a range -/

theorem sum_map_range (k : Nat) (f : Nat → Nat) : ((List.range k).map f).sum = ∑ x ∈ Finset.range k, f x := rfl

theorem countP_range (k : Nat) (p : Nat → Prop) [DecidablePred p] :
    (List.range k).countP (fun x => decide (p x)) = ((Finset.range k).filter p).card := by
  rw [List.countP_eq_length_filter]
  rfl

theorem countBelow_le (n : Nat) (p : Nat → Prop) [DecidablePred p] : countBelow n p ≤ 2 ^ n :=
  (Finset.card_filter_le _ _).trans_eq (Finset.card_range _)

theorem countBelow_congr {p q : Nat → Prop} [DecidablePred p] [DecidablePred q] (h : ∀ x < 2 ^ n, p x ↔ q x) :
    countBelow n p = countBelow n q :=
  congrArg Finset.card (Finset.filter_congr fun x hx => h x (Finset.mem_range.1 hx))

theorem sum_range_le {k c : Nat} {f : Nat → Nat} (h : ∀ x < k, f x ≤ c) : ∑ x ∈ Finset.range k, f x ≤ k * c :=
  (Finset.sum_le_card_nsmul _ _ c fun x hx => h x (Finset.mem_range.1 hx)).trans_eq (by simp)

/-- A sum over the pairs of positions below k is a sum over b1 and over b2 in between (R170, R172). -/
theorem sum_pairsBelow (k : Nat) (f : Nat × Nat → Nat) :
    ((pairsBelow k).map f).sum = ∑ b1 ∈ Finset.range k, ∑ b2 ∈ Finset.Ioo b1 k, f (b1, b2) := by
  have hinner (b1 : Nat) : ((((List.range k).filter fun b2 => decide (b1 < b2)).map fun b2 => (b1, b2)).map f).sum =
      ∑ b2 ∈ Finset.Ioo b1 k, f (b1, b2) := by
    have hfilter : Finset.Ioo b1 k = (Finset.range k).filter (fun b2 => b1 < b2) := by
      ext b2
      simp only [Finset.mem_Ioo, Finset.mem_filter, Finset.mem_range]
      omega
    rw [hfilter, List.map_map]
    rfl
  rw [pairsBelow, List.map_flatMap, List.flatMap, List.sum_flatten, List.map_map]
  exact congrArg List.sum (List.map_congr_left fun b1 _ => hinner b1)

/-- There are k(k-1)/2 pairs of positions below k. -/
theorem sum_card_Ioo (k : Nat) : ∑ b1 ∈ Finset.range k, (Finset.Ioo b1 k).card = k * (k - 1) / 2 := by
  rw [← Finset.sum_range_id, ← Finset.sum_range_reflect (fun b => b)]
  refine Finset.sum_congr rfl fun b1 hb1 => ?_
  rw [Nat.card_Ioo]
  omega

theorem sum_pairsBelow_le {k c : Nat} {f : Nat × Nat → Nat} (h : ∀ p, f p ≤ c) :
    ((pairsBelow k).map f).sum ≤ k * (k - 1) / 2 * c := by
  rw [sum_pairsBelow, ← sum_card_Ioo, Finset.sum_mul]
  exact Finset.sum_le_sum fun b1 _ => Finset.sum_le_card_nsmul _ _ c fun b2 _ => h _

/-! ### The nonlinearity of a 0/1 function (R153, R160, R170) -/

/-- `Dist` of a table of bits. -/
theorem nlDistance_tableOf (hn : n ≤ 32) (b : Nat → Nat) : nlDistance n (tableOf n b) = distanceOf n b := by
  have hsigns : (tableOf n b).map encodeSign = listBelow n (plusMinus b) := by
    rw [tableOf, List.map_map]
    rfl
  rw [nlDistance, spectrum, hsigns, maxAbs_butterfly hn, distanceOf]

theorem nlDistance_le (n : Nat) (t : List Nat) : nlDistance n t ≤ 2 ^ (n - 1) := Nat.sub_le _ _

/-- The least of a start value and the values of a list: it bounds them, and is one of them. -/
theorem foldl_min_spec (l : List Nat) (d : Nat → Nat) (a : Nat) :
    l.foldl (fun best b => min best (d b)) a ≤ a ∧ (∀ b ∈ l, l.foldl (fun best b => min best (d b)) a ≤ d b) ∧
      (l.foldl (fun best b => min best (d b)) a = a ∨ ∃ b ∈ l, l.foldl (fun best b => min best (d b)) a = d b) := by
  induction l generalizing a with
  | nil => simp
  | cons c l ih =>
    obtain ⟨hle, hall, hmem⟩ := ih (min a (d c))
    rw [List.foldl_cons]
    refine ⟨hle.trans (min_le_left _ _), fun b hb => ?_, ?_⟩
    · rcases List.mem_cons.1 hb with rfl | hb
      · exact hle.trans (min_le_right _ _)
      · exact hall b hb
    · obtain h | ⟨b, hb, h⟩ := hmem
      · rcases min_choice a (d c) with hc | hc
        · exact .inl (h.trans hc)
        · exact .inr ⟨c, List.mem_cons_self, h.trans hc⟩
      · exact .inr ⟨b, List.mem_cons_of_mem _ hb, h⟩

theorem nlValue_le (n m : Nat) (table : List Nat) : nlValue n m table ≤ 2 ^ (n - 1) :=
  (foldl_min_spec _ (fun b => nlDistance n (table.map fun v => bitOf v b)) _).1

theorem nlDistance_bit (hn : n ≤ 32) (S : Nat → Nat) (b : Nat) :
    nlDistance n ((tableOf n S).map fun v => bitOf v b) = distanceOf n (fun x => ((S x).testBit b).toNat) := by
  simp only [map_tableOf, bitOf_eq_testBit, nlDistance_tableOf hn]

/-- NL is the least distance of the output bits (R160). -/
theorem nlValue_spec (hn : n ≤ 32) (hm : 1 ≤ m) (S : Nat → Nat) :
    (∀ b < m, nlValue n m (tableOf n S) ≤ distanceOf n (fun x => ((S x).testBit b).toNat)) ∧
      ∃ b < m, nlValue n m (tableOf n S) = distanceOf n (fun x => ((S x).testBit b).toNat) := by
  obtain ⟨-, hall, hmem⟩ := foldl_min_spec (List.range m)
    (fun b => nlDistance n ((tableOf n S).map fun v => bitOf v b)) (2 ^ (n - 1))
  simp only [nlDistance_bit hn, List.mem_range] at hall hmem
  have hvalue : nlValue n m (tableOf n S) = (List.range m).foldl
      (fun best b => min best (distanceOf n fun x => ((S x).testBit b).toNat)) (2 ^ (n - 1)) := by
    simp only [nlValue, nlDistance_bit hn]
  rw [← hvalue] at hall hmem
  refine ⟨hall, hmem.elim (fun hinit => ⟨0, hm, le_antisymm (hall 0 hm) ?_⟩) id⟩
  rw [hinit]
  exact Nat.sub_le _ _

/-- BIC-NL is the sum of the distances of the pairs of output bits (R170). -/
theorem bicNlSum_tableOf (hn : n ≤ 32) (S : Nat → Nat) :
    bicNlSum n (tableOf n S) = ∑ b1 ∈ Finset.range n, ∑ b2 ∈ Finset.Ioo b1 n,
      distanceOf n (fun x => ((S x).testBit b1 ^^ (S x).testBit b2).toNat) := by
  have hxor (a b : Bool) : a.toNat ^^^ b.toNat = (a ^^ b).toNat := by cases a <;> cases b <;> rfl
  simp only [bicNlSum, sum_pairsBelow, map_tableOf, bitOf_eq_testBit, hxor, nlDistance_tableOf hn]

theorem bicNlSum_le (n : Nat) (table : List Nat) : bicNlSum n table ≤ n * (n - 1) / 2 * 2 ^ (n - 1) :=
  sum_pairsBelow_le fun _ => nlDistance_le n _

/-! ### Avalanche (R163, R172) -/

/-- SAC is the total of the flipped output bits (R163). -/
theorem sacTotal_tableOf (n : Nat) (S : Nat → Nat) :
    sacTotal n (tableOf n S) =
      ∑ x ∈ Finset.range (2 ^ n), ∑ i ∈ Finset.range n, popcount (S x ^^^ S (x ^^^ 2 ^ i)) := by
  simp only [sacTotal, sum_map_range]
  refine Finset.sum_congr rfl fun x hx => Finset.sum_congr rfl fun i hi => ?_
  have hx := Finset.mem_range.1 hx
  rw [tableOf_getD hx, tableOf_getD (xor_twoPow_lt hx (Finset.mem_range.1 hi))]

/-- A number below 2^m has at most m bits set. -/
theorem popcount_le_of_lt {v : Nat} (h : v < 2 ^ m) : popcount v ≤ m := by
  rw [popcount_eq_card]
  refine (Finset.card_le_card fun j hj => ?_).trans_eq (Finset.card_range m)
  rw [Finset.mem_filter] at hj
  by_contra hout
  rw [Finset.mem_range, not_lt] at hout
  exact absurd (Nat.testBit_lt_two_pow (h.trans_le (Nat.pow_le_pow_right two_pos hout))) (by simp [hj.2])

theorem sacTotal_le (hS : ∀ x < 2 ^ n, S x < 2 ^ m) : sacTotal n (tableOf n S) ≤ 2 ^ n * (n * m) := by
  rw [sacTotal_tableOf]
  exact sum_range_le fun x hx => sum_range_le fun i hi =>
    popcount_le_of_lt (Nat.xor_lt_two_pow (hS x hx) (hS _ (xor_twoPow_lt hx hi)))

theorem bicSacTerm_eq (y1 y2 i j : Nat) : bicSacTerm y1 y2 i j =
    ((y1.testBit i ^^ y2.testBit i) ^^ (y1.testBit j ^^ y2.testBit j)).toNat := by
  simp only [bicSacTerm, bitOf_eq_testBit]
  cases y1.testBit i <;> cases y2.testBit i <;> cases y1.testBit j <;> cases y2.testBit j <;> rfl

/-- BIC-SAC is the total over the 28 pairs (R172). -/
theorem bicSacTotal_tableOf (hn : 8 ≤ n) (S : Nat → Nat) :
    bicSacTotal n (tableOf n S) =
      ∑ i ∈ Finset.range 8, ∑ j ∈ Finset.Ioo i 8, ∑ x ∈ Finset.range (2 ^ n), ∑ f ∈ Finset.range 8,
        (((S x).testBit i ^^ (S (x ^^^ 2 ^ f)).testBit i) ^^
          ((S x).testBit j ^^ (S (x ^^^ 2 ^ f)).testBit j)).toNat := by
  simp only [bicSacTotal, sum_pairsBelow, sum_map_range]
  refine Finset.sum_congr rfl fun i _ => Finset.sum_congr rfl fun j _ => Finset.sum_congr rfl fun x hx =>
    Finset.sum_congr rfl fun f hf => ?_
  have hx := Finset.mem_range.1 hx
  have hf := Finset.mem_range.1 hf
  rw [bicSacTerm_eq, tableOf_getD hx, tableOf_getD (xor_twoPow_lt hx (by omega))]

theorem bicSacTotal_le (n : Nat) (table : List Nat) : bicSacTotal n table ≤ 224 * 2 ^ n := by
  have hpairs : bicSacTotal n table ≤ 8 * (8 - 1) / 2 * (2 ^ n * (8 * 1)) := sum_pairsBelow_le fun p => by
    simp only [sum_map_range]
    refine sum_range_le fun x _ => sum_range_le fun f _ => ?_
    rw [bicSacTerm_eq]
    exact Bool.toNat_le _
  omega

/-! ### The best value over pairs (R166, R168) -/

theorem mem_nonzeroBelow {a : Nat} : a ∈ nonzeroBelow n ↔ 1 ≤ a ∧ a < 2 ^ n := by
  rw [nonzeroBelow, List.range_eq_range', List.tail_range', List.mem_range'_1]
  have := Nat.two_pow_pos n
  omega

/-- The largest of the row maxima is the best value over the pairs. -/
theorem isBestOverPairs_maxOf (hn : 1 ≤ n) (f : Nat → Nat → Nat) :
    IsBestOverPairs n f (maxOf ((nonzeroBelow n).map fun a => maxOf ((nonzeroBelow n).map fun b => f a b))) := by
  have hone : 1 ∈ nonzeroBelow n := mem_nonzeroBelow.2 ⟨le_rfl, Nat.one_lt_two_pow (by omega)⟩
  have hne {g : Nat → Nat} : (nonzeroBelow n).map g ≠ [] := List.ne_nil_of_mem (List.mem_map_of_mem hone)
  refine ⟨fun a b ha ha' hb hb' => ?_, ?_⟩
  · exact (le_maxOf (List.mem_map_of_mem (mem_nonzeroBelow.2 ⟨hb, hb'⟩))).trans
      (le_maxOf (List.mem_map_of_mem (f := fun a => maxOf ((nonzeroBelow n).map fun b => f a b))
        (mem_nonzeroBelow.2 ⟨ha, ha'⟩)))
  · obtain ⟨a, ha, hmax⟩ := List.mem_map.1 (maxOf_mem (hne (g := fun a => maxOf ((nonzeroBelow n).map fun b => f a b))))
    obtain ⟨b, hb, hrow⟩ := List.mem_map.1 (maxOf_mem (hne (g := f a)))
    obtain ⟨ha, ha'⟩ := mem_nonzeroBelow.1 ha
    obtain ⟨hb, hb'⟩ := mem_nonzeroBelow.1 hb
    exact ⟨a, b, ha, ha', hb, hb', hrow.trans hmax⟩

/-- The best value of a multiple is that multiple of the best value. -/
theorem IsBestOverPairs.mul {f g : Nat → Nat → Nat} {r : Nat} (h : IsBestOverPairs n f r) (c : Nat)
    (hg : ∀ a b, 1 ≤ a → a < 2 ^ n → 1 ≤ b → b < 2 ^ n → g a b = c * f a b) : IsBestOverPairs n g (c * r) := by
  obtain ⟨hall, a, b, ha, ha', hb, hb', hr⟩ := h
  refine ⟨fun a b ha ha' hb hb' => ?_, a, b, ha, ha', hb, hb', ?_⟩
  · rw [hg a b ha ha' hb hb']
    exact Nat.mul_le_mul_left c (hall a b ha ha' hb hb')
  · rw [hg a b ha ha' hb hb', hr]

theorem IsBestOverPairs.congr {f g : Nat → Nat → Nat} {r : Nat} (h : IsBestOverPairs n f r)
    (hg : ∀ a b, 1 ≤ a → a < 2 ^ n → 1 ≤ b → b < 2 ^ n → g a b = f a b) : IsBestOverPairs n g r := by
  simpa only [one_mul] using h.mul 1 (by simpa only [one_mul] using hg)

theorem IsBestOverPairs.le {f : Nat → Nat → Nat} {r c : Nat} (h : IsBestOverPairs n f r) (hc : ∀ a b, f a b ≤ c) :
    r ≤ c := by
  obtain ⟨-, a, b, -, -, -, -, rfl⟩ := h
  exact hc a b

/-- How many x < N agree under the masks a and b (R166). -/
def agreementsOf (n : Nat) (S : Nat → Nat) (a b : Nat) : Nat :=
  countBelow n (fun x => popcount (x &&& a) % 2 = popcount (S x &&& b) % 2)

theorem agreements_tableOf (n : Nat) (S : Nat → Nat) (a b : Nat) :
    agreements n (tableOf n S) a b = agreementsOf n S a b := by
  rw [agreements, countP_range, agreementsOf, ← countBelow]
  refine countBelow_congr fun x hx => ?_
  rw [tableOf_getD hx, parity, parity]

theorem absDiff_eq (a b : Nat) : absDiff a b = ((a : Int) - b).natAbs := by
  rw [absDiff]
  omega

/-- LAP is the best |agr - 2^(n-1)| over nonzero masks (R166). -/
theorem lapBest_spec (hn : 1 ≤ n) (S : Nat → Nat) : IsBestOverPairs n
    (fun a b => ((agreementsOf n S a b : Int) - 2 ^ (n - 1)).natAbs) (lapBest n (tableOf n S)) := by
  refine (isBestOverPairs_maxOf hn _).congr fun a b _ _ _ _ => ?_
  rw [agreements_tableOf, absDiff_eq, Nat.cast_pow]
  rfl

theorem twoPow_eq_two_mul (hn : 1 ≤ n) : 2 ^ n = 2 * 2 ^ (n - 1) := by
  rw [← pow_succ', Nat.sub_add_cancel hn]

theorem lapBest_le (hn : 1 ≤ n) (S : Nat → Nat) : lapBest n (tableOf n S) ≤ 2 ^ (n - 1) := by
  refine (lapBest_spec hn S).le fun a b => ?_
  have hle : agreementsOf n S a b ≤ 2 * 2 ^ (n - 1) := (countBelow_le n _).trans_eq (twoPow_eq_two_mul hn)
  have hpow : (2 : Int) ^ (n - 1) = ((2 ^ (n - 1) : Nat) : Int) := by push_cast; rfl
  rw [hpow]
  omega

/-- DAP is the best count over nonzero differences (R168). -/
theorem dapBest_spec (hn : 1 ≤ n) (S : Nat → Nat) : IsBestOverPairs n
    (fun dx dy => countBelow n (fun x => S (x ^^^ dx) ^^^ S x = dy)) (dapBest n (tableOf n S)) := by
  refine (isBestOverPairs_maxOf hn _).congr fun dx dy _ hdx _ _ => ?_
  rw [diffCount, countP_range, ← countBelow]
  refine countBelow_congr fun x hx => ?_
  rw [tableOf_getD hx, tableOf_getD (Nat.xor_lt_two_pow hx hdx)]

theorem dapBest_le (hn : 1 ≤ n) (S : Nat → Nat) : dapBest n (tableOf n S) ≤ 2 ^ n :=
  (dapBest_spec hn S).le fun _ _ => countBelow_le n _

/-! ### LAP by the spectrum (R167) -/

/-- A coefficient of the spectrum of a component function counts its agreements. -/
theorem walshSum_component (S : Nat → Nat) (a b : Nat) :
    walshSum n (plusMinus fun x => popcount (S x &&& b) % 2) a = 2 ^ n - 2 * agreementsOf n S a b := by
  have hterm (x : Nat) : plusMinus (fun x => popcount (S x &&& b) % 2) x * (-1) ^ popcount (a &&& x) =
      1 - 2 * if popcount (x &&& a) % 2 = popcount (S x &&& b) % 2 then 1 else 0 := by
    rw [plusMinus, Nat.and_comm a x, neg_one_pow_eq_pow_mod_two]
    rcases Nat.mod_two_eq_zero_or_one (popcount (x &&& a)) with h | h <;>
      rcases Nat.mod_two_eq_zero_or_one (popcount (S x &&& b)) with h' | h' <;> simp [h, h']
  rw [walshSum, Finset.sum_congr rfl fun x _ => hterm x, Finset.sum_sub_distrib, ← Finset.mul_sum, Finset.sum_boole]
  simp [agreementsOf, countBelow]

/-- So its absolute value is twice LAP's |agr - 2^(n-1)|. -/
theorem natAbs_walshSum_component (hn : 1 ≤ n) (S : Nat → Nat) (a b : Nat) :
    (walshSum n (plusMinus fun x => popcount (S x &&& b) % 2) a).natAbs =
      2 * ((agreementsOf n S a b : Int) - 2 ^ (n - 1)).natAbs := by
  have hpow : (2 : Int) ^ n = 2 * 2 ^ (n - 1) := by exact_mod_cast twoPow_eq_two_mul hn
  rw [walshSum_component, hpow]
  omega

/-! ### Rounding (R173) -/

theorem isRoundHalfEven_roundHalfEven {num den : Nat} (hd : 0 < den) :
    IsRoundHalfEven ((num : ℚ) / den) (roundHalfEven num den) := by
  have hd' : (0 : ℚ) < den := by exact_mod_cast hd
  generalize hr : roundHalfEven num den = r
  rcases roundHalfEven_cases (num := num) hd with ⟨hhi, hlo⟩ | ⟨heven, hhalf⟩
  · left
    rw [hr] at hhi hlo
    have hhi' : (2 * num : ℚ) < den * (2 * r + 1) := by exact_mod_cast hhi
    have hlo' : (den * (2 * r) : ℚ) < 2 * num + den := by exact_mod_cast hlo
    rw [abs_lt, lt_sub_iff_add_lt, sub_lt_iff_lt_add, lt_div_iff₀ hd', div_lt_iff₀ hd']
    constructor <;> linarith
  · right
    rw [hr] at heven hhalf
    refine ⟨?_, Nat.even_iff.2 heven⟩
    rcases hhalf with h | h
    · have h' : (2 * num : ℚ) = den * (2 * r + 1) := by exact_mod_cast h
      have hq : (num : ℚ) / den - r = 1 / 2 := by field_simp; linarith
      rw [hq]
      norm_num
    · have h' : (2 * num + den : ℚ) = den * (2 * r) := by exact_mod_cast h
      have hq : (num : ℚ) / den - r = -(1 / 2) := by field_simp; linarith
      rw [hq]
      norm_num

/-- Rounding a fraction of at most c gives at most c. -/
theorem roundHalfEven_le {num den c : Nat} (hd : 0 < den) (h : num ≤ c * den) : roundHalfEven num den ≤ c := by
  by_contra hlt
  have hstep : den * (2 * c + 2) ≤ den * (2 * roundHalfEven num den) := Nat.mul_le_mul_left den (by omega)
  have hexp : den * (2 * c + 2) = 2 * (c * den) + 2 * den := by ring
  rcases roundHalfEven_cases (num := num) hd with ⟨-, hlo⟩ | ⟨-, hhalf | hhalf⟩
  · omega
  · rw [mul_add] at hhalf; omega
  · omega

end Sys2Proof.Machine
end

section
/-! Laws of the analyzer commands: the numbers a slot is filled with and their bounds (R10, R154), and how an analyzer
ends on a legal table (R150, R152, R175). -/

namespace Sys2Proof.Machine

variable {n m : Nat} {S : Nat → Nat} {s t : State} {k : Metric} {ks : List Metric}

/-! ### What a slot is filled with -/

/-- NUM of a metric as a number (R154). -/
def metricNum (n m : Nat) (table : List Nat) : Metric → Nat
  | .nl => nlValue n m table
  | .sac => sacTotal n table
  | .lap => lapBest n table
  | .dap => dapBest n table
  | .bicNl => bicNlSum n table
  | .bicSac => bicSacTotal n table

/-- AUX of a metric as a number (R173). -/
def metricAux (n : Nat) (table : List Nat) : Metric → Nat
  | .bicSac => roundHalfEven (bicSacTotal n table * 100000) (224 * 2 ^ n)
  | _ => 0

theorem metricSlot_num (n m : Nat) (table : List Nat) (k : Metric) :
    (metricSlot n m table k).num = BitVec.ofNat 32 (metricNum n m table k) := by cases k <;> rfl

theorem metricSlot_aux (n m : Nat) (table : List Nat) (k : Metric) :
    (metricSlot n m table k).aux = BitVec.ofNat 32 (metricAux n table k) := by cases k <;> rfl

/-- Every NUM of a legal part fits its register (R10). -/
theorem metricNum_lt (hn1 : 1 ≤ n) (hn : n ≤ 16) (hm : m ≤ 32) (hS : ∀ x < 2 ^ n, S x < 2 ^ m) (k : Metric) :
    metricNum n m (tableOf n S) k < 2 ^ 32 := by
  have hpow := twoPow_le_65536 hn
  have hhalf : 2 ^ (n - 1) ≤ 65536 := twoPow_le_65536 (by omega)
  cases k with
  | nl => exact (nlValue_le n m _).trans_lt (by omega)
  | sac => exact (sacTotal_le hS).trans_lt ((Nat.mul_le_mul hpow (Nat.mul_le_mul hn hm)).trans_lt (by decide))
  | lap => exact (lapBest_le hn1 S).trans_lt (by omega)
  | dap => exact (dapBest_le hn1 S).trans_lt (by omega)
  | bicNl =>
    have hpairs : n * (n - 1) / 2 ≤ 120 := by
      have : n * (n - 1) ≤ 16 * 15 := Nat.mul_le_mul hn (by omega)
      omega
    exact (bicNlSum_le n _).trans_lt ((Nat.mul_le_mul hpairs hhalf).trans_lt (by decide))
  | bicSac => exact (bicSacTotal_le n _).trans_lt (by omega)

/-- AUX is a fraction of 100000 (R174). -/
theorem metricAux_le (n : Nat) (table : List Nat) (k : Metric) : metricAux n table k ≤ 100000 := by
  cases k with
  | bicSac =>
    refine roundHalfEven_le (by positivity) ?_
    rw [Nat.mul_comm]
    exact Nat.mul_le_mul_left _ (bicSacTotal_le n table)
  | _ => exact Nat.zero_le _

/-- On a legal table the slot holds the exact numbers (R10, R154). -/
theorem slotHolds_metricSlot (hn1 : 1 ≤ n) (hn : n ≤ 16) (hm : m ≤ 32) (hS : ∀ x < 2 ^ n, S x < 2 ^ m) (k : Metric) :
    SlotHolds (metricSlot n m (tableOf n S) k) (metricNum n m (tableOf n S) k) (metricDen n k)
      (metricAux n (tableOf n S) k) := by
  refine ⟨?_, metricSlot_den_toNat hn m _ k, ?_, metricSlot_valid n m _ k⟩
  · rw [metricSlot_num, BitVec.toNat_ofNat, Nat.mod_eq_of_lt (metricNum_lt hn1 hn hm hS k)]
  · have haux := metricAux_le n (tableOf n S) k
    rw [metricSlot_aux, BitVec.toNat_ofNat, Nat.mod_eq_of_lt (by omega)]

/-! ### The end of an analyzer -/

/-- Writing the results of a table ends an analyzer without error. -/
theorem exec_of_writeResults {i : Instr} {table : List Nat} (hks : slotsOf i s.regs.sel = ks)
    (hrule : ruleOf i s = .ok (writeResults ks table s)) :
    ∃ t, exec i s = .next t ∧ AnalyzerEnd ks s t ∧
      ∀ k ∈ ks, t.slots.get k = metricSlot (opN s) (opM s) table k := by
  obtain ⟨hexec, hframe, hend⟩ := exec_of_ruleOf_ok hrule
  have hslots := (ruleOf_frame hrule).slots
  obtain ⟨hbuf, hmem⟩ := clobberBuffer_spec { s with slots := s.slots.setAll (metricSlot (opN s) (opM s) table) ks }
  exact ⟨_, hexec, ⟨hframe, hend, hks ▸ hslots, rfl, hmem, hbuf⟩, fun k hk => endOk_writeResults_slots_get hk table s⟩

/-- The analyzers' rule on a legal table with no degenerate metric (R150, R151). -/
theorem analyzerRule_of_table (hp : s.part.wf = true) (hs : LegalScalars s) (hS : SboxHolds s S)
    (hk : NotDegenerate ks (opN s)) : analyzerRule ks s = .ok (writeResults ks (tableOf (opN s) S) s) :=
  analyzerRule_ok.2 ⟨_, checkTable_of_legal hs hS (opM_le_of_legal hp hs) hk, rfl⟩

/-- The command of one metric on a legal table (R150): its slot holds the metric's numbers. -/
theorem exec_singleCommand (hp : s.part.wf = true) (hs : LegalScalars s) (hS : SboxHolds s S)
    (hk : NotDegenerate [k] (opN s)) :
    ∃ t, exec (singleCommand k) s = .next t ∧ AnalyzerEnd [k] s t ∧
      t.slots.get k = metricSlot (opN s) (opM s) (tableOf (opN s) S) k ∧
      SlotHolds (t.slots.get k) (metricNum (opN s) (opM s) (tableOf (opN s) S) k) (metricDen (opN s) k)
        (metricAux (opN s) (tableOf (opN s) S) k) := by
  obtain ⟨t, hexec, hend, hslot⟩ := exec_of_writeResults (slotsOf_singleCommand k s.regs.sel)
    ((ruleOf_singleCommand k s).trans (analyzerRule_of_table hp hs hS hk))
  have hslot := hslot k List.mem_cons_self
  refine ⟨t, hexec, hend, hslot, ?_⟩
  rw [hslot]
  exact slotHolds_metricSlot hs.1.1 (opN_le_of_legal hp hs.1) (opM_le_of_legal hp hs) (fun x hx => (hS x hx).2) k

theorem notDegenerate_single (hnl : k = .bicNl → 2 ≤ n) (hsac : k = .bicSac → 256 ≤ 2 ^ n) : NotDegenerate [k] n :=
  ⟨fun h => hnl (List.mem_singleton.1 h).symm, fun h => hsac (List.mem_singleton.1 h).symm⟩

/-- A single command that ended without error had a legal table S, and its slot holds the metric's numbers. -/
theorem exists_table_of_exec (hp : s.part.wf = true) (he : t.flags.errCode = .none)
    (h : exec (singleCommand k) s = .next t) :
    ∃ S : Nat → Nat, LegalWidth s ∧ opN s ≤ 16 ∧ NotDegenerate [k] (opN s) ∧ (∀ x < 2 ^ opN s, S x < 2 ^ opM s) ∧
      SlotHolds (t.slots.get k) (metricNum (opN s) (opM s) (tableOf (opN s) S) k) (metricDen (opN s) k)
        (metricAux (opN s) (tableOf (opN s) S) k) := by
  obtain ⟨u, hrule, rfl⟩ := ruleOf_ok_of_errCode_none h he
  rw [ruleOf_singleCommand] at hrule
  obtain ⟨table, htable, rfl⟩ := analyzerRule_ok.1 hrule
  obtain ⟨hs, hk, hlen, hentry⟩ := checkTable_ok.1 htable
  obtain ⟨S, rfl⟩ : ∃ S, table = tableOf (opN s) S := ⟨_, eq_tableOf hlen⟩
  have hn := opN_le_of_legal hp hs.1
  have hS : ∀ x < 2 ^ opN s, S x < 2 ^ opM s := fun x hx => by
    obtain ⟨w, -, hw, hlt⟩ := hentry x hx
    rwa [← tableOf_getD hx S, List.getD_eq_getElem?_getD, hw]
  refine ⟨S, hs.1, hn, hk, hS, ?_⟩
  rw [endOk_writeResults_slots_get List.mem_cons_self]
  exact slotHolds_metricSlot hs.1.1 hn (opM_le_of_legal hp hs) hS k

end Sys2Proof.Machine
end

section
/-! The statements of 42_analyzers.md on results: NlResult, SacResult, LapResult, DapResult, BicNlResult, BicSacResult,
RunSelResult, MetricRanges and LapSpectralForm. -/

namespace Sys2Proof.Machine

/-- Settles O26: the fold of minima is the least distance. -/
theorem nlResult : Obligations.NlResult := by
  intro s S hp hs hS
  have hn := opN_le_of_legal hp hs.1
  obtain ⟨t, hexec, hend, -, hslot⟩ := exec_singleCommand (k := .nl) hp hs hS (notDegenerate_single nofun nofun)
  obtain ⟨-, ⟨hm, -⟩, -⟩ := hs
  exact ⟨t, _, hexec, hend, hslot, nlValue_spec (by omega) hm S⟩

/-- Settles O27: a flipped input x xor 2^i stays in the table, so the list's sum is the total of the spec. -/
theorem sacResult : Obligations.SacResult := by
  intro s S hp hs hS
  obtain ⟨t, hexec, hend, -, hslot⟩ := exec_singleCommand (k := .sac) hp hs hS (notDegenerate_single nofun nofun)
  refine ⟨t, hexec, hend, ?_⟩
  rw [← sacTotal_tableOf]
  exact hslot

/-- Settles O28: the nested maxima are the best value over the pairs of masks. -/
theorem lapResult : Obligations.LapResult := by
  intro s S hp hs hS
  obtain ⟨t, hexec, hend, -, hslot⟩ := exec_singleCommand (k := .lap) hp hs hS (notDegenerate_single nofun nofun)
  exact ⟨t, _, hexec, hend, hslot, lapBest_spec hs.1.1 S⟩

/-- Settles O29: the nested maxima are the best value over the pairs of differences. -/
theorem dapResult : Obligations.DapResult := by
  intro s S hp hs hS
  obtain ⟨t, hexec, hend, -, hslot⟩ := exec_singleCommand (k := .dap) hp hs hS (notDegenerate_single nofun nofun)
  exact ⟨t, _, hexec, hend, hslot, dapBest_spec hs.1.1 S⟩

/-- Settles O30: the list's sum over the pairs is the double sum of the spec; n >= 2 is not degenerate. -/
theorem bicNlResult : Obligations.BicNlResult := by
  intro s S hp hs hS h2
  have hn := opN_le_of_legal hp hs.1
  obtain ⟨t, hexec, hend, -, hslot⟩ :=
    exec_singleCommand (k := .bicNl) hp hs hS (notDegenerate_single (fun _ => h2) nofun)
  refine ⟨t, hexec, hend, ?_⟩
  rw [← bicNlSum_tableOf (by omega)]
  exact hslot

/-- Settles O31: 256 entries are those of a width of 8 or more, so every flip stays in the table. -/
theorem bicSacResult : Obligations.BicSacResult := by
  intro s S hp hs hS h256
  have h8 : 8 ≤ opN s := (Nat.pow_le_pow_iff_right (by omega)).1 (show 2 ^ 8 ≤ 2 ^ opN s from h256)
  obtain ⟨t, hexec, hend, -, hslot⟩ :=
    exec_singleCommand (k := .bicSac) hp hs hS (notDegenerate_single nofun fun _ => h256)
  refine ⟨t, _, _, hexec, hend, bicSacTotal_tableOf h8 S, hslot, ?_⟩
  have hround := isRoundHalfEven_roundHalfEven (num := bicSacTotal (opN s) (tableOf (opN s) S) * 100000)
    (den := 224 * 2 ^ opN s) (by positivity)
  push_cast at hround
  exact hround

/-- Settles O32: RUNSEL is the analyzers' rule for the selected metrics, and each slot is that of the metric alone. -/
theorem runSelResult : Obligations.RunSelResult := by
  intro s S hp hres hne hs hS hk
  obtain ⟨t, hexec, hend, hslot⟩ := exec_of_writeResults (i := .runSel) rfl
    ((runSelRule_selected hres hne).trans (analyzerRule_of_table hp hs hS hk))
  refine ⟨t, hexec, hend, fun k i hsel hop => ?_⟩
  have hmem : k ∈ selectedMetrics s.regs.sel := (mem_selectedMetrics _ _).2 hsel
  obtain rfl : i = singleCommand k := opcode_injective (hop.trans (opcode_singleCommand k).symm)
  obtain ⟨hnl, hsac⟩ := hk
  obtain ⟨u, hexec', ⟨-, hend', -⟩, hslot', -⟩ := exec_singleCommand hp hs hS
    (notDegenerate_single (fun h => hnl (h ▸ hmem)) fun h => hsac (h ▸ hmem))
  exact ⟨u, hexec', hend', (hslot k hmem).trans hslot'.symm⟩

/-- DEN is not 0 in the slot of a metric that is not degenerate (R40). -/
theorem den_ne_zero_of_slotHolds {n : Nat} {k : Metric} {sl : Slot} {num aux : Nat} (hn : 1 ≤ n)
    (hk : NotDegenerate [k] n) (h : SlotHolds sl num (metricDen n k) aux) : sl.den ≠ 0 := by
  obtain ⟨-, hden, -⟩ := h
  have hpos : 0 < metricDen n k := metricDen_pos hn fun hnl => hk.1 (hnl ▸ List.mem_cons_self)
  rintro h0
  rw [h0] at hden
  exact absurd hden.symm hpos.ne'

/-- Settles O34: each metric's range, on the table that a command without error had. -/
theorem metricRanges : Obligations.MetricRanges := by
  intro s t hp he
  refine ⟨fun h => ?_, fun h => ?_, fun h => ?_, fun h => ?_, fun h => ?_, fun h => ?_⟩
  · obtain ⟨S, -, -, -, -, hnum, hden, -⟩ := exists_table_of_exec (k := .nl) hp he h
    rw [hnum]
    exact ⟨nlValue_le _ _ _, BitVec.eq_of_toNat_eq hden⟩
  · obtain ⟨S, hw, -, hk, hS, hslot⟩ := exists_table_of_exec (k := .sac) hp he h
    refine ⟨?_, den_ne_zero_of_slotHolds hw.1 hk hslot⟩
    obtain ⟨hnum, hden, -⟩ := hslot
    rw [hnum, hden]
    calc sacTotal (opN s) (tableOf (opN s) S) * opN s
        ≤ 2 ^ opN s * (opN s * opM s) * opN s := Nat.mul_le_mul_right _ (sacTotal_le hS)
      _ = opM s * (opN s * 2 ^ opN s * opN s) := by ring
  · obtain ⟨S, hw, -, hk, -, hslot⟩ := exists_table_of_exec (k := .lap) hp he h
    refine ⟨?_, den_ne_zero_of_slotHolds hw.1 hk hslot⟩
    obtain ⟨hnum, hden, -⟩ := hslot
    rw [hnum, hden]
    exact (Nat.mul_le_mul_left 2 (lapBest_le hw.1 S)).trans_eq (twoPow_eq_two_mul hw.1).symm
  · obtain ⟨S, hw, -, hk, -, hslot⟩ := exists_table_of_exec (k := .dap) hp he h
    refine ⟨?_, den_ne_zero_of_slotHolds hw.1 hk hslot⟩
    obtain ⟨hnum, hden, -⟩ := hslot
    rw [hnum, hden]
    exact dapBest_le hw.1 S
  · obtain ⟨S, hw, -, hk, -, hslot⟩ := exists_table_of_exec (k := .bicNl) hp he h
    refine ⟨?_, den_ne_zero_of_slotHolds hw.1 hk hslot⟩
    obtain ⟨hnum, hden, -⟩ := hslot
    rw [hnum, hden, Nat.mul_comm]
    exact bicNlSum_le _ _
  · obtain ⟨S, hw, -, hk, -, hslot⟩ := exists_table_of_exec (k := .bicSac) hp he h
    have hne := den_ne_zero_of_slotHolds hw.1 hk hslot
    obtain ⟨hnum, hden, haux, -⟩ := hslot
    rw [hnum, hden, haux]
    exact ⟨bicSacTotal_le _ _, metricAux_le _ _ .bicSac, hne⟩

/-- WHT_COMP with MASK = b leaves the spectrum of the component function of b (R136). -/
theorem exec_whtComp_mask {s : State} {S : Nat → Nat} {b : Nat} (hp : s.part.wf = true) (hs : LegalScalars s)
    (hS : SboxHolds s S) (hb : b < 2 ^ opN s) :
    ∃ u, exec .whtComp { s with regs := { s.regs with mask := BitVec.ofNat 32 b } } = .next u ∧
      EndedWithoutError s u ∧ BufHolds u (walshSum (opN s) (plusMinus fun x => popcount (S x &&& b) % 2)) := by
  obtain ⟨u, hexec, ⟨-, hend, -⟩, hbuf, -⟩ :=
    whtCompResult { s with regs := { s.regs with mask := BitVec.ofNat 32 b } } S hp hs hS
  have hpow := twoPow_le_65536 (opN_le_of_legal hp hs.1)
  have hmask : (BitVec.ofNat 32 b).toNat = b := by rw [BitVec.toNat_ofNat]; omega
  simp only [hmask] at hbuf
  exact ⟨u, hexec, hend, hbuf⟩

/-- Settles O35: a coefficient of the spectrum is N minus twice the agreements, up to the factor 2 LAP's value. -/
theorem lapSpectralForm : Obligations.LapSpectralForm := by
  intro s S hp hs hS
  obtain ⟨t, hexec, -, -, hnum, -⟩ := exec_singleCommand (k := .lap) hp hs hS (notDegenerate_single nofun nofun)
  refine ⟨t, fun b => walshSum (opN s) (plusMinus fun x => popcount (S x &&& b) % 2), hexec,
    fun b _ hb => exec_whtComp_mask hp hs hS hb, ?_⟩
  rw [hnum]
  exact (lapBest_spec hs.1.1 S).mul 2 fun a b _ _ _ _ => natAbs_walshSum_component hs.1.1 S a b

end Sys2Proof.Machine
end
